-- ==== Sys2Proof/Word.lean ====
section
/-! DEFINITION. The plain value types of the block: bytes, unsigned 16-bit fields and the configuration
word (00_scope.md R9, 10_state.md R22 and R27). No field of the block is signed. -/

namespace Sys2Proof

/-- One byte on a port, in the framer buffer or in the line buffer. -/
abbrev Byte := BitVec 8

/-- An unsigned 16-bit field (`u16` of R9): line_id, len, payload_len, a byte count. -/
abbrev U16 := BitVec 16

/-- The 64-bit configuration word CFG_IN (R22). -/
abbrev CfgWord := BitVec 64

end Sys2Proof
end

