-- ==== Sys2Proof/Config.lean ====
section
/-! DEFINITION. The implementation parameters of 00_scope.md R7, each a named constant with the spec's
value, and the two parameters that 92_eei_decisions.md leaves as arguments of a model (D8, D14). -/

namespace Sys2Proof.Config

/-- First magic byte (R7). -/
def magic0 : Byte := 0xEB
/-- Second magic byte (R7). -/
def magic1 : Byte := 0xD1
/-- Byte-stream header length, counting both magic bytes (R7, C1). -/
def bsHdr : Nat := 8
/-- UDP header length (R7). -/
def udpHdr : Nat := 10
/-- The UDP version byte (R7). -/
def udpVersion : Byte := 1
/-- The UDP format byte of RLE8 (R7). -/
def udpFormatRle8 : Byte := 1
/-- Longest payload in bytes (R7). -/
def maxPayload : Nat := 128
/-- Lines of a frame (R7). -/
def lines : Nat := 342
/-- Bytes of a packed row (R7). -/
def rowBytes : Nat := 64
/-- Pixels of a row (R7). -/
def pixels : Nat := 512
/-- Frame slots in DATAGRAM mode (R7, R24). -/
def udpWindow : Nat := 4
/-- Recommended number of frame slots in BYTESTREAM mode (R7, D10). -/
def bsWindow : Nat := 1
/-- Recommended stall window in TIME_UNITs (R7). -/
def stallWindow : Nat := 2000
/-- Width of a time value (R7, D13): the width of `Time`. -/
abbrev timeBits : Nat := 32
/-- Milliseconds in one TIME_UNIT (R7, D13). -/
def timeUnitMs : Nat := 1
/-- Capacity of the framer buffer (R7, D5). -/
def bufCap : Nat := 136
/-- Longest datagram that is not DG_LONG (R7, D9). -/
def dgramCap : Nat := 138
/-- Expanded value of a 1 bit with polarity 0 (R7, D18). -/
def pixOn : Byte := 255
/-- Expanded value of a 0 bit with polarity 0 (R7, D18). -/
def pixOff : Byte := 0
/-- Width of a frame_id (R7): the width of `FrameId`. -/
abbrev frameIdBits : Nat := 16

/-- The configuration word of `State.reset`: BYTESTREAM mode with every other field at its recommended
value (R7, R22): `CFG_BS` of 95_test_vectors.md, 0x0000000007D00010. DESIGN CHOICE, unsafe (log entry 1): the spec says the
integrator must choose the mode. -/
def resetCfgIn : CfgWord := BitVec.ofNat 64 (stallWindow * 2 ^ 16 + bsWindow * 2 ^ 4)

theorem resetCfgIn_val : resetCfgIn = 0x0000000007D00010 := by decide

/-- The two named parameters a model takes as arguments (D8, D14). -/
structure Params where
  /-- `UDP_LEN_EXACT`: a datagram must be exactly 10 + payload_len bytes; false ignores trailing bytes (D8). -/
  udpLenExact : Bool
  /-- `SWEEP_AFTER`: false sweeps first in each transaction, true after the line (D14). -/
  sweepAfter : Bool
deriving DecidableEq, Repr

/-- The spec's defaults of the two named parameters (R7). -/
def defaultParams : Params := ⟨true, false⟩

/-- The constraints that R8 asks a model to check once. -/
theorem constraints :
    pixels = 8 * rowBytes ∧ maxPayload = 2 * rowBytes ∧ rowBytes ≤ maxPayload ∧ 1 ≤ bsWindow ∧
      stallWindow < 2 ^ timeBits ∧ bufCap = bsHdr + maxPayload ∧ dgramCap = udpHdr + maxPayload := by
  decide

@[simp] theorem bsHdr_val : bsHdr = 8 := rfl
@[simp] theorem udpHdr_val : udpHdr = 10 := rfl
@[simp] theorem maxPayload_val : maxPayload = 128 := rfl
/-- Not by `rfl`, so that `simp` never rewrites the width of a present mask with it. -/
@[simp] theorem lines_val : lines = 342 := by decide
@[simp] theorem rowBytes_val : rowBytes = 64 := rfl
@[simp] theorem udpWindow_val : udpWindow = 4 := rfl
@[simp] theorem dgramCap_val : dgramCap = 138 := rfl

end Sys2Proof.Config

namespace Sys2Proof

/-- A time value: `TIME_BITS` bits, in `TIME_UNIT`s (R7, D13). -/
abbrev Time := BitVec Config.timeBits

/-- A frame_id, which wraps modulo 2^`FRAME_ID_BITS` (R7). -/
abbrev FrameId := BitVec Config.frameIdBits

end Sys2Proof
end

