-- ==== Sys2Proof/Syntax.lean ====
section
/-! DEFINITION. The instructions of the block: one constructor per row of spec/opcode_table.json
(30_encoding.md R80 and R81), what the ports offer, and what stands before a unit to be decoded. -/

namespace Sys2Proof

/-- What both parsers hand to the codec (40_framer.md): frame_id, line_id, RLE flag and payload; its `n`
is the payload's length. -/
structure LineItem where
  fid : FrameId
  lid : U16
  rle : Bool
  payload : List Byte
deriving DecidableEq, Repr

/-- The payload length `n` of a line item. -/
def LineItem.n (i : LineItem) : Nat := i.payload.length

/-- The first check of R113 that a datagram fails, with the info of its event (R230). -/
inductive DgCause where
  /-- `DG_LONG`: more than DGRAM_CAP bytes. -/
  | long (size : Nat)
  /-- `DG_SHORT`: fewer than 10 bytes. -/
  | short (size : Nat)
  /-- `DG_MAGIC`: the first two bytes are not the magic. -/
  | magic (b0 b1 : Byte)
  /-- `DG_VERSION`: the version byte is not 1. -/
  | version (v : Byte)
  /-- `DG_FORMAT`: the format byte is not 1. -/
  | format (f : Byte)
  /-- `DG_LENGTH`: the size disagrees with payload_len. -/
  | length (size : Nat) (n : U16)
deriving DecidableEq, Repr

/-- What the framer sees at a magic at the head of its buffer (R103 to R107). -/
inductive HeadView where
  /-- The header or the packet is not complete (R103, R106). -/
  | needMore
  /-- A header whose length is 0 or above 128 (R105). -/
  | corrupt (fid : FrameId) (lid len : U16)
  /-- A complete packet with a valid header (R107). -/
  | packet (item : LineItem)
deriving DecidableEq, Repr

/-- The three outcomes of EXTRACT (R100, C3). -/
inductive ExtractResult where
  | needMore
  | retry (len : U16)
  | packet (item : LineItem)
deriving DecidableEq, Repr

/-- The two modes of `cfg.mode` (R22). -/
inductive Mode where
  | byteStream
  | datagram
deriving DecidableEq, Repr

/-- A port transaction as the environment offers it (R81). -/
inductive Offer where
  /-- A byte on the byte port, with the time. -/
  | byte (b : Byte) (now : Time)
  /-- A datagram of any length on the datagram port, with the time. -/
  | dgram (d : List Byte) (now : Time)
  /-- Time with no data. -/
  | tick (now : Time)
  /-- A reset with CFG_IN. -/
  | reset (cfgIn : CfgWord)
deriving DecidableEq, Repr

/-- The bits from which one instruction is decoded, with the unit they stand before. -/
inductive Fetch where
  /-- A transaction at a port (F-TXN). -/
  | port (o : Offer)
  /-- Bytes at the head of the framer buffer, from a magic on (F-BS), and the transaction's time. -/
  | framer (bytes : List Byte) (now : Time)
  /-- A datagram before the UDP header parser (F-UDP), and the transaction's time. -/
  | parser (d : List Byte) (now : Time)
  /-- Payload bytes before the RLE8 decoder (F-PAIR). -/
  | codec (bytes : List Byte)
deriving DecidableEq, Repr

/-- Why bits are no instruction. -/
inductive Reject where
  /-- Bytes before the framer that do not begin with the magic (R101). -/
  | noMagic
  /-- A header or a packet that is not complete (R103, R106). -/
  | needMore
  /-- Fewer than two bytes before the RLE8 decoder (R133). -/
  | shortPair
  /-- A configuration word that is not well-formed (R25). -/
  | malformedConfig
deriving DecidableEq, Repr

/-- The instructions: the packet, datagram and pair classes of R80 and the four transactions of R81. An
operand `now` is the time of the transaction the instruction belongs to (R201). -/
inductive Instr where
  /-- BS_RAW: a byte-stream packet with a valid header and the RLE flag clear (R107, R131, R201). -/
  | bsRaw (fid : FrameId) (lid : U16) (payload : List Byte) (now : Time)
  /-- BS_RLE: a byte-stream packet with a valid header and the RLE flag set (R107, R132, R201). -/
  | bsRle (fid : FrameId) (lid : U16) (payload : List Byte) (now : Time)
  /-- BS_CORRUPT: a byte-stream header with a length of 0 or above 128 (R105). -/
  | bsCorrupt (fid : FrameId) (lid len : U16)
  /-- UDP_RLE8: a datagram that passes every check of R113 (R112, R201). -/
  | udpRle8 (fid : FrameId) (lid : U16) (payload : List Byte) (now : Time)
  /-- UDP_REJECT: a datagram that fails a check of R113, and the first it fails. -/
  | udpReject (d : List Byte) (cause : DgCause)
  /-- RLE_PAIR: a pair with a count of at least 1 (R132). -/
  | rlePair (count value : Byte)
  /-- RLE_PAIR_ZERO: a pair with count 0 (R134). -/
  | rlePairZero (value : Byte)
  /-- BYTE(b, now) (R200). -/
  | byte (b : Byte) (now : Time)
  /-- DGRAM(d, now) (R202). -/
  | dgram (d : List Byte) (now : Time)
  /-- TICK(now) (R204). -/
  | tick (now : Time)
  /-- RESET(cfg_in) (R260). -/
  | reset (cfgIn : CfgWord)
deriving DecidableEq, Repr

end Sys2Proof
end

