-- ==== Sys2Proof/Machine/State.lean ====
section
/-! DEFINITION. The state of the block as plain data (10_state.md), its outputs, and the reasons a step
can stop. Between transactions the block's own state is `(cfg, fbuf, slots)` with the line buffer that
holds the slots' rows (R20, R27, R52); the fields below `out` are the model's own. -/

namespace Sys2Proof.Machine

/-- The line buffer as address and byte pairs, addresses strictly rising (20_memory.md R52). An address
that is not listed holds no value (R30). -/
abbrev Memory := List Host.Cell

/-- A frame slot (R27). Its rows stand in the line buffer at its physical slot index (R52). -/
structure Slot where
  /-- The physical slot index `s` of R52. -/
  phys : Nat
  /-- The frame_id the slot collects. -/
  fid : FrameId
  /-- `present[l]` is bit `l`. -/
  present : BitVec Config.lines
  /-- The number of lines present. -/
  nLines : BitVec 9
  /-- The sum of the payload lengths of the lines inserted. -/
  byteCount : U16
  /-- The number of inserted lines whose payload was RLE8. -/
  rleLineCount : BitVec 9
  /-- The time of the last line newly inserted, or of allocation. -/
  tLast : Time
deriving DecidableEq, Repr

/-- The `reason` of LINE_INVALID (60_exceptions.md R231). -/
inductive InvalidReason where
  | rawLen
  | rleOdd
  | rleZero
  | rleOver
  | rleShort
deriving DecidableEq, Repr

/-- The records of the event output (R34, R230). The six DG_* codes are one constructor with its cause. -/
inductive Event where
  /-- HDR_CORRUPT, 0x01. -/
  | hdrCorrupt (len : U16)
  /-- DG_LONG to DG_LENGTH, 0x02 to 0x07. -/
  | dgDrop (cause : DgCause)
  /-- LINE_INVALID, 0x10. -/
  | lineInvalid (fid : FrameId) (lid : U16) (reason : InvalidReason)
  /-- LINE_RANGE, 0x11. -/
  | lineRange (fid : FrameId) (lid : U16)
  /-- LINE_DUP, 0x12. -/
  | lineDup (fid : FrameId) (lid : U16)
  /-- EVICT_WINDOW, 0x20. -/
  | evictWindow (fid : FrameId) (nLines : U16)
  /-- EVICT_STALL, 0x21. -/
  | evictStall (fid : FrameId) (nLines : U16) (age : Time)
deriving DecidableEq, Repr

/-- A record on one of the two output ports (R33, R34). -/
inductive Output where
  /-- A record of the frame output: the rows are all bytes of row 0, then of row 1, and so on (R33). -/
  | frame (fid : FrameId) (rows : List Byte) (byteCount rleLineCount : U16)
  /-- A record of the event output (R34). -/
  | event (e : Event)
deriving DecidableEq, Repr

/-- The staging row of a line inside a transaction, and the parsed header it belongs to (R20, R138). -/
structure Staging where
  fid : FrameId
  lid : U16
  row : List Byte
deriving DecidableEq, Repr

/-- Nothing staged. DESIGN CHOICE (log entry 9): the header fields read 0 while no line is staged. -/
def Staging.idle : Staging := ⟨0, 0, []⟩

/-- An item before one unit inside a transaction (log entry 8). -/
inductive Latch where
  /-- The framer is draining its buffer in a transaction of time `now` (R108). -/
  | framer (now : Time)
  /-- A datagram is held before the UDP header parser (R54). -/
  | parser (d : List Byte) (now : Time)
  /-- A pair is before the RLE8 decoder (R132). -/
  | codec (count value : Byte)
deriving DecidableEq, Repr

/-- The state of the block. -/
structure State where
  /-- The configuration word latched at reset (R22, R23). -/
  cfg : CfgWord
  /-- The framer buffer, oldest byte first (R26). -/
  fbuf : List Byte
  /-- The frame slots in allocation order, oldest first (R28). -/
  slots : List Slot
  /-- The line buffer (R52). -/
  mem : Memory
  /-- What the block has put on its frame and event outputs, in the order produced (R33, R34, R59; log
  entry 4). -/
  out : List Output
  /-- The staging row and the header it belongs to; idle between transactions (R20, R138). -/
  stage : Staging
  /-- MODEL: an item before a unit inside a transaction; none between transactions (log entry 8). -/
  latch : Option Latch
  /-- MODEL: the transactions the environment has yet to offer, in order (R4, R81; log entry 3). -/
  offers : List Offer
  /-- MODEL: the free value for which free physical slot each allocation takes (R163; log entry 5). -/
  physHints : List Nat
  /-- MODEL: the two named parameters, which no transaction writes (D8, D14; log entry 2). -/
  params : Config.Params
deriving DecidableEq, Repr

/-- The state right after reset (R36, R260): `cfg` at the word of log entry 1, everything else empty. -/
def State.reset : State where
  cfg := Config.resetCfgIn
  fbuf := []
  slots := []
  mem := []
  out := []
  stage := Staging.idle
  latch := none
  offers := []
  physHints := []
  params := Config.defaultParams

/-- Why the machine stops with a fault. No step from a state that the block can be in raises one. -/
inductive Fault where
  /-- A read of a line-buffer row that holds no value (R30, U2): raised by EMIT's read. Safe: the spec
  says such a read faults. -/
  | rowAbsent
  /-- An access outside the `W * 342 * 64` bytes of the line buffer (R52): raised by SUBMIT's write and
  EMIT's read. Safe: no such byte exists. -/
  | lineBufferAddress
deriving DecidableEq, Repr

/-- Why a step has no meaning. -/
inductive Refusal where
  /-- An instruction with no meaning yet: raised by `exec` alone. Safe. -/
  | notModelled (mnemonic : String)
  /-- A BYTE in DATAGRAM mode or a DGRAM in BYTESTREAM mode has no step (R207, U5): raised by BYTE and
  DGRAM. Safe: the spec gives no step. -/
  | portNotReady
  /-- A RESET with a configuration word that is not well-formed (R25, R260, U1): raised by RESET and by
  the fetch. Safe: the spec gives no step. -/
  | malformedConfig
  /-- Bits before a unit that are no instruction: raised by the fetch. Safe. -/
  | undecodable (why : Reject)
deriving DecidableEq, Repr

/-- The outcome of a meaning. -/
abbrev Result := Host.Outcome State Fault Refusal

end Sys2Proof.Machine
end

