-- ==== Sys2Proof/Machine/Codec.lean ====
section
/-! DEFINITION. The line codec (41_codec.md): raw lines, RLE8 decoding and pixel expansion. The codec is
pure: it reads only its operands and writes no state. -/

namespace Sys2Proof.Machine

/-- What the codec makes of a payload (R131, R132). -/
inductive Decoded where
  | row (row64 : List Byte)
  | invalid (reason : InvalidReason)
deriving DecidableEq, Repr

/-- DECODE_RAW (R131): a payload of exactly 64 bytes is the row as it stands. -/
def decodeRaw (p : List Byte) : Decoded :=
  if p.length = Config.rowBytes then .row p else .invalid .rawLen

/-- One pair of DECODE_RLE (R132): a count of 0 fails (R134), a run past 64 bytes fails (R135), else the
run is appended to the staging row. -/
def codecPair (stage : List Byte) (count value : Byte) : Except InvalidReason (List Byte) :=
  if count = 0 then .error .rleZero
  else if Config.rowBytes < stage.length + count.toNat then .error .rleOver
  else .ok (stage ++ List.replicate count.toNat value)

/-- The pairs of DECODE_RLE in order, and the check at their end (R132, R136). -/
def decodePairs : List Byte → List Byte → Decoded
  | count :: value :: rest, stage =>
    match codecPair stage count value with
    | .ok stage' => decodePairs rest stage'
    | .error reason => .invalid reason
  | [_], _ => .invalid .rleOdd
  | [], stage => if stage.length = Config.rowBytes then .row stage else .invalid .rleShort

/-- DECODE_RLE (R132): the length's parity is checked before any pair (R133). -/
def decodeRle (p : List Byte) : Decoded :=
  if p.length % 2 = 1 then .invalid .rleOdd else decodePairs p []

/-- DECODE's choice by the RLE flag (R130). -/
def decodeLine (item : LineItem) : Decoded :=
  if item.rle then decodeRle item.payload else decodeRaw item.payload

/-- One pixel of EXPAND (R141). -/
def expandBit (polarity bit : Bool) : Byte := if bit ^^ polarity then Config.pixOn else Config.pixOff

/-- The eight pixels of a row byte, most significant bit first (R51, R141). -/
def expandByte (polarity : Bool) (b : Byte) : List Byte :=
  (List.range 8).map (fun i => expandBit polarity (b.getLsbD (7 - i)))

/-- EXPAND (R141): eight pixel bytes for each row byte, in order. -/
def expand (polarity : Bool) (row : List Byte) : List Byte := row.flatMap (expandByte polarity)

end Sys2Proof.Machine
end

