-- ==== Sys2Proof/Machine/Operands.lean ====
section
/-! DEFINITION. Operand assembly: little-endian fields of the wire formats (20_memory.md R50,
30_encoding.md R71 to R79) and the fields of the configuration word (10_state.md R22 to R25). -/

namespace Sys2Proof.Machine

/-- `u16le(lo, hi)` of R9: the first byte on the wire is the low byte (R50). -/
def u16le (lo hi : Byte) : U16 := lo.setWidth 16 ||| (hi.setWidth 16 <<< 8)

/-- Byte `i` of a byte string, `s[i]` of R10. Every use is within the string's length. -/
def byteAt (b : List Byte) (i : Nat) : Byte := b.getD i 0

/-- The field in bytes `i` and `i + 1` of a header. -/
def fieldAt (b : List Byte) (i : Nat) : U16 := u16le (byteAt b i) (byteAt b (i + 1))

/-- Bits 7:0 of a field, the byte sent first (R50). -/
def loByte (v : U16) : Byte := v.extractLsb' 0 8

/-- Bits 15:8 of a field, the byte sent second (R50). -/
def hiByte (v : U16) : Byte := v.extractLsb' 8 8

/-- The magic test on two consecutive bytes (R101). -/
def isMagic (b0 b1 : Byte) : Bool := b0 == Config.magic0 && b1 == Config.magic1

/-- A byte string that begins with the magic. -/
def startsMagic : List Byte → Bool
  | b0 :: b1 :: _ => isMagic b0 b1
  | _ => false

/-- `rle = len[15]` of a byte-stream header (R72). -/
def rleFlag (len : U16) : Bool := len.getLsbD 15

/-- `payload_len = len[14:0]` of a byte-stream header (R72). -/
def payloadLen (len : U16) : Nat := (len.extractLsb' 0 15).toNat

/-- `header_ok` of R72. -/
def headerOk (len : U16) : Bool := decide (1 ≤ payloadLen len) && decide (payloadLen len ≤ Config.maxPayload)

/-- The `len` field of a packet with RLE flag `rle` and a payload of `n` bytes (R72, R85). -/
def bsLen (rle : Bool) (n : Nat) : U16 := BitVec.ofNat 16 n ||| (if rle then 0x8000 else 0)

/-- The eight header bytes of F-BS in wire order (R71). -/
def bsHeader (fid : FrameId) (lid len : U16) : List Byte :=
  [Config.magic0, Config.magic1, loByte fid, hiByte fid, loByte lid, hiByte lid, loByte len, hiByte len]

/-- The ten header bytes of F-UDP in wire order (R74). -/
def udpHeader (fid : FrameId) (lid n : U16) : List Byte :=
  [Config.magic0, Config.magic1, Config.udpVersion, Config.udpFormatRle8,
    loByte fid, hiByte fid, loByte lid, hiByte lid, loByte n, hiByte n]

/-- Field `mode`, bit 0 (R22). -/
def cfgMode (c : CfgWord) : Mode := if c.getLsbD 0 then .datagram else .byteStream

/-- Field `stall_en`, bit 1 (R22). -/
def cfgStallEn (c : CfgWord) : Bool := c.getLsbD 1

/-- Field `pixel_out`, bit 2 (R22). -/
def cfgPixelOut (c : CfgWord) : Bool := c.getLsbD 2

/-- Field `polarity`, bit 3 (R22). -/
def cfgPolarity (c : CfgWord) : Bool := c.getLsbD 3

/-- Field `bs_window`, bits 7:4 (R22). -/
def cfgBsWindow (c : CfgWord) : Nat := (c.extractLsb' 4 4).toNat

/-- Field `stall_window`, bits 47:16 (R22). -/
def cfgStallWindow (c : CfgWord) : Time := c.extractLsb' 16 Config.timeBits

/-- A well-formed CFG_IN (R25): bits 15:8 and 63:48 are 0 and `bs_window` is at least 1. The third
condition of R25 holds for every 32-bit `stall_window`. -/
def cfgWellFormed (c : CfgWord) : Bool :=
  c.extractLsb' 8 8 == 0#8 && c.extractLsb' 48 16 == 0#16 && decide (1 ≤ cfgBsWindow c)

/-- The window size `W` (R24). -/
def windowSize (c : CfgWord) : Nat :=
  match cfgMode c with
  | .datagram => Config.udpWindow
  | .byteStream => cfgBsWindow c

/-- The configuration word with its mode bit set for `m` and every other bit kept (R22). -/
def cfgWithMode (m : Mode) (c : CfgWord) : CfgWord :=
  match m with
  | .byteStream => c &&& ~~~(1#64)
  | .datagram => c ||| 1#64

end Sys2Proof.Machine
end

