-- ==== Sys2Proof/Machine/Memory.lean ====
section
/-! DEFINITION. The line buffer (20_memory.md R52, R56): a canonical list of address and byte pairs. An
address that is not listed holds no value (R30), so no listed pair equals what an unlisted address reads
as, and canonical means that the addresses rise strictly. -/

namespace Sys2Proof.Machine

/-- The canonical form: addresses strictly rising. -/
abbrev Memory.wf (m : Memory) : Prop := m.Pairwise (fun c d => c.1 < d.1)

/-- One byte, or none where the line buffer holds no value (R30). -/
def Memory.read : Memory → Nat → Option Byte
  | [], _ => none
  | (k, v) :: m, a => if k = a then some v else Memory.read m a

/-- `n` bytes from `a` on, or none where one of them holds no value (R30). -/
def Memory.readBytes (m : Memory) (a : Nat) : Nat → Option (List Byte)
  | 0 => some []
  | n + 1 =>
    match m.read a, Memory.readBytes m (a + 1) n with
    | some v, some vs => some (v :: vs)
    | _, _ => none

/-- Write one byte, keeping the addresses rising. -/
def Memory.write : Memory → Nat → Byte → Memory
  | [], a, v => [(a, v)]
  | (k, x) :: m, a, v =>
    if a < k then (a, v) :: (k, x) :: m
    else if a = k then (a, v) :: m
    else (k, x) :: Memory.write m a v

/-- Write a byte sequence from `a` on. -/
def Memory.writeBytes (m : Memory) (a : Nat) : List Byte → Memory
  | [] => m
  | v :: vs => Memory.writeBytes (m.write a v) (a + 1) vs

/-- Make the addresses `lo ≤ a < hi` hold no value. -/
def Memory.erase (m : Memory) (lo hi : Nat) : Memory :=
  m.filter (fun c => decide (c.1 < lo) || decide (hi ≤ c.1))

/-- `addr(s, l, b)` of R52. -/
def lbAddr (s l b : Nat) : Nat := (s * Config.lines + l) * Config.rowBytes + b

/-- The size of the line buffer in bytes (R52). -/
def lbSize (c : CfgWord) : Nat := windowSize c * Config.lines * Config.rowBytes

/-- `MemRead(a, n)` (R11): the access must lie in the line buffer, and every byte must hold a value. -/
def memRead (s : State) (a n : Nat) : Except Fault (List Byte) :=
  if a + n ≤ lbSize s.cfg then
    match s.mem.readBytes a n with
    | some vs => .ok vs
    | none => .error .rowAbsent
  else .error .lineBufferAddress

/-- `MemWrite(a, |vs|, vs)` (R11): the access must lie in the line buffer. -/
def memWrite (s : State) (a : Nat) (vs : List Byte) : Except Fault State :=
  if a + vs.length ≤ lbSize s.cfg then .ok { s with mem := s.mem.writeBytes a vs }
  else .error .lineBufferAddress

/-- The line buffer with the rows of physical slot `p` free: they hold no value any more (R30, R167,
R168; log entry 7). -/
def Memory.freeRows (m : Memory) (p : Nat) : Memory := m.erase (lbAddr p 0 0) (lbAddr (p + 1) 0 0)

end Sys2Proof.Machine
end

