-- ==== Sys2Proof/Machine/Flags.lean ====
section
/-! DEFINITION. The flag-like values of the block (10_state.md R31) and the numbers of the event output
(60_exceptions.md R230, R231). The block has no condition codes. -/

namespace Sys2Proof.Machine

/-- `present[l]` (R27, R31). -/
def Slot.has (e : Slot) (l : Nat) : Bool := e.present.getLsbD l

/-- The present bits with bit `l` set (R165). No operation clears one (R31). -/
def presentWith (p : BitVec Config.lines) (l : Nat) : BitVec Config.lines := p ||| BitVec.twoPow Config.lines l

/-- The number of present bits, `popcount(present)` (R29). -/
def presentCount (p : BitVec Config.lines) : Nat := (List.range Config.lines).countP (fun l => p.getLsbD l)

/-- The RLE flag as the number counted into `rle_line_count` (R31, R161). -/
def rleCount (rle : Bool) : BitVec 9 := if rle then 1 else 0

/-- Completeness of a slot: `n_lines` has reached 342 (R31, R167). -/
def Slot.complete (e : Slot) : Bool := e.nLines.toNat == Config.lines

/-- `age` of a slot at time `now`, modulo 2^TIME_BITS (R170, R172). -/
def slotAge (now : Time) (e : Slot) : Time := now - e.tLast

/-- A slot is stale when its age is greater than the stall window, not when it is equal (R170, R171). -/
def Slot.stale (c : CfgWord) (now : Time) (e : Slot) : Bool := (cfgStallWindow c).ult (slotAge now e)

/-- The `reason` byte of LINE_INVALID (R231). -/
def InvalidReason.code : InvalidReason → Byte
  | .rawLen => 1
  | .rleOdd => 2
  | .rleZero => 3
  | .rleOver => 4
  | .rleShort => 5

/-- The code of a rejected datagram's event (R230). -/
def DgCause.code : DgCause → Byte
  | .long _ => 0x02
  | .short _ => 0x03
  | .magic _ _ => 0x04
  | .version _ => 0x05
  | .format _ => 0x06
  | .length _ _ => 0x07

/-- The code of an event (R230). -/
def Event.code : Event → Byte
  | .hdrCorrupt _ => 0x01
  | .dgDrop cause => DgCause.code cause
  | .lineInvalid _ _ _ => 0x10
  | .lineRange _ _ => 0x11
  | .lineDup _ _ => 0x12
  | .evictWindow _ _ => 0x20
  | .evictStall _ _ _ => 0x21

end Sys2Proof.Machine
end

