-- ==== Sys2Proof/Machine/Parse.lean ====
section
/-! DEFINITION. The two parsers as pure functions: the framer's magic scan and EXTRACT
(40_framer.md R100 to R107) and the UDP header parser PARSE_DGRAM (R112, R113). -/

namespace Sys2Proof.Machine

/-- The magic scan (R101, R102): discard everything before the first magic; with no magic, keep only a
final 0xEB. -/
def scan : List Byte → List Byte
  | [] => []
  | [b] => if b = Config.magic0 then [b] else []
  | b0 :: b1 :: rest => if isMagic b0 b1 then b0 :: b1 :: rest else scan (b1 :: rest)

/-- Steps 2 to 6 of EXTRACT on a buffer that the scan has brought to a magic (R103 to R107). -/
def headView (b : List Byte) : HeadView :=
  if b.length < Config.bsHdr then .needMore
  else
    let len := fieldAt b 6
    let n := payloadLen len
    let rest := b.drop Config.bsHdr
    if headerOk len then
      if rest.length < n then .needMore
      else .packet ⟨fieldAt b 2, fieldAt b 4, rleFlag len, rest.take n⟩
    else .corrupt (fieldAt b 2) (fieldAt b 4) len

/-- EXTRACT (R100): the outcome of one attempt and the buffer it leaves. A corrupt header costs exactly
its 2 magic bytes (R105), a packet exactly `8 + n` bytes (R107). -/
def extract (fbuf : List Byte) : ExtractResult × List Byte :=
  let b := scan fbuf
  match headView b with
  | .needMore => (.needMore, b)
  | .corrupt _ _ len => (.retry len, b.drop 2)
  | .packet item => (.packet item, b.drop (Config.bsHdr + item.n))

/-- Check 6 of R113: the size agrees with payload_len, exactly when UDP_LEN_EXACT and at least when not
(D8; the opcode table's UDP_RLE8 row). -/
def dgramSizeOk (exact : Bool) (size n : Nat) : Bool :=
  if exact then size == Config.udpHdr + n else decide (Config.udpHdr + n ≤ size)

/-- PARSE_DGRAM (R112): a line item, or the first failing check in the order of R113. -/
def parseDgram (exact : Bool) (d : List Byte) : Except DgCause LineItem :=
  let n := fieldAt d 8
  if Config.dgramCap < d.length then .error (.long d.length)
  else if d.length < Config.udpHdr then .error (.short d.length)
  else if !isMagic (byteAt d 0) (byteAt d 1) then .error (.magic (byteAt d 0) (byteAt d 1))
  else if byteAt d 2 ≠ Config.udpVersion then .error (.version (byteAt d 2))
  else if byteAt d 3 ≠ Config.udpFormatRle8 then .error (.format (byteAt d 3))
  else if dgramSizeOk exact d.length n.toNat then
    .ok ⟨fieldAt d 4, fieldAt d 6, true, (d.drop Config.udpHdr).take n.toNat⟩
  else .error (.length d.length n)

end Sys2Proof.Machine
end

