-- ==== Sys2Proof/Machine/Ops.lean ====
section
/-! DEFINITION. The named operations of the block over its state: outputs and `raise`
(00_scope.md R11), the frame assembler (42_assembler.md), the line path (43_transactions.md R201) and
the framer's drain loop (40_framer.md R108). The block has no traps: `State.raise` is all that an
exceptional condition does, and there is nothing to return from (60_exceptions.md R234, R235). -/

namespace Sys2Proof.Machine

/-- Run `f` on the next state of `r`. -/
def andThen (r : Result) (f : State → Result) : Result :=
  match r with
  | .next s => f s
  | .fault x => .fault x
  | .refused x => .refused x

/-- Append one record to the outputs (R11). -/
def State.emit (o : Output) (s : State) : State := { s with out := s.out ++ [o] }

/-- `raise DROP_<cause>(info)` and `emit Event` (R11, R230, R234): one event; no mode changes, nothing is
saved and no handler is entered. The caller abandons its item. -/
def State.raise (e : Event) (s : State) : State := s.emit (.event e)

/-- ST_FRAMES (R35). -/
def State.stFrames (s : State) : Nat := s.slots.length

/-- ST_FBUF (R35). -/
def State.stFbuf (s : State) : Nat := s.fbuf.length

/-- The slot of a frame_id, if one exists: ids are compared only for equality (R162). -/
def State.findSlot (s : State) (fid : FrameId) : Option Slot := s.slots.find? (fun e => e.fid == fid)

/-- Remove the oldest slot when one more would exceed the window, with EVICT_WINDOW; its rows are
discarded unread (R164). The slot about to be allocated is newer than all, so it is never the victim. -/
def State.evictOldest (s : State) : State :=
  if windowSize s.cfg < s.slots.length + 1 then
    match s.slots with
    | [] => s
    | victim :: rest =>
      { s with slots := rest, mem := s.mem.freeRows victim.phys }.raise
        (.evictWindow victim.fid (victim.nLines.setWidth 16))
  else s

/-- The free physical slots (R52, R163). -/
def State.freePhys (s : State) : List Nat :=
  (List.range (windowSize s.cfg)).filter (fun p => !(s.slots.map Slot.phys).contains p)

/-- The physical slot of the next allocation: the next value of `physHints` where that is a free slot,
else the lowest free one (R163 says that which is irrelevant; log entry 5). With no free slot, which
cannot happen, an index outside the line buffer. -/
def State.choosePhys (s : State) : Nat :=
  match s.physHints with
  | h :: _ => if s.freePhys.contains h then h else s.freePhys.headD (windowSize s.cfg)
  | [] => s.freePhys.headD (windowSize s.cfg)

/-- A new slot of ALLOC (R163). -/
def newSlot (fid : FrameId) (now : Time) (phys : Nat) : Slot :=
  { phys := phys, fid := fid, present := 0, nLines := 0, byteCount := 0, rleLineCount := 0, tLast := now }

/-- ALLOC (R163), the new slot newest, with the window eviction of R164. The victim's physical slot is
free again before the new slot takes one: the line buffer has only `W` (R52; log entry 6). -/
def State.alloc (s : State) (fid : FrameId) (now : Time) : Slot × State :=
  let t := s.evictOldest
  let e := newSlot fid now t.choosePhys
  (e, { t with slots := t.slots ++ [e], physHints := t.physHints.tail })

/-- The row of line `l` of physical slot `p`, `LB[p][l]` (R52). -/
def readRow (s : State) (p l : Nat) : Except Fault (List Byte) := memRead s (lbAddr p l 0) Config.rowBytes

/-- The form in which a row leaves the block (R142, R167). -/
def rowOut (c : CfgWord) (row : List Byte) : List Byte :=
  if cfgPixelOut c then expand (cfgPolarity c) row else row

/-- The rows of physical slot `p` for the given lines, in order, in the form of the frame output (R167). -/
def emitRows (s : State) (p : Nat) : List Nat → Except Fault (List Byte)
  | [] => .ok []
  | l :: ls =>
    match readRow s p l with
    | .error f => .error f
    | .ok row =>
      match emitRows s p ls with
      | .error f => .error f
      | .ok rows => .ok (rowOut s.cfg row ++ rows)

/-- EMIT (R167): the frame leaves with rows 0 to 341 in order, and its slot is removed. -/
def emitFrame (e : Slot) (s : State) : Result :=
  match emitRows s e.phys (List.range Config.lines) with
  | .error f => .fault f
  | .ok rows =>
    .next ({ s with slots := s.slots.filter (fun x => x.fid != e.fid), mem := s.mem.freeRows e.phys }.emit
      (.frame e.fid rows e.byteCount (e.rleLineCount.setWidth 16)))

/-- A slot with one more line inserted (R165). -/
def Slot.insert (e : Slot) (item : LineItem) (now : Time) : Slot :=
  { e with
    present := presentWith e.present item.lid.toNat
    nLines := e.nLines + 1
    byteCount := e.byteCount + BitVec.ofNat 16 item.n
    rleLineCount := e.rleLineCount + rleCount item.rle
    tLast := now }

/-- The slots with the slot of `e`'s frame_id replaced by `e`. -/
def replaceSlot (e : Slot) (slots : List Slot) : List Slot :=
  slots.map (fun x => if x.fid == e.fid then e else x)

/-- SUBMIT from the duplicate check on, for the slot `e` of the line's frame (R161, R165 to R167). -/
def insertLine (item : LineItem) (row : List Byte) (now : Time) (e : Slot) (s : State) : Result :=
  if e.has item.lid.toNat then .next (s.raise (.lineDup item.fid item.lid))
  else
    match memWrite s (lbAddr e.phys item.lid.toNat 0) row with
    | .error f => .fault f
    | .ok t =>
      let e' := e.insert item now
      let t' := { t with slots := replaceSlot e' t.slots }
      if e'.complete then emitFrame e' t' else .next t'

/-- SUBMIT (R161): the range check comes before everything (R160). -/
def submit (item : LineItem) (row : List Byte) (now : Time) (s : State) : Result :=
  if Config.lines ≤ item.lid.toNat then .next (s.raise (.lineRange item.fid item.lid))
  else
    match s.findSlot item.fid with
    | some e => insertLine item row now e s
    | none => insertLine item row now (s.alloc item.fid now).1 (s.alloc item.fid now).2

/-- LINE (R201): the codec before the assembler; an invalid line is dropped with its event (R130). -/
def lineStep (item : LineItem) (now : Time) (s : State) : Result :=
  match decodeLine item with
  | .invalid reason => .next (s.raise (.lineInvalid item.fid item.lid reason))
  | .row row => submit item row now s

/-- The EVICT_STALL event of a slot (R170). -/
def stallEvent (now : Time) (e : Slot) : Output :=
  .event (.evictStall e.fid (e.nLines.setWidth 16) (slotAge now e))

/-- SWEEP (R170): every stale slot is removed, oldest first, with one event each. -/
def sweep (now : Time) (s : State) : State :=
  if cfgStallEn s.cfg then
    let dead := s.slots.filter (Slot.stale s.cfg now)
    { s with
      slots := s.slots.filter (fun e => !e.stale s.cfg now)
      mem := dead.foldl (fun m e => m.freeRows e.phys) s.mem
      out := s.out ++ dead.map (stallEvent now) }
  else s

/-- The framer takes a packet: exactly its header and payload leave the buffer (R107), and the line goes
to the codec (R108, R201). -/
def takePacket (item : LineItem) (now : Time) (s : State) : Result :=
  lineStep item now { s with fbuf := s.fbuf.drop (Config.bsHdr + item.n) }

/-- The framer meets a corrupt header: exactly the 2 magic bytes leave the buffer (R105). -/
def dropMagic (len : U16) (s : State) : State :=
  { s with fbuf := s.fbuf.drop 2 }.raise (.hdrCorrupt len)

/-- DRAIN (R108) with at most `k` calls of EXTRACT. Each takes effect on the scanned buffer (R101). -/
def drain (now : Time) : Nat → State → Result
  | 0, s => .next s
  | k + 1, s =>
    let t := { s with fbuf := scan s.fbuf }
    match headView t.fbuf with
    | .needMore => .next t
    | .corrupt _ _ len => drain now k (dropMagic len t)
    | .packet item => andThen (takePacket item now t) (drain now k)

/-- The calls of EXTRACT that DRAIN can need on a buffer of `n` bytes (R108). -/
def drainCalls (n : Nat) : Nat := n / 2 + 1

/-- DRAIN (R108). -/
def drainAll (now : Time) (s : State) : Result := drain now (drainCalls s.fbuf.length) s

/-- A port transaction begins with nothing staged and nothing before a unit: staging values and held
items do not survive the transaction they belong to (R20, R54; log entry 8). -/
def State.beginTxn (s : State) : State := { s with stage := Staging.idle, latch := none }

/-- A transaction of time `now`: SWEEP first, or after the line with SWEEP_AFTER (R203, D14). -/
def withSweep (now : Time) (s : State) (body : State → Result) : Result :=
  if s.params.sweepAfter then andThen (body s.beginTxn) (fun t => .next (sweep now t))
  else body (sweep now s.beginTxn)

end Sys2Proof.Machine
end

