-- ==== Sys2Proof/Machine/Datagrams.lean ====
section
/-! DEFINITION. The meanings of the datagram classes: what follows PARSE_DGRAM (40_framer.md R112, R113,
43_transactions.md R202). A datagram never touches the framer buffer. -/

namespace Sys2Proof.Machine

/-- UDP_RLE8 (R112, R132, R201): the payload is always RLE8 (R75). -/
def execUdpRle8 (fid : FrameId) (lid : U16) (payload : List Byte) (now : Time) (s : State) : Result :=
  lineStep ⟨fid, lid, true, payload⟩ now s

/-- UDP_REJECT (R113, R230): one event, no other action. -/
def execUdpReject (_d : List Byte) (cause : DgCause) (s : State) : Result := .next (s.raise (.dgDrop cause))

end Sys2Proof.Machine
end

