-- ==== Sys2Proof/Machine/Packets.lean ====
section
/-! DEFINITION. The meanings of the byte-stream packet classes: one call of EXTRACT that finds the packet
at the head of the framer buffer, and the line path for the packet it takes (40_framer.md R105, R107,
R108). -/

namespace Sys2Proof.Machine

/-- BS_RAW (R107, R131, R201). -/
def execBsRaw (fid : FrameId) (lid : U16) (payload : List Byte) (now : Time) (s : State) : Result :=
  takePacket ⟨fid, lid, false, payload⟩ now s

/-- BS_RLE (R107, R132, R201). -/
def execBsRle (fid : FrameId) (lid : U16) (payload : List Byte) (now : Time) (s : State) : Result :=
  takePacket ⟨fid, lid, true, payload⟩ now s

/-- BS_CORRUPT (R105): frame_id and line_id are not examined (R104). -/
def execBsCorrupt (_fid : FrameId) (_lid len : U16) (s : State) : Result := .next (dropMagic len s)

end Sys2Proof.Machine
end

