-- ==== Sys2Proof/Machine/Pairs.lean ====
section
/-! DEFINITION. The meanings of the RLE8 pair classes on the staging row (41_codec.md R132 to R135, R138).
`decodePairs` makes the same step, `codecPair`, for each pair of a payload. -/

namespace Sys2Proof.Machine

/-- The staged line is dropped with LINE_INVALID and leaves nothing staged (R130, R138). -/
def dropStaged (reason : InvalidReason) (s : State) : State :=
  { s with stage := Staging.idle }.raise (.lineInvalid s.stage.fid s.stage.lid reason)

/-- One pair on the staging row (R132). -/
def stagePair (count value : Byte) (s : State) : State :=
  match codecPair s.stage.row count value with
  | .ok row => { s with stage := { s.stage with row := row } }
  | .error reason => dropStaged reason s

/-- RLE_PAIR (R132, R135). -/
def execRlePair (count value : Byte) (s : State) : Result := .next (stagePair count value s)

/-- RLE_PAIR_ZERO (R134): the value byte is never examined. -/
def execRlePairZero (_value : Byte) (s : State) : Result := .next (dropStaged .rleZero s)

end Sys2Proof.Machine
end

