-- ==== Sys2Proof/Machine/Transactions.lean ====
section
/-! DEFINITION. The meanings of the four port transactions, each atomic (43_transactions.md,
70_reset_and_hazards.md R260). -/

namespace Sys2Proof.Machine

/-- BYTE without its sweep: append the byte, then DRAIN (R200). -/
def byteBody (b : Byte) (now : Time) (s : State) : Result :=
  drainAll now { s with fbuf := s.fbuf ++ [b] }

/-- DGRAM without its sweep: PARSE_DGRAM, then LINE, or one event (R202, R113). -/
def dgramBody (d : List Byte) (now : Time) (s : State) : Result :=
  match parseDgram s.params.udpLenExact d with
  | .error cause => .next (s.raise (.dgDrop cause))
  | .ok item => lineStep item now s

/-- BYTE (R200): no step in DATAGRAM mode (R207). -/
def execByte (b : Byte) (now : Time) (s : State) : Result :=
  match cfgMode s.cfg with
  | .datagram => .refused .portNotReady
  | .byteStream => withSweep now s (byteBody b now)

/-- DGRAM (R202): no step in BYTESTREAM mode (R207). -/
def execDgram (d : List Byte) (now : Time) (s : State) : Result :=
  match cfgMode s.cfg with
  | .byteStream => .refused .portNotReady
  | .datagram => withSweep now s (dgramBody d now)

/-- TICK (R204): a sweep, in both modes. -/
def execTick (now : Time) (s : State) : Result := .next (sweep now s.beginTxn)

/-- RESET (R260): a malformed word has no step (R25); else `cfg` is latched, the framer buffer and every
in-flight frame are discarded, and nothing is emitted. -/
def execReset (cfgIn : CfgWord) (s : State) : Result :=
  if cfgWellFormed cfgIn then
    .next { s.beginTxn with cfg := cfgIn, fbuf := [], slots := [], mem := [] }
  else .refused .malformedConfig

end Sys2Proof.Machine
end

