-- ==== Sys2Proof/Machine/Dispatch.lean ====
section
/-! DEFINITION. One arm per instruction: a direct call of its meaning. -/

namespace Sys2Proof.Machine

def exec (i : Instr) (s : State) : Host.Outcome State Fault Refusal :=
  match i with
  | .bsRaw fid lid payload now => Sys2Proof.Machine.execBsRaw fid lid payload now s
  | .bsRle fid lid payload now => Sys2Proof.Machine.execBsRle fid lid payload now s
  | .bsCorrupt fid lid len => Sys2Proof.Machine.execBsCorrupt fid lid len s
  | .udpRle8 fid lid payload now => Sys2Proof.Machine.execUdpRle8 fid lid payload now s
  | .udpReject d cause => Sys2Proof.Machine.execUdpReject d cause s
  | .rlePair count value => Sys2Proof.Machine.execRlePair count value s
  | .rlePairZero value => Sys2Proof.Machine.execRlePairZero value s
  | .byte b now => Sys2Proof.Machine.execByte b now s
  | .dgram d now => Sys2Proof.Machine.execDgram d now s
  | .tick now => Sys2Proof.Machine.execTick now s
  | .reset cfgIn => Sys2Proof.Machine.execReset cfgIn s

end Sys2Proof.Machine
end

