-- ==== Sys2Proof/WellFormed.lean ====
section
/-! DEFINITION. Which instructions have an encoding: the constraints of the rows of
spec/opcode_table.json (30_encoding.md R72, R75, R80). `exact` is UDP_LEN_EXACT. -/

namespace Sys2Proof

/-- A byte-stream payload length that its header may carry (R72). -/
def payloadFits (p : List Byte) : Bool := decide (1 ≤ p.length) && decide (p.length ≤ Config.maxPayload)

/-- The constraint of the instruction's row in the opcode table. -/
def Instr.wf (exact : Bool) : Instr → Bool
  | .bsRaw _ _ payload _ => payloadFits payload
  | .bsRle _ _ payload _ => payloadFits payload
  | .bsCorrupt _ _ len => !Machine.headerOk len
  | .udpRle8 _ _ payload _ => decide (payload.length ≤ Config.maxPayload)
  | .udpReject d cause =>
    match Machine.parseDgram exact d with
    | .error c => c == cause
    | .ok _ => false
  | .rlePair count _ => count != 0
  | .rlePairZero _ => true
  | .byte _ _ => true
  | .dgram _ _ => true
  | .tick _ => true
  | .reset cfgIn => Machine.cfgWellFormed cfgIn

end Sys2Proof
end

