-- ==== Sys2Proof/Decode.lean ====
section
/-! DEFINITION. The decoder, total on the bits before every unit and rejecting by name; the encoder,
written from the same formats (30_encoding.md R71 to R81); and the opcode table's numbering of words
(R78). `exact` is UDP_LEN_EXACT (D8). -/

namespace Sys2Proof

/-- A transaction at a port (R81). A configuration word that is not well-formed matches no row (R25). -/
def decodePort : Offer → Except Reject Instr
  | .byte b now => .ok (.byte b now)
  | .dgram d now => .ok (.dgram d now)
  | .tick now => .ok (.tick now)
  | .reset c => if Machine.cfgWellFormed c then .ok (.reset c) else .error .malformedConfig

/-- The class of a packet by its RLE flag (R80). -/
def instrOfItem (item : LineItem) (now : Time) : Instr :=
  if item.rle then .bsRle item.fid item.lid item.payload now
  else .bsRaw item.fid item.lid item.payload now

/-- The class of what stands at the head of the framer buffer (R80). -/
def decodePacket (b : List Byte) (now : Time) : Except Reject Instr :=
  if Machine.startsMagic b then
    match Machine.headView b with
    | .needMore => .error .needMore
    | .corrupt fid lid len => .ok (.bsCorrupt fid lid len)
    | .packet item => .ok (instrOfItem item now)
  else .error .noMagic

/-- The class of a datagram (R80, R113). -/
def decodeDgram (exact : Bool) (d : List Byte) (now : Time) : Instr :=
  match Machine.parseDgram exact d with
  | .ok item => .udpRle8 item.fid item.lid item.payload now
  | .error c => .udpReject d c

/-- The class of an RLE8 pair: the count comes first (R76, R80). -/
def decodePair : List Byte → Except Reject Instr
  | count :: value :: _ => .ok (if count = 0 then .rlePairZero value else .rlePair count value)
  | _ => .error .shortPair

/-- The instruction that stands before a unit, or why there is none. -/
def decode (exact : Bool) : Fetch → Except Reject Instr
  | .port o => decodePort o
  | .framer b now => decodePacket b now
  | .parser d now => .ok (decodeDgram exact d now)
  | .codec bytes => decodePair bytes

/-- The bits of an instruction, before the unit that runs it (R71, R74, R76, R81; the pseudo-forms of
R85). A corrupt header and a rejected datagram carry no time of their own; they are encoded at time 0. -/
def encode : Instr → Fetch
  | .bsRaw fid lid payload now =>
    .framer (Machine.bsHeader fid lid (Machine.bsLen false payload.length) ++ payload) now
  | .bsRle fid lid payload now =>
    .framer (Machine.bsHeader fid lid (Machine.bsLen true payload.length) ++ payload) now
  | .bsCorrupt fid lid len => .framer (Machine.bsHeader fid lid len) 0
  | .udpRle8 fid lid payload now =>
    .parser (Machine.udpHeader fid lid (BitVec.ofNat 16 payload.length) ++ payload) now
  | .udpReject d _ => .parser d 0
  | .rlePair count value => .codec [count, value]
  | .rlePairZero value => .codec [0, value]
  | .byte b now => .port (.byte b now)
  | .dgram d now => .port (.dgram d now)
  | .tick now => .port (.tick now)
  | .reset c => .port (.reset c)

/-- The `k` bytes of a table word, the first on the wire in the high bits (R78). -/
def wordBytes : Nat → Nat → List Byte
  | 0, _ => []
  | k + 1, w => BitVec.ofNat 8 (w >>> (8 * k)) :: wordBytes k w

/-- The payload of zeros that a table word's header announces: as long as its length field says when a
header with that length is valid, else nothing (log entry 12). -/
def zeroPayload (b : List Byte) : List Byte :=
  let len := Machine.fieldAt b 6
  if Machine.headerOk len then List.replicate (Machine.payloadLen len) 0 else []

/-- The zeros that follow the header of a datagram: payload_len of them, at most one more than a payload
can have (log entry 12). -/
def zeroTail (d : List Byte) : List Byte :=
  List.replicate (min (Machine.fieldAt d 8).toNat (Config.maxPayload + 1)) 0

/-- The bits that a word `w` of `nbits` bits of spec/opcode_table.json stands for, laid out before the
unit that reads them, with every bit above `nbits` zero: time 0 and a payload of zeros (R78; log entry
12). A word of 64 bits is a byte-stream header when it begins with the magic and a configuration word
when it does not; a width that no other row has is a datagram of that many bits. -/
def tableFetch (nbits w : Nat) : Fetch :=
  if nbits = 8 then .port (.byte (BitVec.ofNat 8 w) 0)
  else if nbits = 16 then .codec (wordBytes 2 w)
  else if nbits = 32 then .port (.tick (BitVec.ofNat 32 w))
  else if nbits = 64 then
    let b := wordBytes Config.bsHdr w
    if Machine.startsMagic b then .framer (b ++ zeroPayload b) 0 else .port (.reset (BitVec.ofNat 64 w))
  else if nbits = 80 then
    let d := wordBytes Config.udpHdr w
    .parser (d ++ zeroTail d) 0
  else .port (.dgram (wordBytes (nbits / 8) w) 0)

/-- The instruction the decoder reads from a word of the opcode table, with UDP_LEN_EXACT at its
default; none where it refuses. -/
def decodeTableWord (nbits w : Nat) : Option Instr :=
  match decode Config.defaultParams.udpLenExact (tableFetch nbits w) with
  | .ok i => some i
  | .error _ => none

end Sys2Proof
end

