-- ==== Sys2Proof/Machine/Fetch.lean ====
section
/-! DEFINITION. What the block runs next, and where a word is placed to be run next (43_transactions.md
R208; log entries 3, 8 and 12). -/

namespace Sys2Proof.Machine

/-- The bits of the next instruction, if any, and the state with them taken from where they stood. Inside
a transaction the item before a unit comes first: a draining framer scans its buffer and, at NeedMore,
ends the drain (R108). Between transactions it is the next transaction the environment offers (R208);
with none offered the run is at its end (R268). -/
def fetch (s : State) : Option Fetch × State :=
  match s.latch with
  | some (.framer now) =>
    let b := scan s.fbuf
    match headView b with
    | .needMore => (none, { s with fbuf := b, latch := none })
    | _ => (some (.framer b now), { s with fbuf := b })
  | some (.parser d now) => (some (.parser d now), { s with latch := none })
  | some (.codec count value) => (some (.codec [count, value]), { s with latch := none })
  | none =>
    match s.offers with
    | [] => (none, s)
    | o :: rest => (some (.port o), { s with offers := rest })

/-- The refusal of bits that are no instruction. -/
def refusalOf : Reject → Refusal
  | .malformedConfig => .malformedConfig
  | r => .undecodable r

/-- The mode in which a port is ready (R207). -/
def modeForPort (o : Offer) (c : CfgWord) : CfgWord :=
  match o with
  | .byte _ _ => cfgWithMode .byteStream c
  | .dgram _ _ => cfgWithMode .datagram c
  | .tick _ => c
  | .reset _ => c

/-- The state with `f` standing where the next step fetches it, in the mode whose unit reads it (R83,
R207). -/
def placeFetch (f : Fetch) (s : State) : State :=
  match f with
  | .port o => { s with cfg := modeForPort o s.cfg, latch := none, offers := o :: s.offers }
  | .framer b now => { s with cfg := cfgWithMode .byteStream s.cfg, fbuf := b, latch := some (.framer now) }
  | .parser d now => { s with cfg := cfgWithMode .datagram s.cfg, latch := some (.parser d now) }
  | .codec (count :: value :: _) => { s with latch := some (.codec count value) }
  | .codec _ => s

end Sys2Proof.Machine
end

