-- ==== Sys2Proof/Machine/Step.lean ====
section
/-! DEFINITION. One step: fetch, decode, execute. -/

namespace Sys2Proof.Machine

/-- One step of the block. With nothing to fetch the state is what the fetch leaves: a drain that has
ended, or the block waiting for a transaction (R108, R268). -/
def step (s : State) : Host.Outcome State Fault Refusal :=
  match fetch s with
  | (none, t) => .next t
  | (some f, t) =>
    match decode t.params.udpLenExact f with
    | .ok i => exec i t
    | .error r => .refused (refusalOf r)

/-- The state with a word of the opcode table standing where the next step fetches (log entry 12). -/
def State.withFetchWord (s : State) (nbits w : Nat) : State := placeFetch (tableFetch nbits w) s

end Sys2Proof.Machine
end

