-- ==== Sys2Proof/Safety.lean ====
section
/-! DEFINITION. What counts as a sound state of the block (10_state.md R26 to R30), and the terms in
which the statements speak: which instructions carry a line, what a byte string holds, what a payload
stands for, and what of a state can be seen from outside. -/

namespace Sys2Proof.Machine

/-- The invariants of a stored slot (R29, 1 to 4). -/
structure SlotOk (e : Slot) : Prop where
  /-- R29.1. -/
  count : e.nLines.toNat = presentCount e.present
  /-- R29.2. -/
  nonempty : 1 ≤ e.nLines.toNat
  /-- R29.2. -/
  incomplete : e.nLines.toNat < Config.lines
  /-- R29.3. -/
  rle : e.rleLineCount.toNat ≤ e.nLines.toNat
  /-- R29.4. -/
  bytesLow : e.nLines.toNat ≤ e.byteCount.toNat
  /-- R29.4. -/
  bytesHigh : e.byteCount.toNat ≤ Config.maxPayload * e.nLines.toNat

/-- The physical slot that a line-buffer address lies in (R52). -/
def physOf (a : Nat) : Nat := a / (Config.lines * Config.rowBytes)

/-- The line that a line-buffer address lies in (R52). -/
def lineOf (a : Nat) : Nat := a / Config.rowBytes % Config.lines

/-- The invariants of the assembler: R25 for `cfg`, R28 and R29 for the slots, R30 and R52 for the line
buffer. -/
structure AssemblerInv (s : State) : Prop where
  cfg : cfgWellFormed s.cfg = true
  window : s.slots.length ≤ windowSize s.cfg
  fids : (s.slots.map Slot.fid).Nodup
  physes : (s.slots.map Slot.phys).Nodup
  physBound : ∀ e ∈ s.slots, e.phys < windowSize s.cfg
  slots : ∀ e ∈ s.slots, SlotOk e
  canonical : s.mem.wf
  /-- Every byte of a present row holds a value. -/
  held : ∀ e ∈ s.slots, ∀ l < Config.lines, e.has l = true →
    ∀ b < Config.rowBytes, (s.mem.read (lbAddr e.phys l b)).isSome = true
  /-- Every byte that holds a value is of a present row. -/
  only : ∀ c ∈ s.mem, ∃ e ∈ s.slots, e.phys = physOf c.1 ∧ e.has (lineOf c.1) = true

/-- The invariants of the framer between transactions: the buffer is one on which EXTRACT has answered
NeedMore (R106, R205), and it is empty in DATAGRAM mode (R26). -/
structure FramerInv (s : State) : Prop where
  drained : extract s.fbuf = (.needMore, s.fbuf)
  datagram : cfgMode s.cfg = .datagram → s.fbuf = []

/-- The invariants of the block between transactions: nothing staged and nothing held (R20). -/
structure BlockInv (s : State) : Prop where
  assembler : AssemblerInv s
  framer : FramerInv s
  stage : s.stage = Staging.idle
  latch : s.latch = none

/-- The fields that no line, sweep or drain touches. -/
structure SameFrame (s t : State) : Prop where
  cfg : t.cfg = s.cfg
  stage : t.stage = s.stage
  latch : t.latch = s.latch
  offers : t.offers = s.offers
  params : t.params = s.params

/-- The instructions that hand a line to the line path, and the line and time they hand it (R107, R112,
R201). -/
inductive CarriesLine : Instr → LineItem → Time → Prop where
  | bsRaw (fid : FrameId) (lid : U16) (p : List Byte) (now : Time) :
      CarriesLine (.bsRaw fid lid p now) ⟨fid, lid, false, p⟩ now
  | bsRle (fid : FrameId) (lid : U16) (p : List Byte) (now : Time) :
      CarriesLine (.bsRle fid lid p now) ⟨fid, lid, true, p⟩ now
  | udpRle8 (fid : FrameId) (lid : U16) (p : List Byte) (now : Time) :
      CarriesLine (.udpRle8 fid lid p now) ⟨fid, lid, true, p⟩ now

/-- The bytes an instruction takes from the head of the framer buffer (R105, R107). -/
def consumed : Instr → Nat
  | .bsRaw _ _ p _ => Config.bsHdr + p.length
  | .bsRle _ _ p _ => Config.bsHdr + p.length
  | .bsCorrupt _ _ _ => 2
  | _ => 0

/-- The framer buffer after an instruction has taken its bytes. -/
def fbufAfter (i : Instr) (s : State) : List Byte := s.fbuf.drop (consumed i)

/-- The port an instruction needs is ready, and its operand is one the block accepts (R207, R25). -/
def Enabled (i : Instr) (s : State) : Prop :=
  match i with
  | .byte _ _ => cfgMode s.cfg = .byteStream
  | .dgram _ _ => cfgMode s.cfg = .datagram
  | .reset c => cfgWellFormed c = true
  | .bsRaw _ _ _ _ => True
  | .bsRle _ _ _ _ => True
  | .bsCorrupt _ _ _ => True
  | .udpRle8 _ _ _ _ => True
  | .udpReject _ _ => True
  | .rlePair _ _ => True
  | .rlePairZero _ => True
  | .tick _ => True

/-- The four port transactions (R81). -/
def IsTransaction : Instr → Prop
  | .byte _ _ => True
  | .dgram _ _ => True
  | .tick _ => True
  | .reset _ => True
  | .bsRaw _ _ _ _ => False
  | .bsRle _ _ _ _ => False
  | .bsCorrupt _ _ _ => False
  | .udpRle8 _ _ _ _ => False
  | .udpReject _ _ => False
  | .rlePair _ _ => False
  | .rlePairZero _ => False

/-- The magic stands at position `i` of a byte string (R101). -/
def magicAt (b : List Byte) (i : Nat) : Prop :=
  b[i]? = some Config.magic0 ∧ b[i + 1]? = some Config.magic1

/-- The bytes of a packet that carries a line (R71, R72). -/
def packetBytes (item : LineItem) : List Byte :=
  bsHeader item.fid item.lid (bsLen item.rle item.n) ++ item.payload

/-- The bytes of a datagram that carries a line (R74). -/
def dgramBytes (fid : FrameId) (lid : U16) (p : List Byte) : List Byte :=
  udpHeader fid lid (BitVec.ofNat 16 p.length) ++ p

/-- The payload of a list of pairs (R76, the pseudo-form PAIRS of R85). -/
def pairBytes (ps : List (Byte × Byte)) : List Byte := ps.flatMap (fun p => [p.1, p.2])

/-- The bytes a list of pairs expands to (R76). -/
def pairExpansion (ps : List (Byte × Byte)) : List Byte :=
  ps.flatMap (fun p => List.replicate p.1.toNat p.2)

/-- The outcomes of EXTRACT before it answers NeedMore, with at most `k` calls, and the buffer left (R108,
R109). -/
def extractUpTo : Nat → List Byte → List ExtractResult × List Byte
  | 0, b => ([], b)
  | k + 1, b =>
    match extract b with
    | (.needMore, r) => ([], r)
    | (x, r) => (x :: (extractUpTo k r).1, (extractUpTo k r).2)

/-- The packets and corrupt headers of a byte string, in order, and the bytes left over (R109). -/
def extractAll (b : List Byte) : List ExtractResult × List Byte := extractUpTo (drainCalls b.length) b

/-- The line path for what EXTRACT found (R108). -/
def applyExtract (now : Time) (x : ExtractResult) (s : State) : Result :=
  match x with
  | .needMore => .next s
  | .retry len => .next (s.raise (.hdrCorrupt len))
  | .packet item => lineStep item now s

/-- The line path for a list of outcomes of EXTRACT, in order (R108). -/
def applyExtracts (now : Time) : List ExtractResult → State → Result
  | [], s => .next s
  | x :: xs, s => andThen (applyExtract now x s) (applyExtracts now xs)

/-- Run a list of instructions in order. -/
def execAll : List Instr → State → Result
  | [], s => .next s
  | i :: is, s => andThen (exec i s) (execAll is)

/-- Run the line path for a list of lines and their times, in order (R201). -/
def lineAll : List (LineItem × Time) → State → Result
  | [], s => .next s
  | x :: xs, s => andThen (lineStep x.1 x.2 s) (lineAll xs)

/-- A line that SUBMIT takes: its payload decodes and its line_id is in range (R130, R160). -/
def taken (item : LineItem) : Bool :=
  decide (item.lid.toNat < Config.lines) &&
    match decodeLine item with
    | .row _ => true
    | .invalid _ => false

/-- The first copy of line `l` of frame `fid` among lines: the first that SUBMIT takes for it (R166). -/
def firstCopy (fid : FrameId) (l : Nat) (ls : List (LineItem × Time)) : Option LineItem :=
  (ls.map Prod.fst).find? (fun item => item.fid == fid && item.lid.toNat == l && taken item)

/-- The frame_ids allocated by a run of lines while `fid` is in flight (R163, R173). -/
def allocatedBeside (fid : FrameId) : List (LineItem × Time) → State → List FrameId
  | [], _ => []
  | x :: xs, s =>
    let rest := match lineStep x.1 x.2 s with
      | .next t => allocatedBeside fid xs t
      | .fault _ => []
      | .refused _ => []
    if taken x.1 && (s.findSlot fid).isSome && (s.findSlot x.1.fid).isNone then x.1.fid :: rest else rest

/-- The class of a pair (R80). -/
def pairInstr (p : Byte × Byte) : Instr := if p.1 = 0 then .rlePairZero p.2 else .rlePair p.1 p.2

/-- The row of line `l` of a physical slot as the line buffer holds it; empty where it holds none. -/
def storedRow (s : State) (p l : Nat) : List Byte :=
  (s.mem.readBytes (lbAddr p l 0) Config.rowBytes).getD []

/-- Whether an address is one of the 64 bytes of line `l` of physical slot `p` (R52). -/
def inRow (p l a : Nat) : Prop := lbAddr p l 0 ≤ a ∧ a < lbAddr p l 0 + Config.rowBytes

/-- A frame record. -/
def Output.isFrame : Output → Bool
  | .frame _ _ _ _ => true
  | .event _ => false

/-- An EVICT_STALL record. -/
def Output.isStall : Output → Bool
  | .event (.evictStall _ _ _) => true
  | _ => false

/-- What a slot holds, without its physical place: its fields, and each line's row where it has one. -/
def slotView (s : State) (e : Slot) :
    FrameId × BitVec Config.lines × BitVec 9 × U16 × BitVec 9 × Time × List (Option (List Byte)) :=
  (e.fid, e.present, e.nLines, e.byteCount, e.rleLineCount, e.tLast,
    (List.range Config.lines).map (fun l =>
      if e.has l then s.mem.readBytes (lbAddr e.phys l 0) Config.rowBytes else none))

/-- Two states that differ at most in physical slot indices and in which free ones the next allocations
will take (R52, R163). -/
structure SameView (s t : State) : Prop where
  frame : SameFrame s t
  fbuf : t.fbuf = s.fbuf
  out : t.out = s.out
  slots : t.slots.map (slotView t) = s.slots.map (slotView s)

end Sys2Proof.Machine
end

