-- ==== Sys2Proof/Certificates/Slice0/Obligations.lean ====
section
/-! DEFINITION. The statements about the model, for the provers. -/

open Sys2Proof Sys2Proof.Machine

/-! ## Encoding -/

/-- Decoding the encoding of a well-formed instruction gives the instruction back, with every operand at
every value the formats admit (30_encoding.md R71 to R81, R85). -/
def Obligations.DecodeEncodeRoundTrip : Prop :=
  ∀ (exact : Bool) (i : Instr), i.wf exact = true → decode exact (encode i) = .ok i

/-- Words written out from the spec's encodings decode to the instructions they stand for: the example
header of R78 and words of every other row of the opcode table. The layout of a word by its width, the time 0
and the payload of zeros are the MODEL'S (log entry 12), and that a malformed configuration word decodes to
none is the MODEL'S form of U1's refusal (log entry 11). -/
def Obligations.SpecWordsDecode : Prop :=
  decodeTableWord 64 0xEBD1000005004000 = some (.bsRaw 0 5 (List.replicate 64 0) 0) ∧
  decodeTableWord 64 0xEBD1020104030280 = some (.bsRle 0x0102 0x0304 [0, 0] 0) ∧
  decodeTableWord 64 0xEBD1000006008100 = some (.bsCorrupt 0 6 0x0081) ∧
  decodeTableWord 80 0xEBD10101341255010200 = some (.udpRle8 0x1234 0x0155 [0, 0] 0) ∧
  decodeTableWord 80 0xEBD10201000000000000 =
    some (.udpReject [0xEB, 0xD1, 2, 1, 0, 0, 0, 0, 0, 0] (.version 2)) ∧
  decodeTableWord 16 0x40FF = some (.rlePair 0x40 0xFF) ∧
  decodeTableWord 16 0x0011 = some (.rlePairZero 0x11) ∧
  decodeTableWord 8 0xAA = some (.byte 0xAA 0) ∧
  decodeTableWord 96 0xEBD1010109000700020040FF =
    some (.dgram [0xEB, 0xD1, 1, 1, 9, 0, 7, 0, 2, 0, 0x40, 0xFF] 0) ∧
  decodeTableWord 32 2001 = some (.tick 2001) ∧
  decodeTableWord 64 0x0000000007D00013 = some (.reset 0x0000000007D00013) ∧
  decodeTableWord 64 0x0000000007D00000 = none

/-- The class and the fields of a byte-stream header follow from its bytes: little-endian fields (R50),
the RLE flag in bit 15 of `len`, the payload length in bits 14:0 (R72), the three classes (R80). -/
def Obligations.PacketClassFollowsLength : Prop :=
  ∀ (f0 f1 l0 l1 n0 n1 : Byte) (rest : List Byte) (now : Time),
    let fid := BitVec.ofNat 16 (f0.toNat + 256 * f1.toNat)
    let lid := BitVec.ofNat 16 (l0.toNat + 256 * l1.toNat)
    let len := n0.toNat + 256 * n1.toNat
    let n := len % 32768
    let b := Config.magic0 :: Config.magic1 :: f0 :: f1 :: l0 :: l1 :: n0 :: n1 :: rest
    (n = 0 ∨ 128 < n → decode true (.framer b now) = .ok (.bsCorrupt fid lid (BitVec.ofNat 16 len))) ∧
    (1 ≤ n → n ≤ 128 → rest.length < n → decode true (.framer b now) = .error .needMore) ∧
    (1 ≤ n → n ≤ 128 → n ≤ rest.length → len < 32768 →
      decode true (.framer b now) = .ok (.bsRaw fid lid (rest.take n) now)) ∧
    (1 ≤ n → n ≤ 128 → n ≤ rest.length → 32768 ≤ len →
      decode true (.framer b now) = .ok (.bsRle fid lid (rest.take n) now))

/-- PARSE_DGRAM makes its checks in the order of R113 and stops at the first that fails; a datagram that
passes all of them is a line with the little-endian fields of R74. `exact` is UDP_LEN_EXACT (D8); where it is
false the size check is the MODEL'S reading (log entry 21). -/
def Obligations.DatagramChecksInOrder : Prop :=
  ∀ (exact : Bool) (d : List Byte),
    (138 < d.length → parseDgram exact d = .error (.long d.length)) ∧
    (d.length < 10 → parseDgram exact d = .error (.short d.length)) ∧
    ∀ (m0 m1 ver fmt f0 f1 l0 l1 n0 n1 : Byte) (tail : List Byte),
      let n := n0.toNat + 256 * n1.toNat
      d = m0 :: m1 :: ver :: fmt :: f0 :: f1 :: l0 :: l1 :: n0 :: n1 :: tail → d.length ≤ 138 →
      (¬(m0 = 0xEB ∧ m1 = 0xD1) → parseDgram exact d = .error (.magic m0 m1)) ∧
      (m0 = 0xEB ∧ m1 = 0xD1 → ver ≠ 1 → parseDgram exact d = .error (.version ver)) ∧
      (m0 = 0xEB ∧ m1 = 0xD1 → ver = 1 → fmt ≠ 1 → parseDgram exact d = .error (.format fmt)) ∧
      (m0 = 0xEB ∧ m1 = 0xD1 → ver = 1 → fmt = 1 →
        (if exact then tail.length ≠ n else tail.length < n) →
        parseDgram exact d = .error (.length d.length (BitVec.ofNat 16 n))) ∧
      (m0 = 0xEB ∧ m1 = 0xD1 → ver = 1 → fmt = 1 →
        (if exact then tail.length = n else n ≤ tail.length) →
        parseDgram exact d = .ok ⟨BitVec.ofNat 16 (f0.toNat + 256 * f1.toNat),
          BitVec.ofNat 16 (l0.toNat + 256 * l1.toNat), true, tail.take n⟩)

/-! ## Framer -/

/-- A buffer with no magic keeps nothing but a final 0xEB, and EXTRACT answers NeedMore (R102). -/
def Obligations.NoMagicKeepsOnlyFinalByte : Prop :=
  ∀ b : List Byte, (∀ i, ¬magicAt b i) →
    extract b = (.needMore, if b.getLast? = some 0xEB then [0xEB] else [])

/-- The first magic is the one found, and everything before it is discarded, also when the answer is
NeedMore (R101). -/
def Obligations.FirstMagicIsTaken : Prop :=
  ∀ (b : List Byte) (i : Nat), magicAt b i → (∀ j < i, ¬magicAt b j) →
    scan b = b.drop i ∧ (headView (b.drop i) = .needMore → extract b = (.needMore, b.drop i))

/-- Garbage that does not hold the magic, then a valid packet: EXTRACT gives exactly that packet, consumes
exactly both and reports no corrupt header (R110). -/
def Obligations.GarbageThenPacket : Prop :=
  ∀ (g : List Byte) (item : LineItem) (rest : List Byte), (∀ i, ¬magicAt g i) → 1 ≤ item.n → item.n ≤ 128 →
    extract (g ++ packetBytes item ++ rest) = (.packet item, rest)

/-- A corrupt header costs exactly its 2 magic bytes, with either RLE flag: as EXTRACT's outcome, and as
the instruction BS_CORRUPT, which emits HDR_CORRUPT and changes nothing else (R105). -/
def Obligations.CorruptHeaderCostsTwoBytes : Prop :=
  ∀ (fid : FrameId) (lid len : U16), len.toNat % 32768 = 0 ∨ 128 < len.toNat % 32768 →
    (∀ rest, extract (bsHeader fid lid len ++ rest) = (.retry len, (bsHeader fid lid len).drop 2 ++ rest)) ∧
    ∀ s : State, exec (.bsCorrupt fid lid len) s =
      .next { s with fbuf := s.fbuf.drop 2, out := s.out ++ [.event (.hdrCorrupt len)] }

/-- A buffer on which EXTRACT answers NeedMore has at most 135 bytes and stays as it is (R106). -/
def Obligations.NeedMoreIsBoundedAndStable : Prop :=
  ∀ b r : List Byte, extract b = (.needMore, r) → r.length ≤ 135 ∧ extract r = (.needMore, r)

/-- Split invariance: the packets and corrupt headers of a byte string do not depend on where it is split
(R109). -/
def Obligations.SplitInvariance : Prop :=
  ∀ b c : List Byte,
    extractAll (b ++ c) =
      ((extractAll b).1 ++ (extractAll ((extractAll b).2 ++ c)).1, (extractAll ((extractAll b).2 ++ c)).2)

/-- DRAIN hands what EXTRACT finds to the line path in the order found, and ends on a buffer on which
EXTRACT answers NeedMore (R108). -/
def Obligations.DrainAppliesEveryOutcome : Prop :=
  ∀ (now : Time) (s : State),
    drainAll now s = applyExtracts now (extractAll s.fbuf).1 { s with fbuf := (extractAll s.fbuf).2 } ∧
    extract (extractAll s.fbuf).2 = (.needMore, (extractAll s.fbuf).2)

/-! ## Codec -/

/-- A payload decodes to a row exactly when it is a list of pairs with counts of at least 1 that sum to 64,
and the row is their expansion (R137). -/
def Obligations.RleRowIffPairsFill : Prop :=
  ∀ p row : List Byte, decodeRle p = .row row ↔
    ∃ ps : List (Byte × Byte), p = pairBytes ps ∧ (∀ q ∈ ps, 1 ≤ q.1.toNat) ∧
      (ps.map (fun q => q.1.toNat)).sum = 64 ∧ row = pairExpansion ps

/-- The reason of an invalid payload is its first failing check: odd length, then the first pair that is
zero or overflows, then a short row (R133 to R137). -/
def Obligations.RleReasonIsFirstFailure : Prop :=
  (∀ p : List Byte, p.length % 2 = 1 → decodeRle p = .invalid .rleOdd) ∧
  ∀ ps : List (Byte × Byte), (∀ q ∈ ps, 1 ≤ q.1.toNat) → (pairExpansion ps).length ≤ 64 →
    (∀ (v : Byte) (rest : List (Byte × Byte)),
      decodeRle (pairBytes (ps ++ (0, v) :: rest)) = .invalid .rleZero) ∧
    (∀ (c v : Byte) (rest : List (Byte × Byte)), 1 ≤ c.toNat → 64 < (pairExpansion ps).length + c.toNat →
      decodeRle (pairBytes (ps ++ (c, v) :: rest)) = .invalid .rleOver) ∧
    ((pairExpansion ps).length < 64 → decodeRle (pairBytes ps) = .invalid .rleShort)

/-- Round trip: whatever encoder maps rows to pairs with counts of at least 1 whose expansions are the row,
the decoder gives the row back (R139). -/
def Obligations.RleRoundTrip : Prop :=
  ∀ enc : List Byte → List (Byte × Byte),
    (∀ x, x.length = 64 → (∀ q ∈ enc x, 1 ≤ q.1.toNat) ∧ pairExpansion (enc x) = x) →
    ∀ x, x.length = 64 → decodeRle (pairBytes (enc x)) = .row x

/-- A raw payload is a row exactly when it has 64 bytes, and then as it stands (R131). -/
def Obligations.RawLineIsUsedAsIs : Prop :=
  ∀ p : List Byte, (p.length = 64 → decodeRaw p = .row p) ∧ (p.length ≠ 64 → decodeRaw p = .invalid .rawLen)

/-- EXPAND: 512 pixel bytes; pixel x is bit 7 - (x mod 8) of byte x div 8, and a bit that differs from the
polarity is 255, one that does not is 0 (R51, R141). -/
def Obligations.ExpandIsMsbFirst : Prop :=
  ∀ (polarity : Bool) (row : List Byte), row.length = 64 →
    (expand polarity row).length = 512 ∧
    ∀ x < 512, ∃ b, row[x / 8]? = some b ∧
      (expand polarity row)[x]? = some (if b.getLsbD (7 - x % 8) ≠ polarity then 255 else 0)

/-- Running the pairs of a payload one instruction at a time on an empty staging row leaves the row that
DECODE_RLE gives (R132, R138). -/
def Obligations.PairByPairDecoding : Prop :=
  ∀ (ps : List (Byte × Byte)) (row : List Byte) (s : State), s.stage.row = [] →
    decodeRle (pairBytes ps) = .row row →
    execAll (ps.map pairInstr) s = .next { s with stage := { s.stage with row := row } }

/-- RLE_PAIR appends its run to the staging row where it fits, and changes nothing else (R132). -/
def Obligations.PairAppendsItsRun : Prop :=
  ∀ (count value : Byte) (s : State), 1 ≤ count.toNat → s.stage.row.length + count.toNat ≤ 64 →
    exec (.rlePair count value) s =
      .next { s with stage := { s.stage with row := s.stage.row ++ List.replicate count.toNat value } }

/-- A pair that overflows the row, and a pair with count 0, make the staged line invalid: one event, and
nothing stays staged (R134, R135, R138). What the staged header reads while idle is the MODEL'S choice (log
entry 9). -/
def Obligations.BadPairDropsTheLine : Prop :=
  ∀ s : State,
    (∀ count value : Byte, 1 ≤ count.toNat → 64 < s.stage.row.length + count.toNat →
      exec (.rlePair count value) s =
        .next { s with stage := Staging.idle,
                       out := s.out ++ [.event (.lineInvalid s.stage.fid s.stage.lid .rleOver)] }) ∧
    ∀ value : Byte, exec (.rlePairZero value) s =
      .next { s with stage := Staging.idle,
                     out := s.out ++ [.event (.lineInvalid s.stage.fid s.stage.lid .rleZero)] }

/-! ## Lines: BS_RAW, BS_RLE and UDP_RLE8 -/

/-- A line whose payload does not decode is dropped with one LINE_INVALID, whatever its line_id; the packet
is consumed and nothing else changes (R130, R201). -/
def Obligations.InvalidLineIsDropped : Prop :=
  ∀ (i : Instr) (item : LineItem) (now : Time) (reason : InvalidReason) (s : State),
    CarriesLine i item now → decodeLine item = .invalid reason →
    exec i s = .next { s with fbuf := fbufAfter i s,
                              out := s.out ++ [.event (.lineInvalid item.fid item.lid reason)] }

/-- A decodable line with line_id of at least 342 is ignored: one LINE_RANGE, no slot allocated, evicted or
refreshed (R160). -/
def Obligations.OutOfRangeLineIsIgnored : Prop :=
  ∀ (i : Instr) (item : LineItem) (now : Time) (row : List Byte) (s : State),
    CarriesLine i item now → decodeLine item = .row row → 342 ≤ item.lid.toNat →
    exec i s = .next { s with fbuf := fbufAfter i s,
                              out := s.out ++ [.event (.lineRange item.fid item.lid)] }

/-- A line already present in its in-flight frame is dropped with LINE_DUP: the row, the counters and the
slot's time stay as they are (R166). -/
def Obligations.DuplicateLineChangesNothing : Prop :=
  ∀ (i : Instr) (item : LineItem) (now : Time) (row : List Byte) (e : Slot) (s : State),
    CarriesLine i item now → decodeLine item = .row row → item.lid.toNat < 342 →
    s.findSlot item.fid = some e → e.has item.lid.toNat = true →
    exec i s = .next { s with fbuf := fbufAfter i s,
                              out := s.out ++ [.event (.lineDup item.fid item.lid)] }

/-- A new line of a frame in flight that it does not complete is inserted: its present bit, its row in one
64-byte write, the counters and the time; every other slot, every other byte of the line buffer and every
other field stay as they are (R165). -/
def Obligations.NewLineIsInserted : Prop :=
  ∀ (i : Instr) (item : LineItem) (now : Time) (row : List Byte) (e : Slot) (s : State),
    AssemblerInv s → CarriesLine i item now → decodeLine item = .row row → item.lid.toNat < 342 →
    s.findSlot item.fid = some e → e.has item.lid.toNat = false → e.nLines.toNat ≠ 341 →
    ∃ (t : State) (e' : Slot), exec i s = .next t ∧ t.findSlot item.fid = some e' ∧
      e'.phys = e.phys ∧ e'.fid = e.fid ∧
      (∀ l < 342, e'.has l = (decide (l = item.lid.toNat) || e.has l)) ∧
      e'.nLines.toNat = e.nLines.toNat + 1 ∧ e'.byteCount.toNat = e.byteCount.toNat + item.n ∧
      e'.rleLineCount.toNat = e.rleLineCount.toNat + item.rle.toNat ∧ e'.tLast = now ∧
      t.slots = s.slots.map (fun x => if x.fid = item.fid then e' else x) ∧
      t.mem.readBytes (lbAddr e.phys item.lid.toNat 0) 64 = some row ∧
      (∀ a, ¬inRow e.phys item.lid.toNat a → t.mem.read a = s.mem.read a) ∧
      t.fbuf = fbufAfter i s ∧ t.out = s.out ∧ t.physHints = s.physHints ∧ SameFrame s t

/-- The first line of a new frame_id, with room in the window, allocates a slot that holds that line alone,
newest in the list, in a physical slot that no other has (R163). -/
def Obligations.FirstLineAllocates : Prop :=
  ∀ (i : Instr) (item : LineItem) (now : Time) (row : List Byte) (s : State),
    AssemblerInv s → CarriesLine i item now → decodeLine item = .row row → item.lid.toNat < 342 →
    s.findSlot item.fid = none → s.slots.length < windowSize s.cfg →
    ∃ (t : State) (e' : Slot), exec i s = .next t ∧ t.slots = s.slots ++ [e'] ∧
      e'.fid = item.fid ∧ (∀ l < 342, e'.has l = decide (l = item.lid.toNat)) ∧ e'.nLines = 1 ∧
      e'.byteCount.toNat = item.n ∧ e'.rleLineCount.toNat = item.rle.toNat ∧ e'.tLast = now ∧
      e'.phys < windowSize s.cfg ∧ (∀ x ∈ s.slots, x.phys ≠ e'.phys) ∧
      t.mem.readBytes (lbAddr e'.phys item.lid.toNat 0) 64 = some row ∧
      (∀ a, ¬inRow e'.phys item.lid.toNat a → t.mem.read a = s.mem.read a) ∧
      t.fbuf = fbufAfter i s ∧ t.out = s.out ∧ t.physHints = s.physHints.tail ∧ SameFrame s t

/-- The first line of a new frame_id, with the window full, evicts the oldest slot by allocation order
whatever it holds, and only that one: its rows are gone, the others keep their order and their rows, and
the new slot follows them (R164, R174). That the new slot takes the freed physical slot, and that a removed
slot's rows hold no value, are the MODEL'S readings (log entries 6 and 7). -/
def Obligations.FullWindowEvictsOldest : Prop :=
  ∀ (i : Instr) (item : LineItem) (now : Time) (row : List Byte) (victim : Slot) (rest : List Slot) (s : State),
    AssemblerInv s → CarriesLine i item now → decodeLine item = .row row → item.lid.toNat < 342 →
    s.findSlot item.fid = none → s.slots.length = windowSize s.cfg → s.slots = victim :: rest →
    ∃ (t : State) (e' : Slot), exec i s = .next t ∧ t.slots = rest ++ [e'] ∧
      e'.fid = item.fid ∧ (∀ l < 342, e'.has l = decide (l = item.lid.toNat)) ∧ e'.nLines = 1 ∧
      e'.byteCount.toNat = item.n ∧ e'.rleLineCount.toNat = item.rle.toNat ∧ e'.tLast = now ∧
      e'.phys = victim.phys ∧
      t.out = s.out ++ [.event (.evictWindow victim.fid (victim.nLines.setWidth 16))] ∧
      t.mem.readBytes (lbAddr e'.phys item.lid.toNat 0) 64 = some row ∧
      (∀ a, physOf a ≠ victim.phys → t.mem.read a = s.mem.read a) ∧
      (∀ a, physOf a = victim.phys → ¬inRow e'.phys item.lid.toNat a → t.mem.read a = none) ∧
      t.fbuf = fbufAfter i s ∧ t.physHints = s.physHints.tail ∧ SameFrame s t

/-- The line that completes a frame emits it: rows 0 to 341 in order, the new row in its place, in the form
`pixel_out` selects, with the counters; the slot is gone (R167), and its rows hold no value, which is the
MODEL'S reading (log entry 7). -/
def Obligations.LastLineEmitsTheFrame : Prop :=
  ∀ (i : Instr) (item : LineItem) (now : Time) (row : List Byte) (e : Slot) (s : State),
    AssemblerInv s → CarriesLine i item now → decodeLine item = .row row → item.lid.toNat < 342 →
    s.findSlot item.fid = some e → e.has item.lid.toNat = false → e.nLines.toNat = 341 →
    ∃ t : State, exec i s = .next t ∧
      t.out = s.out ++ [.frame item.fid
        ((List.range 342).flatMap (fun l =>
          let r := if l = item.lid.toNat then row else storedRow s e.phys l
          if cfgPixelOut s.cfg then expand (cfgPolarity s.cfg) r else r))
        (e.byteCount + BitVec.ofNat 16 item.n)
        (BitVec.ofNat 16 (e.rleLineCount.toNat + item.rle.toNat))] ∧
      t.slots = s.slots.filter (fun x => x.fid ≠ item.fid) ∧ t.findSlot item.fid = none ∧
      (∀ a, physOf a = e.phys → t.mem.read a = none) ∧
      (∀ a, physOf a ≠ e.phys → t.mem.read a = s.mem.read a) ∧
      t.fbuf = fbufAfter i s ∧ t.physHints = s.physHints ∧ SameFrame s t

/-- Every frame record that an instruction puts out has all 342 rows in one of the two sizes of R33:
nothing partial leaves the block (R33, R168). -/
def Obligations.FrameRecordsAreWhole : Prop :=
  ∀ (i : Instr) (s t : State), AssemblerInv s → exec i s = .next t →
    ∃ new : List Output, t.out = s.out ++ new ∧
      ∀ (fid : FrameId) (rows : List Byte) (bc rc : U16), Output.frame fid rows bc rc ∈ new →
        rows.length = if cfgPixelOut s.cfg then 175104 else 21888

/-- A row once stored is never written again while its slot is in flight: after a line, each slot that was
in flight and still is has its physical place, all its present bits and all its rows (R29, R31, R166). -/
def Obligations.StoredRowsAreKept : Prop :=
  ∀ (i : Instr) (item : LineItem) (now : Time) (s t : State) (e e' : Slot),
    AssemblerInv s → CarriesLine i item now → exec i s = .next t →
    e ∈ s.slots → e' ∈ t.slots → e'.fid = e.fid →
    e'.phys = e.phys ∧ ∀ l < 342, e.has l = true →
      e'.has l = true ∧ storedRow t e'.phys l = storedRow s e.phys l

/-- Permutation invariance for the lines of one frame alone: all 342 lines of a frame, in any order, with
duplicates that agree with their first copy in row, size and RLE flag, the last distinct line last, give
exactly one frame, on that line, with the rows in order and the counters of the distinct lines, and leave the
other slots as they were (a part of R173; `FrameAmongOthersIsEmittedOnce` has lines of other frames between
them, any duplicates, and lines that follow). -/
def Obligations.PermutationInvariance : Prop :=
  ∀ (s : State) (fid : FrameId) (ls : List (LineItem × Time)) (last : LineItem × Time)
    (row : Nat → List Byte) (size : Nat → Nat) (rle : Nat → Bool),
    AssemblerInv s → s.findSlot fid = none → s.slots.length < windowSize s.cfg →
    (∀ x ∈ ls ++ [last], x.1.fid = fid ∧ x.1.lid.toNat < 342 ∧
      decodeLine x.1 = .row (row x.1.lid.toNat) ∧ x.1.n = size x.1.lid.toNat ∧ x.1.rle = rle x.1.lid.toNat) →
    (∀ l < 342, ∃ x ∈ ls ++ [last], x.1.lid.toNat = l) →
    (∀ x ∈ ls, x.1.lid ≠ last.1.lid) →
    ∃ (t : State) (dups : List Output), lineAll (ls ++ [last]) s = .next t ∧
      t.slots = s.slots ∧ (∀ o ∈ dups, o.isFrame = false) ∧
      t.out = s.out ++ dups ++ [.frame fid
        ((List.range 342).flatMap (fun l => rowOut s.cfg (row l)))
        (BitVec.ofNat 16 ((List.range 342).map size).sum)
        (BitVec.ofNat 16 ((List.range 342).countP rle))]

/-- Permutation invariance among other frames: lines of any frames, valid or not, in any order, of which those
of `fid` cover all 342 line_ids for the first time with `last`. While `fid` is in flight, fewer than `W` other
frame_ids are allocated. Then exactly one frame of `fid` leaves, on `last`, with the row and the size of the first
copy of each line, whatever its later copies carry; and lines that follow give no other frame of `fid` as long as
they do not cover all 342 again (R173, R166). -/
def Obligations.FrameAmongOthersIsEmittedOnce : Prop :=
  ∀ (s : State) (fid : FrameId) (pre post : List (LineItem × Time)) (last : LineItem × Time)
    (others : List FrameId) (first : Nat → LineItem) (row : Nat → List Byte),
    AssemblerInv s → s.findSlot fid = none → last.1.fid = fid → last.1.lid.toNat < 342 →
    (∀ l < 342, firstCopy fid l (pre ++ [last]) = some (first l) ∧ decodeLine (first l) = .row (row l)) →
    firstCopy fid last.1.lid.toNat pre = none →
    others.length < windowSize s.cfg → (∀ g ∈ allocatedBeside fid pre s, g ∈ others) →
    (∃ l < 342, firstCopy fid l post = none) →
    ∃ (u t : State) (before after : List Output),
      lineAll (pre ++ [last]) s = .next u ∧ u.findSlot fid = none ∧
      u.out = s.out ++ before ++ [.frame fid
        ((List.range 342).flatMap (fun l => rowOut s.cfg (row l)))
        (BitVec.ofNat 16 ((List.range 342).map (fun l => (first l).n)).sum)
        (BitVec.ofNat 16 ((List.range 342).countP (fun l => (first l).rle)))] ∧
      lineAll post u = .next t ∧ t.out = u.out ++ after ∧
      ∀ (rows : List Byte) (bc rc : U16), Output.frame fid rows bc rc ∉ before ++ after

/-! ## Staleness -/

/-- TICK is SWEEP, in both modes. With stall eviction off nothing but the staging changes; with it on every
slot whose age is above the stall window is removed with its rows, oldest first, with one EVICT_STALL each,
and every other slot and byte stays (R170, R204). That a removed slot's rows hold no value, and what the
staging reads while idle, are the MODEL'S (log entries 7 and 9). -/
def Obligations.TickSweepsStaleSlots : Prop :=
  ∀ (now : Time) (s : State),
    let stale := fun e : Slot => decide ((cfgStallWindow s.cfg).toNat < (now - e.tLast).toNat)
    (cfgStallEn s.cfg = false →
      exec (.tick now) s = .next { s with stage := Staging.idle, latch := none }) ∧
    (cfgStallEn s.cfg = true →
      ∃ t, exec (.tick now) s = .next t ∧ t.slots = s.slots.filter (fun e => !stale e) ∧
        t.out = s.out ++ (s.slots.filter stale).map (fun e =>
          .event (.evictStall e.fid (e.nLines.setWidth 16) (now - e.tLast))) ∧
        (∀ a, (∃ e ∈ s.slots, stale e = true ∧ physOf a = e.phys) → t.mem.read a = none) ∧
        (∀ a, (∀ e ∈ s.slots, stale e = true → physOf a ≠ e.phys) → t.mem.read a = s.mem.read a) ∧
        t.fbuf = s.fbuf ∧ t.cfg = s.cfg ∧ t.stage = Staging.idle ∧ t.latch = none ∧ t.offers = s.offers ∧
        t.physHints = s.physHints ∧ t.params = s.params)

/-- The boundary is strict: a slot whose age equals the stall window stays, one whose age is greater goes;
with a stall window of 0 a slot goes at the first later time (R171). -/
def Obligations.StalenessIsStrict : Prop :=
  ∀ (now : Time) (s : State) (e : Slot), cfgStallEn s.cfg = true → e ∈ s.slots →
    ((now - e.tLast).toNat = (cfgStallWindow s.cfg).toNat → e ∈ (sweep now s).slots) ∧
    ((cfgStallWindow s.cfg).toNat < (now - e.tLast).toNat → e ∉ (sweep now s).slots) ∧
    (cfgStallWindow s.cfg = 0 → now ≠ e.tLast → e ∉ (sweep now s).slots)

/-- The age of a slot is the true elapsed time exactly while that is below 2^32 (R172). -/
def Obligations.AgeIsElapsedTime : Prop :=
  ∀ (t0 t1 : Nat) (e : Slot), t0 ≤ t1 → e.tLast = BitVec.ofNat 32 t0 →
    (slotAge (BitVec.ofNat 32 t1) e).toNat = (t1 - t0) % 2 ^ 32 ∧
    ((slotAge (BitVec.ofNat 32 t1) e).toNat = t1 - t0 ↔ t1 - t0 < 2 ^ 32)

/-! ## Transactions -/

/-- BYTE on a buffer that the byte does not complete: a sweep, and the buffer that EXTRACT leaves (R200,
R203). The idle staging is the MODEL'S (log entries 8 and 9), and so is the sweep of a BYTE without a line where
SWEEP_AFTER is true (log entry 22). -/
def Obligations.ByteThatCompletesNothing : Prop :=
  ∀ (b : Byte) (now : Time) (r : List Byte) (s : State), cfgMode s.cfg = .byteStream →
    extract (s.fbuf ++ [b]) = (.needMore, r) →
    exec (.byte b now) s =
      .next { sweep now { s with stage := Staging.idle, latch := none } with fbuf := r }

/-- BYTE that completes a packet: the sweep, then what the packet's class does on the buffer with the byte
appended, or the two the other way round with SWEEP_AFTER (R200, R203, R205, D14; the place of that sweep is the
MODEL'S reading, log entry 22). -/
def Obligations.ByteThatCompletesAPacket : Prop :=
  ∀ (b : Byte) (now : Time) (item : LineItem) (s : State), cfgMode s.cfg = .byteStream →
    1 ≤ item.n → item.n ≤ 128 → s.fbuf ++ [b] = packetBytes item →
    let u := { s with stage := Staging.idle, latch := none }
    (s.params.sweepAfter = false →
      exec (.byte b now) s =
        exec (instrOfItem item now) { sweep now u with fbuf := s.fbuf ++ [b] }) ∧
    (s.params.sweepAfter = true →
      exec (.byte b now) s =
        andThen (exec (instrOfItem item now) { u with fbuf := s.fbuf ++ [b] }) (fun t => .next (sweep now t)))

/-- BYTE that makes the eighth byte of a header whose length is 0 or above 128: the sweep, HDR_CORRUPT with the
`len`, and the scan of the six bytes that remain, with the sweep last under SWEEP_AFTER (R105, R200, R203, R205,
D14). The idle staging is the MODEL'S (log entries 8 and 9), and so is that last sweep (log entry 22). -/
def Obligations.ByteThatMakesACorruptHeader : Prop :=
  ∀ (b : Byte) (now : Time) (fid : FrameId) (lid len : U16) (s : State), cfgMode s.cfg = .byteStream →
    len.toNat % 32768 = 0 ∨ 128 < len.toNat % 32768 → s.fbuf ++ [b] = bsHeader fid lid len →
    let u := { s with stage := Staging.idle, latch := none }
    let six := scan [loByte fid, hiByte fid, loByte lid, hiByte lid, loByte len, hiByte len]
    (s.params.sweepAfter = false →
      exec (.byte b now) s =
        .next { sweep now u with fbuf := six, out := (sweep now u).out ++ [.event (.hdrCorrupt len)] }) ∧
    (s.params.sweepAfter = true →
      exec (.byte b now) s = .next (sweep now { u with fbuf := six, out := s.out ++ [.event (.hdrCorrupt len)] }))

/-- BYTE completes from every sound state in BYTESTREAM mode: it leaves a drained buffer of at most 135
bytes, the one that EXTRACT leaves when it has found all it can (R106, R108, R200). -/
def Obligations.ByteLeavesADrainedBuffer : Prop :=
  ∀ (b : Byte) (now : Time) (s : State), BlockInv s → cfgMode s.cfg = .byteStream →
    ∃ t, exec (.byte b now) s = .next t ∧ t.fbuf = (extractAll (s.fbuf ++ [b])).2 ∧
      t.fbuf.length ≤ 135 ∧ (extractAll (s.fbuf ++ [b])).1.length ≤ 1

/-- DGRAM is its sweep and what the datagram's class does, or the two the other way round with SWEEP_AFTER
(R202, R203, D14; the place of that sweep is the MODEL'S reading, log entry 22). -/
def Obligations.DgramRunsItsClass : Prop :=
  ∀ (d : List Byte) (now : Time) (s : State), cfgMode s.cfg = .datagram →
    let u := { s with stage := Staging.idle, latch := none }
    let i := decodeDgram s.params.udpLenExact d now
    (s.params.sweepAfter = false → exec (.dgram d now) s = exec i (sweep now u)) ∧
    (s.params.sweepAfter = true →
      exec (.dgram d now) s = andThen (exec i u) (fun t => .next (sweep now t)))

/-- An accepted datagram whose line is new inserts that line into the swept state, in its slot's place and
beside the lines the slot has, and never touches the framer buffer (R202, R165). The idle staging is the MODEL'S
(log entries 8 and 9). -/
def Obligations.AcceptedDatagramInserts : Prop :=
  ∀ (d : List Byte) (now : Time) (item : LineItem) (row : List Byte) (e : Slot) (s : State),
    AssemblerInv s → cfgMode s.cfg = .datagram → s.params.sweepAfter = false →
    parseDgram s.params.udpLenExact d = .ok item → decodeLine item = .row row → item.lid.toNat < 342 →
    (sweep now s).findSlot item.fid = some e → e.has item.lid.toNat = false → e.nLines.toNat ≠ 341 →
    ∃ (t : State) (e' : Slot), exec (.dgram d now) s = .next t ∧
      t.slots = (sweep now s).slots.map (fun x => if x.fid = item.fid then e' else x) ∧
      e'.phys = e.phys ∧ e'.fid = e.fid ∧
      (∀ l < 342, e'.has l = (decide (l = item.lid.toNat) || e.has l)) ∧
      e'.nLines.toNat = e.nLines.toNat + 1 ∧ e'.byteCount.toNat = e.byteCount.toNat + item.n ∧
      e'.rleLineCount.toNat = e.rleLineCount.toNat + 1 ∧ e'.tLast = now ∧
      t.mem.readBytes (lbAddr e.phys item.lid.toNat 0) 64 = some row ∧
      (∀ a, ¬inRow e.phys item.lid.toNat a → t.mem.read a = (sweep now s).mem.read a) ∧
      t.out = (sweep now s).out ∧ t.fbuf = s.fbuf ∧ t.cfg = s.cfg ∧ t.stage = Staging.idle ∧
      t.latch = none ∧ t.offers = s.offers ∧ t.params = s.params ∧ t.physHints = s.physHints

/-- A rejected datagram gives one event and no other action (R113, R230). -/
def Obligations.RejectedDatagramGivesOneEvent : Prop :=
  ∀ (d : List Byte) (cause : DgCause) (s : State),
    exec (.udpReject d cause) s = .next { s with out := s.out ++ [.event (.dgDrop cause)] }

/-- A transaction on the port of the other mode has no step (R207), which the model writes as the refusal
portNotReady: the MODEL'S choice of log entry 10. A BYTE or a DGRAM on the port of its own mode is never refused
(R200, R202). -/
def Obligations.MismatchedPortHasNoStep : Prop :=
  ∀ (s : State) (b : Byte) (d : List Byte) (now : Time),
    (cfgMode s.cfg = .datagram → exec (.byte b now) s = .refused .portNotReady) ∧
    (cfgMode s.cfg = .byteStream → exec (.dgram d now) s = .refused .portNotReady) ∧
    (cfgMode s.cfg = .byteStream → ∀ r, exec (.byte b now) s ≠ .refused r) ∧
    (cfgMode s.cfg = .datagram → ∀ r, exec (.dgram d now) s ≠ .refused r)

/-- RESET latches a well-formed word, empties the framer buffer and the slots and emits nothing; a word with
a reserved bit set or a `bs_window` of 0 has no step (R25, R260). -/
def Obligations.ResetLatchesAndEmpties : Prop :=
  ∀ (c : CfgWord) (s : State),
    (c.toNat / 2 ^ 8 % 2 ^ 8 = 0 ∧ c.toNat / 2 ^ 48 = 0 ∧ 1 ≤ c.toNat / 2 ^ 4 % 2 ^ 4 →
      ∃ t, exec (.reset c) s = .next t ∧ t.cfg = c ∧ t.fbuf = [] ∧ t.slots = [] ∧ t.out = s.out) ∧
    (¬(c.toNat / 2 ^ 8 % 2 ^ 8 = 0 ∧ c.toNat / 2 ^ 48 = 0 ∧ 1 ≤ c.toNat / 2 ^ 4 % 2 ^ 4) →
      exec (.reset c) s = .refused .malformedConfig)

/-- After a RESET every piece of state has the value of R36: the word presented, an empty buffer, no slot, no
output, both status outputs 0. That no byte of the line buffer holds a value then (log entry 7), that nothing is
staged or held (log entries 8 and 9), and that the model's own fields stay (log entries 2, 3 and 5) are the
MODEL'S readings. -/
def Obligations.ResetValues : Prop :=
  ∀ (c : CfgWord) (s : State), cfgWellFormed c = true →
    exec (.reset c) s =
      .next { s with cfg := c, fbuf := [], slots := [], mem := [], stage := Staging.idle, latch := none } ∧
    ∀ t, exec (.reset c) s = .next t → (∀ a, t.mem.read a = none) ∧ t.stFrames = 0 ∧ t.stFbuf = 0

/-- `State.reset` is what RESET leaves for the configuration word of log entry 1, which is the MODEL'S
CHOICE: the spec says the integrator must choose the mode (R22). -/
def Obligations.ResetStateIsAReset : Prop :=
  exec (.reset 0x0000000007D00010) State.reset = .next State.reset ∧
  State.reset.cfg = 0x0000000007D00010 ∧ cfgMode State.reset.cfg = .byteStream ∧ State.reset.out = []

/-- The window size (R24). -/
def Obligations.WindowSizeByMode : Prop :=
  ∀ c : CfgWord,
    (c.toNat % 2 = 1 → cfgMode c = .datagram ∧ windowSize c = 4) ∧
    (c.toNat % 2 = 0 → cfgMode c = .byteStream ∧ windowSize c = c.toNat / 2 ^ 4 % 2 ^ 4)

/-- The codes of the events and the reasons of LINE_INVALID (R230, R231). -/
def Obligations.EventCodes : Prop :=
  ∀ (a b : U16) (x y : Byte) (n : Nat) (t : Time),
    (Event.hdrCorrupt a).code = 0x01 ∧ (Event.dgDrop (.long n)).code = 0x02 ∧
    (Event.dgDrop (.short n)).code = 0x03 ∧ (Event.dgDrop (.magic x y)).code = 0x04 ∧
    (Event.dgDrop (.version x)).code = 0x05 ∧ (Event.dgDrop (.format x)).code = 0x06 ∧
    (Event.dgDrop (.length n a)).code = 0x07 ∧ (∀ r, (Event.lineInvalid a b r).code = 0x10) ∧
    (Event.lineRange a b).code = 0x11 ∧ (Event.lineDup a b).code = 0x12 ∧
    (Event.evictWindow a b).code = 0x20 ∧ (Event.evictStall a b t).code = 0x21 ∧
    InvalidReason.rawLen.code = 1 ∧ InvalidReason.rleOdd.code = 2 ∧ InvalidReason.rleZero.code = 3 ∧
    InvalidReason.rleOver.code = 4 ∧ InvalidReason.rleShort.code = 5

/-! ## The machine -/

/-- A step runs the instruction that is decoded: a transaction offered between transactions, or the item
before a unit inside one. A drain that reaches NeedMore ends with its buffer scanned; with nothing offered the
block stays as it is; an offered transaction that does not decode is refused. The offered transactions and the
items before a unit are the MODEL'S fields (log entries 3 and 8), and the refusal is the MODEL'S (log entry 11). -/
def Obligations.StepRunsTheDecodedInstruction : Prop :=
  ∀ (s : State) (i : Instr),
    (∀ o rest, s.latch = none → s.offers = o :: rest → decode s.params.udpLenExact (.port o) = .ok i →
      step s = exec i { s with offers := rest }) ∧
    (∀ d now, s.latch = some (.parser d now) → decode s.params.udpLenExact (.parser d now) = .ok i →
      step s = exec i { s with latch := none }) ∧
    (∀ c v, s.latch = some (.codec c v) → decode s.params.udpLenExact (.codec [c, v]) = .ok i →
      step s = exec i { s with latch := none }) ∧
    (∀ now, s.latch = some (.framer now) → decode s.params.udpLenExact (.framer (scan s.fbuf) now) = .ok i →
      step s = exec i { s with fbuf := scan s.fbuf }) ∧
    (∀ now, s.latch = some (.framer now) → headView (scan s.fbuf) = .needMore →
      step s = .next { s with fbuf := scan s.fbuf, latch := none }) ∧
    (s.latch = none → s.offers = [] → step s = .next s) ∧
    (∀ o rest r, s.latch = none → s.offers = o :: rest → decode s.params.udpLenExact (.port o) = .error r →
      step s = .refused (refusalOf r))

/-- No step meets bits before a unit that are no instruction: a draining framer fetches only at a magic with a
whole packet or a corrupt header, and every datagram and every pair decodes. So the only bits that a step refuses
are a malformed configuration word. The items before a unit are the MODEL'S field (log entry 8). -/
def Obligations.StepNeverMeetsUndecodableBits : Prop :=
  ∀ (s : State) (why : Reject), step s ≠ .refused (.undecodable why)

/-- A word of the opcode table placed for the next fetch is run by the next step, in a state where its port
is ready and that differs only in the mode bit, the framer buffer and the latch. It is the MODEL'S placing of a
word (log entry 12). -/
def Obligations.TableWordIsRunNext : Prop :=
  ∀ (s : State) (nbits w : Nat) (i : Instr), decode s.params.udpLenExact (tableFetch nbits w) = .ok i →
    ∃ u, step (s.withFetchWord nbits w) = exec i u ∧ u.slots = s.slots ∧ u.mem = s.mem ∧ u.out = s.out ∧
      u.stage = s.stage ∧ u.offers = s.offers ∧ u.params = s.params ∧ u.physHints = s.physHints ∧
      (u.cfg = s.cfg ∨ u.cfg = cfgWithMode .byteStream s.cfg ∨ u.cfg = cfgWithMode .datagram s.cfg) ∧
      Enabled i u

/-- Every enabled instruction completes from every sound state: no fault can be reached (R12, R30, R234). -/
def Obligations.EnabledInstructionsComplete : Prop :=
  ∀ (i : Instr) (s : State), AssemblerInv s → Enabled i s → ∃ t, exec i s = .next t

/-- Only RESET writes the configuration word, and it writes the word presented (R23). -/
def Obligations.OnlyResetWritesConfiguration : Prop :=
  ∀ (i : Instr) (s t : State), exec i s = .next t →
    ((∀ c, i ≠ .reset c) → t.cfg = s.cfg) ∧ (∀ c, i = .reset c → t.cfg = c)

/-- No instruction writes the named parameters or takes an offer: both are the MODEL'S fields (log entries 2
and 3). -/
def Obligations.ParametersAndOffersAreKept : Prop :=
  ∀ (i : Instr) (s t : State), exec i s = .next t → t.params = s.params ∧ t.offers = s.offers

/-- The status outputs of a state between transactions: the number of slots, at most `W`, and the bytes in the
framer buffer, at most 135 and none in DATAGRAM mode (R26, R35, R106). -/
def Obligations.StatusOutputsAreBounded : Prop :=
  ∀ s : State, BlockInv s →
    s.stFrames = s.slots.length ∧ s.stFrames ≤ windowSize s.cfg ∧ s.stFbuf = s.fbuf.length ∧ s.stFbuf ≤ 135 ∧
      (cfgMode s.cfg = .datagram → s.stFbuf = 0)

/-- The datagram path, the codec and time never touch the framer buffer (R53, R112, R202). -/
def Obligations.OnlyTheByteStreamTouchesFbuf : Prop :=
  ∀ (s t : State) (now : Time),
    (∀ d, exec (.dgram d now) s = .next t → t.fbuf = s.fbuf) ∧
    (exec (.tick now) s = .next t → t.fbuf = s.fbuf) ∧
    (∀ fid lid p, exec (.udpRle8 fid lid p now) s = .next t → t.fbuf = s.fbuf) ∧
    (∀ d c, exec (.udpReject d c) s = .next t → t.fbuf = s.fbuf) ∧
    (∀ c v, exec (.rlePair c v) s = .next t → t.fbuf = s.fbuf) ∧
    (∀ v, exec (.rlePairZero v) s = .next t → t.fbuf = s.fbuf)

/-- The invariants of the assembler are kept by every instruction (R25, R28, R29, R30, R52). -/
def Obligations.AssemblerInvariantIsKept : Prop :=
  ∀ (i : Instr) (s t : State), AssemblerInv s → exec i s = .next t → AssemblerInv t

/-- The invariants of the block between transactions are kept by every step (R20, R26, R28, R29, R106). -/
def Obligations.BlockInvariantIsKept : Prop :=
  ∀ s t : State, BlockInv s → step s = .next t → BlockInv t

/-- The invariants of the block hold at `State.reset`. -/
def Obligations.BlockInvariantAtReset : Prop := BlockInv State.reset

/-- The outputs of one transaction: at most W stall events, then at most one record of another kind, the
other way round with SWEEP_AFTER (R205, D14, D28; the place of that sweep is the MODEL'S reading, log entry 22). -/
def Obligations.OutputsOfATransaction : Prop :=
  ∀ (i : Instr) (s t : State), BlockInv s → IsTransaction i → exec i s = .next t →
    ∃ stalls rest : List Output,
      t.out = s.out ++ (if s.params.sweepAfter then rest ++ stalls else stalls ++ rest) ∧
      stalls.length ≤ windowSize s.cfg ∧ rest.length ≤ 1 ∧
      (∀ o ∈ stalls, o.isStall = true) ∧ (∀ o ∈ rest, o.isStall = false)

/-- Nothing but the block's own state crosses a transaction: what a transaction does depends neither on what
was staged or held nor on earlier outputs, and it leaves nothing staged or held (R20, R230).
The fields staged and held are the MODEL'S (log entries 8 and 9). -/
def Obligations.StagingDoesNotSurvive : Prop :=
  ∀ (i : Instr) (s s' t : State), IsTransaction i →
    s'.cfg = s.cfg → s'.fbuf = s.fbuf → s'.slots = s.slots → s'.mem = s.mem →
    s'.physHints = s.physHints → s'.params = s.params → exec i s = .next t →
    t.stage = Staging.idle ∧ t.latch = none ∧
    ∃ (t' : State) (new : List Output), exec i s' = .next t' ∧
      t.out = s.out ++ new ∧ t'.out = s'.out ++ new ∧
      t'.cfg = t.cfg ∧ t'.fbuf = t.fbuf ∧ t'.slots = t.slots ∧ t'.mem = t.mem ∧
      t'.physHints = t.physHints ∧ t'.stage = t.stage ∧ t'.latch = t.latch

/-- Physical slots are invisible: two sound states that differ only in where their slots stand, and in what
the free value says of later allocations, have the same outputs and stay so related, whatever the
instruction (R52, R163, D34). -/
def Obligations.PhysicalSlotsAreInvisible : Prop :=
  ∀ (i : Instr) (s t s' : State), AssemblerInv s → AssemblerInv t → SameView s t → exec i s = .next s' →
    ∃ t', exec i t = .next t' ∧ SameView s' t'
end

