-- ==== Sys2Proof/Laws/State.lean ====
section
/-! SUPPORT. One lemma per field for each named update of the state, and the laws of `andThen`. -/

namespace Sys2Proof.Machine

@[simp] theorem emit_cfg (o : Output) (s : State) : (s.emit o).cfg = s.cfg := rfl
@[simp] theorem emit_fbuf (o : Output) (s : State) : (s.emit o).fbuf = s.fbuf := rfl
@[simp] theorem emit_slots (o : Output) (s : State) : (s.emit o).slots = s.slots := rfl
@[simp] theorem emit_mem (o : Output) (s : State) : (s.emit o).mem = s.mem := rfl
@[simp] theorem emit_out (o : Output) (s : State) : (s.emit o).out = s.out ++ [o] := rfl
@[simp] theorem emit_stage (o : Output) (s : State) : (s.emit o).stage = s.stage := rfl
@[simp] theorem emit_latch (o : Output) (s : State) : (s.emit o).latch = s.latch := rfl
@[simp] theorem emit_offers (o : Output) (s : State) : (s.emit o).offers = s.offers := rfl
@[simp] theorem emit_physHints (o : Output) (s : State) : (s.emit o).physHints = s.physHints := rfl
@[simp] theorem emit_params (o : Output) (s : State) : (s.emit o).params = s.params := rfl

@[simp] theorem raise_cfg (e : Event) (s : State) : (s.raise e).cfg = s.cfg := rfl
@[simp] theorem raise_fbuf (e : Event) (s : State) : (s.raise e).fbuf = s.fbuf := rfl
@[simp] theorem raise_slots (e : Event) (s : State) : (s.raise e).slots = s.slots := rfl
@[simp] theorem raise_mem (e : Event) (s : State) : (s.raise e).mem = s.mem := rfl
@[simp] theorem raise_out (e : Event) (s : State) : (s.raise e).out = s.out ++ [.event e] := rfl
@[simp] theorem raise_stage (e : Event) (s : State) : (s.raise e).stage = s.stage := rfl
@[simp] theorem raise_latch (e : Event) (s : State) : (s.raise e).latch = s.latch := rfl
@[simp] theorem raise_offers (e : Event) (s : State) : (s.raise e).offers = s.offers := rfl
@[simp] theorem raise_physHints (e : Event) (s : State) : (s.raise e).physHints = s.physHints := rfl
@[simp] theorem raise_params (e : Event) (s : State) : (s.raise e).params = s.params := rfl

@[simp] theorem beginTxn_cfg (s : State) : s.beginTxn.cfg = s.cfg := rfl
@[simp] theorem beginTxn_fbuf (s : State) : s.beginTxn.fbuf = s.fbuf := rfl
@[simp] theorem beginTxn_slots (s : State) : s.beginTxn.slots = s.slots := rfl
@[simp] theorem beginTxn_mem (s : State) : s.beginTxn.mem = s.mem := rfl
@[simp] theorem beginTxn_out (s : State) : s.beginTxn.out = s.out := rfl
@[simp] theorem beginTxn_stage (s : State) : s.beginTxn.stage = Staging.idle := rfl
@[simp] theorem beginTxn_latch (s : State) : s.beginTxn.latch = none := rfl
@[simp] theorem beginTxn_offers (s : State) : s.beginTxn.offers = s.offers := rfl
@[simp] theorem beginTxn_physHints (s : State) : s.beginTxn.physHints = s.physHints := rfl
@[simp] theorem beginTxn_params (s : State) : s.beginTxn.params = s.params := rfl

@[simp] theorem andThen_next (s : State) (f : State → Result) : andThen (.next s) f = f s := rfl
@[simp] theorem andThen_fault (x : Fault) (f : State → Result) : andThen (.fault x) f = .fault x := rfl
@[simp] theorem andThen_refused (x : Refusal) (f : State → Result) : andThen (.refused x) f = .refused x := rfl

/-- A sequence answers a next state exactly when both parts do. -/
theorem andThen_eq_next (r : Result) (f : State → Result) (t : State) :
    andThen r f = .next t ↔ ∃ s, r = .next s ∧ f s = .next t := by
  cases r <;> simp

theorem andThen_assoc (r : Result) (f g : State → Result) :
    andThen (andThen r f) g = andThen r (fun s => andThen (f s) g) := by
  cases r <;> rfl

theorem SameFrame.refl (s : State) : SameFrame s s := ⟨rfl, rfl, rfl, rfl, rfl⟩

theorem SameFrame.trans {s t u : State} (h : SameFrame s t) (k : SameFrame t u) : SameFrame s u :=
  ⟨k.cfg.trans h.cfg, k.stage.trans h.stage, k.latch.trans h.latch, k.offers.trans h.offers,
    k.params.trans h.params⟩

theorem SameFrame.emit (o : Output) (s : State) : SameFrame s (s.emit o) := ⟨rfl, rfl, rfl, rfl, rfl⟩

theorem SameFrame.raise (e : Event) (s : State) : SameFrame s (s.raise e) := ⟨rfl, rfl, rfl, rfl, rfl⟩

end Sys2Proof.Machine
end

