-- ==== Sys2Proof/Laws/Codec.lean ====
section
/-! SUPPORT. What the codec can answer (41_codec.md R130 to R137). -/

namespace Sys2Proof.Machine

/-- What one pair can do to a staging row (R132, R134, R135). -/
theorem codecPair_cases (stage : List Byte) (count value : Byte) :
    (count = 0 ∧ codecPair stage count value = .error .rleZero) ∨
      (count ≠ 0 ∧ 64 < stage.length + count.toNat ∧ codecPair stage count value = .error .rleOver) ∨
      (count ≠ 0 ∧ stage.length + count.toNat ≤ 64 ∧
        codecPair stage count value = .ok (stage ++ List.replicate count.toNat value)) := by
  unfold codecPair
  split
  · exact .inl ⟨by assumption, rfl⟩
  · split
    · rename_i h0 h1
      exact .inr (.inl ⟨h0, by simpa using h1, rfl⟩)
    · rename_i h0 h1
      exact .inr (.inr ⟨h0, by simpa using h1, rfl⟩)

/-- A row that the pairs give has 64 bytes, and the payload has at most two bytes for each byte of the row
that was not staged before. -/
theorem decodePairs_row (p stage row : List Byte) (hs : stage.length ≤ 64) (h : decodePairs p stage = .row row) :
    row.length = 64 ∧ p.length ≤ 2 * (64 - stage.length) ∧ (stage.length < 64 → 1 ≤ p.length) := by
  induction p, stage using decodePairs.induct with
  | case1 count value rest stage stage' hc ih =>
    rw [decodePairs, hc] at h
    rcases codecPair_cases stage count value with ⟨_, e⟩ | ⟨_, _, e⟩ | ⟨h0, hl, e⟩ <;> rw [e] at hc <;> cases hc
    have h1 : 1 ≤ count.toNat := by
      rcases Nat.eq_zero_or_pos count.toNat with hz | hz
      · exact absurd (BitVec.eq_of_toNat_eq (by simpa using hz)) h0
      · exact hz
    have := ih (by simpa using hl) h
    simp only [List.length_append, List.length_replicate] at this
    simp only [List.length_cons]
    omega
  | case2 count value rest stage reason hc =>
    rw [decodePairs, hc] at h
    cases h
  | case3 => cases h
  | case4 stage hr =>
    rw [decodePairs, if_pos hr] at h
    cases h
    simp only [Config.rowBytes_val] at hr
    simp [hr]
  | case5 stage hr =>
    rw [decodePairs, if_neg hr] at h
    cases h

/-- A line that decodes gives a row of 64 bytes, from a payload of 1 to 128 bytes (R131, R133). -/
theorem decodeLine_row (item : LineItem) (row : List Byte) (h : decodeLine item = .row row) :
    row.length = 64 ∧ 1 ≤ item.n ∧ item.n ≤ 128 := by
  unfold decodeLine at h
  simp only [LineItem.n]
  split at h
  · unfold decodeRle at h
    split at h
    · cases h
    · have := decodePairs_row _ _ _ (by simp) h
      simp only [List.length_nil] at this
      omega
  · unfold decodeRaw at h
    split at h
    · cases h
      rename_i hr
      simp only [Config.rowBytes_val] at hr
      omega
    · cases h

theorem expandByte_length (p : Bool) (b : Byte) : (expandByte p b).length = 8 := by simp [expandByte]

/-- Each row byte expands to eight pixel bytes (R141). -/
theorem expand_length (p : Bool) (row : List Byte) : (expand p row).length = 8 * row.length := by
  induction row with
  | nil => rfl
  | cons b row ih =>
    have hc : expand p (b :: row) = expandByte p b ++ expand p row := rfl
    rw [hc, List.length_append, expandByte_length, ih, List.length_cons]
    omega

end Sys2Proof.Machine
end

