-- ==== Sys2Proof/Laws/Memory.lean ====
section
/-! SUPPORT. The line buffer: read after write, the canonical form, and what MemRead and MemWrite can
answer (20_memory.md R52, 00_scope.md R11). -/

namespace Sys2Proof.Machine

theorem Memory.read_nil (a : Nat) : Memory.read [] a = none := rfl

/-- A byte reads as none exactly where no pair is listed. -/
theorem Memory.read_isSome_iff (m : Memory) (a : Nat) :
    (m.read a).isSome = true ↔ ∃ c ∈ m, c.1 = a := by
  induction m with
  | nil => simp [Memory.read]
  | cons c m ih =>
    obtain ⟨k, v⟩ := c
    by_cases h : k = a
    · simp [Memory.read, h]
    · simp [Memory.read, h, ih]

theorem Memory.read_write_same (m : Memory) (a : Nat) (v : Byte) : (m.write a v).read a = some v := by
  induction m with
  | nil => simp [Memory.write, Memory.read]
  | cons c m ih =>
    obtain ⟨k, x⟩ := c
    unfold Memory.write
    split
    · simp [Memory.read]
    · split
      · simp [Memory.read]
      · rename_i h
        simp [Memory.read, Ne.symm h, ih]

theorem Memory.read_write_other (m : Memory) (a x : Nat) (v : Byte) (h : x ≠ a) :
    (m.write a v).read x = m.read x := by
  induction m with
  | nil => simp [Memory.write, Memory.read, Ne.symm h]
  | cons c m ih =>
    obtain ⟨k, y⟩ := c
    unfold Memory.write
    split
    · simp [Memory.read, Ne.symm h]
    · split
      · rename_i e
        simp [Memory.read, Ne.symm h, ← e]
      · simp [Memory.read, ih]

/-- The addresses of a written memory are those it had and the one written. -/
theorem Memory.mem_write (m : Memory) (a : Nat) (v : Byte) (c : Host.Cell) (h : c ∈ m.write a v) :
    c = (a, v) ∨ c ∈ m := by
  induction m with
  | nil => simpa [Memory.write] using h
  | cons d m ih =>
    obtain ⟨k, x⟩ := d
    unfold Memory.write at h
    split at h
    · simpa using h
    · split at h
      · rcases List.mem_cons.1 h with h | h
        · exact .inl h
        · exact .inr (List.mem_cons_of_mem _ h)
      · rcases List.mem_cons.1 h with h | h
        · exact .inr (by simp [h])
        · exact (ih h).imp id (List.mem_cons_of_mem _)

theorem Memory.wf_nil : Memory.wf [] := List.Pairwise.nil

theorem Memory.wf_write (m : Memory) (a : Nat) (v : Byte) (h : m.wf) : (m.write a v).wf := by
  induction m with
  | nil => simp [Memory.write, Memory.wf]
  | cons c m ih =>
    obtain ⟨k, x⟩ := c
    have hk : ∀ {d : Host.Cell}, d ∈ m → k < d.1 := fun hd => List.rel_of_pairwise_cons h hd
    have hm : Memory.wf m := List.Pairwise.of_cons h
    unfold Memory.write
    split
    · rename_i hlt
      refine List.Pairwise.cons (fun d hd => ?_) h
      rcases List.mem_cons.1 hd with rfl | hd
      · exact hlt
      · exact Nat.lt_trans hlt (hk hd)
    · split
      · rename_i e
        subst e
        exact List.Pairwise.cons (fun d hd => hk hd) hm
      · rename_i hlt hne
        refine List.Pairwise.cons (fun d hd => ?_) (ih hm)
        rcases Memory.mem_write m a v d hd with rfl | hd
        · show k < a
          omega
        · exact hk hd

theorem Memory.wf_writeBytes (m : Memory) (a : Nat) (vs : List Byte) (h : m.wf) : (m.writeBytes a vs).wf := by
  induction vs generalizing m a with
  | nil => exact h
  | cons v vs ih => exact ih _ _ (m.wf_write a v h)

/-- A read after a write: the written bytes inside the written range, the old byte outside it. -/
theorem Memory.read_writeBytes (m : Memory) (a x : Nat) (vs : List Byte) :
    (m.writeBytes a vs).read x = if a ≤ x ∧ x < a + vs.length then vs[x - a]? else m.read x := by
  induction vs generalizing m a with
  | nil =>
    rw [if_neg (by simp)]
    rfl
  | cons v vs ih =>
    rw [Memory.writeBytes, ih]
    simp only [List.length_cons]
    by_cases h : x = a
    · subst h
      simp [Memory.read_write_same]
    · rw [Memory.read_write_other _ _ _ _ h]
      by_cases h1 : a + 1 ≤ x ∧ x < a + 1 + vs.length
      · rw [if_pos h1, if_pos (by omega), show x - a = (x - (a + 1)) + 1 by omega, List.getElem?_cons_succ]
      · rw [if_neg h1, if_neg (by omega)]

/-- The addresses of a written memory are those it had and those written. -/
theorem Memory.mem_writeBytes (m : Memory) (a : Nat) (vs : List Byte) (c : Host.Cell)
    (h : c ∈ m.writeBytes a vs) : (a ≤ c.1 ∧ c.1 < a + vs.length) ∨ c ∈ m := by
  induction vs generalizing m a with
  | nil => exact .inr h
  | cons v vs ih =>
    simp only [List.length_cons]
    rcases ih _ _ h with h | h
    · left
      omega
    · rcases Memory.mem_write m a v c h with rfl | h
      · left
        simp
      · exact .inr h

/-- Reading a range gives its bytes exactly where each byte reads. -/
theorem Memory.readBytes_eq_some (m : Memory) (a n : Nat) (vs : List Byte) :
    m.readBytes a n = some vs ↔ vs.length = n ∧ ∀ i < n, m.read (a + i) = vs[i]? := by
  induction n generalizing a vs with
  | zero =>
    constructor
    · intro h
      simp only [Memory.readBytes, Option.some.injEq] at h
      simp [← h]
    · rintro ⟨h, -⟩
      simp [Memory.readBytes, List.length_eq_zero_iff.1 h]
  | succ n ih =>
    unfold Memory.readBytes
    constructor
    · intro h
      split at h
      · rename_i v ws hv hws
        obtain ⟨hl, hr⟩ := (ih _ _).1 hws
        cases h
        refine ⟨by simp [hl], fun i hi => ?_⟩
        cases i with
        | zero => simpa using hv
        | succ i =>
          rw [show a + (i + 1) = a + 1 + i by omega, hr i (by omega)]
          simp
      · cases h
    · rintro ⟨hl, hr⟩
      cases vs with
      | nil => simp at hl
      | cons v ws =>
        have h0 : m.read a = some v := by simpa using hr 0 (by omega)
        have h1 : m.readBytes (a + 1) n = some ws := by
          refine (ih _ _).2 ⟨by simpa using hl, fun i hi => ?_⟩
          have := hr (i + 1) (by omega)
          rw [show a + (i + 1) = a + 1 + i by omega] at this
          simpa using this
        simp [h0, h1]

/-- A range reads exactly when each of its bytes holds a value. -/
theorem Memory.readBytes_isSome (m : Memory) (a n : Nat) :
    (m.readBytes a n).isSome = true ↔ ∀ i < n, (m.read (a + i)).isSome = true := by
  induction n generalizing a with
  | zero => simp [Memory.readBytes]
  | succ n ih =>
    unfold Memory.readBytes
    have hs := ih (a + 1)
    constructor
    · intro h i hi
      split at h
      · rename_i v ws hv hws
        cases i with
        | zero => simp [hv]
        | succ i =>
          have := hs.1 (by simp [hws]) i (by omega)
          rwa [show a + (i + 1) = a + 1 + i by omega]
      · cases h
    · intro h
      have h0 := h 0 (by omega)
      have h1 := hs.2 (fun i hi => by
        have := h (i + 1) (by omega)
        rwa [show a + (i + 1) = a + 1 + i by omega] at this)
      obtain ⟨v, hv⟩ := Option.isSome_iff_exists.1 h0
      obtain ⟨ws, hws⟩ := Option.isSome_iff_exists.1 h1
      simp only [Nat.add_zero] at hv
      simp [hv, hws]

/-- A range that no write touched reads as before. -/
theorem Memory.readBytes_congr (m m' : Memory) (a n : Nat) (h : ∀ i < n, m'.read (a + i) = m.read (a + i)) :
    m'.readBytes a n = m.readBytes a n := by
  induction n generalizing a with
  | zero => rfl
  | succ n ih =>
    have h0 : m'.read a = m.read a := by simpa using h 0 (by omega)
    have h1 := ih (a + 1) (fun i hi => by
      have := h (i + 1) (by omega)
      rwa [show a + (i + 1) = a + 1 + i by omega] at this)
    simp [Memory.readBytes, h0, h1]

theorem Memory.readBytes_writeBytes_same (m : Memory) (a : Nat) (vs : List Byte) :
    (m.writeBytes a vs).readBytes a vs.length = some vs := by
  refine (Memory.readBytes_eq_some _ _ _ _).2 ⟨rfl, fun i hi => ?_⟩
  rw [Memory.read_writeBytes, if_pos (by omega)]
  simp

theorem Memory.wf_erase (m : Memory) (lo hi : Nat) (h : m.wf) : (m.erase lo hi).wf := List.Pairwise.filter _ h

/-- An erased range holds no value, and every other address reads as before. -/
theorem Memory.read_erase (m : Memory) (lo hi x : Nat) :
    (m.erase lo hi).read x = if lo ≤ x ∧ x < hi then none else m.read x := by
  induction m with
  | nil => simp [Memory.erase, Memory.read]
  | cons c m ih =>
    obtain ⟨k, v⟩ := c
    have step : Memory.erase ((k, v) :: m) lo hi =
        if lo ≤ k ∧ k < hi then Memory.erase m lo hi else (k, v) :: Memory.erase m lo hi := by
      simp only [Memory.erase, List.filter_cons]
      by_cases h : lo ≤ k ∧ k < hi
      · rw [if_neg, if_pos h]
        simp
        omega
      · rw [if_pos, if_neg h]
        simp
        omega
    rw [step]
    by_cases h : lo ≤ k ∧ k < hi
    · rw [if_pos h, ih]
      by_cases hx : lo ≤ x ∧ x < hi
      · rw [if_pos hx, if_pos hx]
      · rw [if_neg hx, if_neg hx, Memory.read, if_neg (by rintro rfl; exact hx h)]
    · rw [if_neg h]
      by_cases hk : k = x
      · subst hk
        rw [if_neg h, Memory.read, Memory.read, if_pos rfl, if_pos rfl]
      · rw [Memory.read, if_neg hk, ih, Memory.read, if_neg hk]

theorem Memory.mem_erase (m : Memory) (lo hi : Nat) (c : Host.Cell) :
    c ∈ m.erase lo hi ↔ c ∈ m ∧ ¬(lo ≤ c.1 ∧ c.1 < hi) := by
  simp only [Memory.erase, List.mem_filter, Bool.or_eq_true, decide_eq_true_eq]
  constructor
  · rintro ⟨h, h'⟩
    exact ⟨h, by omega⟩
  · rintro ⟨h, h'⟩
    exact ⟨h, by omega⟩

theorem Memory.wf_freeRows (m : Memory) (p : Nat) (h : m.wf) : (m.freeRows p).wf := m.wf_erase _ _ h

/-- The rows of one physical slot are the addresses `a` with `physOf a` that slot. -/
theorem physOf_eq_iff (p a : Nat) : physOf a = p ↔ lbAddr p 0 0 ≤ a ∧ a < lbAddr (p + 1) 0 0 := by
  simp only [physOf, lbAddr, Config.lines_val, Config.rowBytes_val]
  omega

/-- Freeing a slot's rows takes exactly their values. -/
theorem Memory.read_freeRows (m : Memory) (p x : Nat) :
    (m.freeRows p).read x = if physOf x = p then none else m.read x := by
  rw [Memory.freeRows, Memory.read_erase]
  simp only [physOf_eq_iff]

theorem Memory.mem_freeRows (m : Memory) (p : Nat) (c : Host.Cell) :
    c ∈ m.freeRows p ↔ c ∈ m ∧ physOf c.1 ≠ p := by
  rw [Memory.freeRows, Memory.mem_erase, Ne, physOf_eq_iff]

theorem physOf_lbAddr (p l b : Nat) (hl : l < 342) (hb : b < 64) : physOf (lbAddr p l b) = p := by
  simp only [physOf, lbAddr, Config.lines_val, Config.rowBytes_val]
  omega

theorem lineOf_lbAddr (p l b : Nat) (hl : l < 342) (hb : b < 64) : lineOf (lbAddr p l b) = l := by
  simp only [lineOf, lbAddr, Config.lines_val, Config.rowBytes_val]
  omega

/-- An address is byte `a % 64` of the row that `physOf` and `lineOf` name. -/
theorem lbAddr_of_parts (a : Nat) : lbAddr (physOf a) (lineOf a) (a % 64) = a := by
  simp only [physOf, lineOf, lbAddr, Config.lines_val, Config.rowBytes_val]
  omega

/-- What MemWrite can answer: the written state, or the address fault and nothing else. -/
theorem memWrite_cases (s : State) (a : Nat) (vs : List Byte) :
    (a + vs.length ≤ lbSize s.cfg ∧ memWrite s a vs = .ok { s with mem := s.mem.writeBytes a vs }) ∨
      (lbSize s.cfg < a + vs.length ∧ memWrite s a vs = .error .lineBufferAddress) := by
  unfold memWrite
  split
  · exact .inl ⟨by assumption, rfl⟩
  · exact .inr ⟨by omega, rfl⟩

/-- What MemRead can answer. -/
theorem memRead_cases (s : State) (a n : Nat) :
    (∃ vs, a + n ≤ lbSize s.cfg ∧ s.mem.readBytes a n = some vs ∧ memRead s a n = .ok vs) ∨
      (a + n ≤ lbSize s.cfg ∧ s.mem.readBytes a n = none ∧ memRead s a n = .error .rowAbsent) ∨
      (lbSize s.cfg < a + n ∧ memRead s a n = .error .lineBufferAddress) := by
  unfold memRead
  split
  · rename_i h
    split
    · rename_i vs hv
      exact .inl ⟨vs, h, hv, rfl⟩
    · rename_i hv
      exact .inr (.inl ⟨h, hv, rfl⟩)
  · exact .inr (.inr ⟨by omega, rfl⟩)

end Sys2Proof.Machine
end

