-- ==== Sys2Proof/Laws/Assembler.lean ====
section
/-! SUPPORT. What each operation of the frame assembler can do (42_assembler.md), said once: the window
eviction, ALLOC, EMIT, SUBMIT, LINE and SWEEP. -/

namespace Sys2Proof.Machine

/-- The state after the oldest slot is removed for a new one (R164). -/
def evicted (s : State) (victim : Slot) (rest : List Slot) : State :=
  { s with slots := rest, mem := s.mem.freeRows victim.phys }.raise
    (.evictWindow victim.fid (victim.nLines.setWidth 16))

/-- What the window eviction can do (R164). -/
theorem evictOldest_cases (s : State) :
    (s.slots.length + 1 ≤ windowSize s.cfg ∧ s.evictOldest = s) ∨
      (∃ victim rest, windowSize s.cfg < s.slots.length + 1 ∧ s.slots = victim :: rest ∧
        s.evictOldest = evicted s victim rest) ∨
      (windowSize s.cfg = 0 ∧ s.slots = [] ∧ s.evictOldest = s) := by
  unfold State.evictOldest
  split
  · rename_i h
    cases hs : s.slots with
    | nil =>
      rw [hs, List.length_nil] at h
      exact .inr (.inr ⟨by omega, rfl, rfl⟩)
    | cons v rest =>
      rw [hs] at h
      exact .inr (.inl ⟨v, rest, h, rfl, rfl⟩)
  · exact .inl ⟨by omega, rfl⟩

theorem evictOldest_sameFrame (s : State) : SameFrame s s.evictOldest := by
  rcases evictOldest_cases s with ⟨_, h⟩ | ⟨v, rest, _, _, h⟩ | ⟨_, _, h⟩ <;> rw [h]
  · exact SameFrame.refl s
  · exact ⟨rfl, rfl, rfl, rfl, rfl⟩
  · exact SameFrame.refl s

theorem evictOldest_fbuf (s : State) : s.evictOldest.fbuf = s.fbuf := by
  rcases evictOldest_cases s with ⟨_, h⟩ | ⟨v, rest, _, _, h⟩ | ⟨_, _, h⟩ <;> rw [h]
  rfl

/-- After the eviction there is room for one more slot (R164), where the window holds any. -/
theorem evictOldest_room (s : State) (hw : 1 ≤ windowSize s.cfg) (hl : s.slots.length ≤ windowSize s.cfg) :
    s.evictOldest.slots.length + 1 ≤ windowSize s.cfg := by
  rcases evictOldest_cases s with ⟨hr, h⟩ | ⟨v, rest, _, hs, h⟩ | ⟨h0, _, _⟩
  · rw [h]
    exact hr
  · rw [h]
    rw [hs, List.length_cons] at hl
    exact hl
  · omega

/-- The free physical slots are those below the window that no slot has. -/
theorem mem_freePhys (s : State) (p : Nat) :
    p ∈ s.freePhys ↔ p < windowSize s.cfg ∧ p ∉ s.slots.map Slot.phys := by
  simp [State.freePhys]

/-- With fewer slots than the window, a physical slot is free (R163). -/
theorem freePhys_ne_nil (s : State) (h : s.slots.length < windowSize s.cfg) : s.freePhys ≠ [] := by
  intro hn
  have hsub : List.range (windowSize s.cfg) ⊆ s.slots.map Slot.phys := by
    intro p hp
    by_contra hc
    have : p ∈ s.freePhys := (mem_freePhys s p).2 ⟨List.mem_range.1 hp, hc⟩
    rw [hn] at this
    cases this
  have := (List.nodup_range.subperm hsub).length_le
  rw [List.length_range, List.length_map] at this
  omega

/-- The chosen physical slot is a free one, whatever the free value says (R163). -/
theorem choosePhys_mem (s : State) (h : s.freePhys ≠ []) : s.choosePhys ∈ s.freePhys := by
  have hd : s.freePhys.headD (windowSize s.cfg) ∈ s.freePhys := by
    cases hf : s.freePhys with
    | nil => exact absurd hf h
    | cons a l => simp
  unfold State.choosePhys
  split
  · split
    · rename_i hc
      simpa using hc
    · exact hd
  · exact hd

@[simp] theorem alloc_fst (s : State) (fid : FrameId) (now : Time) :
    (s.alloc fid now).1 = newSlot fid now s.evictOldest.choosePhys := rfl

@[simp] theorem alloc_slots (s : State) (fid : FrameId) (now : Time) :
    (s.alloc fid now).2.slots = s.evictOldest.slots ++ [newSlot fid now s.evictOldest.choosePhys] := rfl

@[simp] theorem alloc_mem (s : State) (fid : FrameId) (now : Time) :
    (s.alloc fid now).2.mem = s.evictOldest.mem := rfl

@[simp] theorem alloc_out (s : State) (fid : FrameId) (now : Time) :
    (s.alloc fid now).2.out = s.evictOldest.out := rfl

@[simp] theorem alloc_cfg (s : State) (fid : FrameId) (now : Time) : (s.alloc fid now).2.cfg = s.cfg :=
  (evictOldest_sameFrame s).cfg

@[simp] theorem alloc_fbuf (s : State) (fid : FrameId) (now : Time) : (s.alloc fid now).2.fbuf = s.fbuf :=
  evictOldest_fbuf s

theorem alloc_sameFrame (s : State) (fid : FrameId) (now : Time) : SameFrame s (s.alloc fid now).2 :=
  ⟨(evictOldest_sameFrame s).cfg, (evictOldest_sameFrame s).stage, (evictOldest_sameFrame s).latch,
    (evictOldest_sameFrame s).offers, (evictOldest_sameFrame s).params⟩

/-- EMIT's rows are the stored rows in order, each in the form of the frame output (R167). -/
theorem emitRows_ok (s : State) (p : Nat) (ls : List Nat) (f : Nat → List Byte)
    (h : ∀ l ∈ ls, readRow s p l = .ok (f l)) : emitRows s p ls = .ok (ls.flatMap (fun l => rowOut s.cfg (f l))) := by
  induction ls with
  | nil => rfl
  | cons l ls ih =>
    rw [emitRows, h l (by simp), ih (fun k hk => h k (List.mem_cons_of_mem _ hk))]
    simp

/-- Where EMIT's rows can be read, each of them can. -/
theorem emitRows_inv (s : State) (p : Nat) (ls : List Nat) (rows : List Byte) (h : emitRows s p ls = .ok rows) :
    ∃ f : Nat → List Byte, (∀ l ∈ ls, readRow s p l = .ok (f l)) ∧
      rows = ls.flatMap (fun l => rowOut s.cfg (f l)) := by
  induction ls generalizing rows with
  | nil =>
    cases h
    exact ⟨fun _ => [], by simp, rfl⟩
  | cons l ls ih =>
    rw [emitRows] at h
    cases hr : readRow s p l with
    | error x => simp [hr] at h
    | ok row =>
      cases hs : emitRows s p ls with
      | error x => simp [hr, hs] at h
      | ok rs =>
        simp only [hr, hs, Except.ok.injEq] at h
        obtain ⟨f, hf, rfl⟩ := ih rs hs
        let g : Nat → List Byte := fun k => match readRow s p k with
          | .ok r => r
          | .error _ => []
        have hg : ∀ k, ∀ r, readRow s p k = .ok r → g k = r := fun k r hk => by simp only [g, hk]
        refine ⟨g, fun k hk => ?_, ?_⟩
        · rcases List.mem_cons.1 hk with rfl | hk
          · rw [hr, hg _ _ hr]
          · rw [hf k hk, hg _ _ (hf k hk)]
        · rw [← h, List.flatMap_cons, hg _ _ hr]
          congr 1
          refine List.flatMap_congr (fun k hk => ?_)
          rw [hg _ _ (hf k hk)]

/-- The state after a frame has left (R167). -/
def emitted (e : Slot) (rows : List Byte) (s : State) : State :=
  { s with slots := s.slots.filter (fun x => x.fid != e.fid), mem := s.mem.freeRows e.phys }.emit
    (.frame e.fid rows e.byteCount (e.rleLineCount.setWidth 16))

/-- What EMIT can answer (R167). -/
theorem emitFrame_cases (e : Slot) (s : State) :
    (∃ rows, emitRows s e.phys (List.range 342) = .ok rows ∧ emitFrame e s = .next (emitted e rows s)) ∨
      (∃ f, emitRows s e.phys (List.range 342) = .error f ∧ emitFrame e s = .fault f) := by
  unfold emitFrame
  rw [Config.lines_val]
  cases emitRows s e.phys (List.range 342) with
  | ok rows => exact .inl ⟨rows, rfl, rfl⟩
  | error f => exact .inr ⟨f, rfl, rfl⟩

/-- Setting a present bit sets that bit and no other (R165, R31). -/
theorem getLsbD_presentWith (p : BitVec Config.lines) (l k : Nat) :
    (presentWith p l).getLsbD k = (p.getLsbD k || (decide (l < 342) && decide (l = k))) := by
  rw [presentWith, BitVec.getLsbD_or, BitVec.getLsbD_twoPow]
  rfl

/-- The count of present bits, over the 342 lines (R29). -/
theorem presentCount_eq (p : BitVec Config.lines) :
    presentCount p = (List.range 342).countP (fun l => p.getLsbD l) := rfl

/-- Where `g` holds of one number more than `f` does, it counts one more. -/
theorem countP_range_insert (n l : Nat) (f g : Nat → Bool) (hl : l < n) (hf : f l = false)
    (hg : ∀ k < n, g k = (decide (k = l) || f k)) : (List.range n).countP g = (List.range n).countP f + 1 := by
  induction n with
  | zero => omega
  | succ n ih =>
    simp only [List.range_succ, List.countP_append, List.countP_singleton, hg n (by omega)]
    by_cases h : l = n
    · subst h
      have : (List.range l).countP g = (List.range l).countP f := by
        refine List.countP_congr (fun k hk => ?_)
        have := List.mem_range.1 hk
        rw [hg k (by omega)]
        simp [show k ≠ l by omega]
      simp [this, hf]
    · rw [ih (by omega) (fun k hk => hg k (by omega))]
      simp only [show n ≠ l by omega, decide_false, Bool.false_or]
      omega

/-- A line that was not present adds one to the count (R29, R165). -/
theorem presentCount_presentWith (p : BitVec Config.lines) (l : Nat) (hl : l < 342) (h : p.getLsbD l = false) :
    presentCount (presentWith p l) = presentCount p + 1 := by
  refine countP_range_insert 342 l _ _ hl h (fun k _ => ?_)
  rw [getLsbD_presentWith, Bool.or_comm]
  simp [hl, eq_comm]

/-- A count of 342 is every line (R31). -/
theorem all_of_presentCount (p : BitVec Config.lines) (h : presentCount p = 342) :
    ∀ l < 342, p.getLsbD l = true := by
  intro l hl
  rw [presentCount_eq] at h
  have := List.countP_eq_length.1 (h.trans List.length_range.symm)
  exact this l (List.mem_range.2 hl)

/-- The state after a line is written into slot `e` (R165). -/
def inserted (item : LineItem) (row : List Byte) (now : Time) (e : Slot) (s : State) : State :=
  { s with
    mem := s.mem.writeBytes (lbAddr e.phys item.lid.toNat 0) row
    slots := replaceSlot (e.insert item now) s.slots }

/-- What SUBMIT can answer from the duplicate check on (R165 to R167). -/
theorem insertLine_cases (item : LineItem) (row : List Byte) (now : Time) (e : Slot) (s : State) :
    (e.has item.lid.toNat = true ∧
        insertLine item row now e s = .next (s.raise (.lineDup item.fid item.lid))) ∨
      (e.has item.lid.toNat = false ∧ insertLine item row now e s = .fault .lineBufferAddress ∧
        lbSize s.cfg < lbAddr e.phys item.lid.toNat 0 + row.length) ∨
      (e.has item.lid.toNat = false ∧ lbAddr e.phys item.lid.toNat 0 + row.length ≤ lbSize s.cfg ∧
        (e.insert item now).complete = false ∧
        insertLine item row now e s = .next (inserted item row now e s)) ∨
      (e.has item.lid.toNat = false ∧ lbAddr e.phys item.lid.toNat 0 + row.length ≤ lbSize s.cfg ∧
        (e.insert item now).complete = true ∧
        insertLine item row now e s = emitFrame (e.insert item now) (inserted item row now e s)) := by
  unfold insertLine
  by_cases hd : e.has item.lid.toNat = true
  · exact .inl ⟨hd, by rw [if_pos hd]⟩
  · have hd' : e.has item.lid.toNat = false := by simpa using hd
    rw [if_neg hd]
    rcases memWrite_cases s (lbAddr e.phys item.lid.toNat 0) row with ⟨hl, hw⟩ | ⟨hl, hw⟩
    · rw [hw]
      by_cases hc : (e.insert item now).complete = true
      · exact .inr (.inr (.inr ⟨hd', hl, hc, by simp only [hc, if_true, inserted]⟩))
      · have hc' : (e.insert item now).complete = false := by simpa using hc
        exact .inr (.inr (.inl ⟨hd', hl, hc', by simp only [hc', inserted, Bool.false_eq_true, if_false]⟩))
    · rw [hw]
      exact .inr (.inl ⟨hd', rfl, hl⟩)

/-- What SUBMIT can answer (R160 to R163). -/
theorem submit_cases (item : LineItem) (row : List Byte) (now : Time) (s : State) :
    (342 ≤ item.lid.toNat ∧ submit item row now s = .next (s.raise (.lineRange item.fid item.lid))) ∨
      (∃ e, item.lid.toNat < 342 ∧ s.findSlot item.fid = some e ∧
        submit item row now s = insertLine item row now e s) ∨
      (item.lid.toNat < 342 ∧ s.findSlot item.fid = none ∧
        submit item row now s =
          insertLine item row now (s.alloc item.fid now).1 (s.alloc item.fid now).2) := by
  unfold submit
  rw [Config.lines_val]
  by_cases h : 342 ≤ item.lid.toNat
  · exact .inl ⟨h, by rw [if_pos h]⟩
  · rw [if_neg h]
    cases hf : s.findSlot item.fid with
    | some e => exact .inr (.inl ⟨e, by omega, rfl, rfl⟩)
    | none => exact .inr (.inr ⟨by omega, rfl, rfl⟩)

/-- What LINE can answer (R130, R201). -/
theorem lineStep_cases (item : LineItem) (now : Time) (s : State) :
    (∃ reason, decodeLine item = .invalid reason ∧
        lineStep item now s = .next (s.raise (.lineInvalid item.fid item.lid reason))) ∨
      (∃ row, decodeLine item = .row row ∧ lineStep item now s = submit item row now s) := by
  unfold lineStep
  cases h : decodeLine item with
  | invalid reason => exact .inl ⟨reason, rfl, rfl⟩
  | row row => exact .inr ⟨row, rfl, rfl⟩

theorem emitFrame_sameFrame (e : Slot) (s t : State) (h : emitFrame e s = .next t) :
    SameFrame s t ∧ t.fbuf = s.fbuf := by
  rcases emitFrame_cases e s with ⟨rows, _, hn⟩ | ⟨f, _, hf⟩
  · rw [hn] at h
    cases h
    exact ⟨⟨rfl, rfl, rfl, rfl, rfl⟩, rfl⟩
  · rw [hf] at h
    cases h

theorem insertLine_sameFrame (item : LineItem) (row : List Byte) (now : Time) (e : Slot) (s t : State)
    (h : insertLine item row now e s = .next t) : SameFrame s t ∧ t.fbuf = s.fbuf := by
  rcases insertLine_cases item row now e s with ⟨_, hn⟩ | ⟨_, hn, _⟩ | ⟨_, _, _, hn⟩ | ⟨_, _, _, hn⟩ <;> rw [hn] at h
  · cases h
    exact ⟨SameFrame.raise _ _, rfl⟩
  · cases h
  · cases h
    exact ⟨⟨rfl, rfl, rfl, rfl, rfl⟩, rfl⟩
  · obtain ⟨hf, hb⟩ := emitFrame_sameFrame _ _ _ h
    exact ⟨⟨hf.cfg, hf.stage, hf.latch, hf.offers, hf.params⟩, hb⟩

theorem submit_sameFrame (item : LineItem) (row : List Byte) (now : Time) (s t : State)
    (h : submit item row now s = .next t) : SameFrame s t ∧ t.fbuf = s.fbuf := by
  rcases submit_cases item row now s with ⟨_, hn⟩ | ⟨e, _, _, hn⟩ | ⟨_, _, hn⟩ <;> rw [hn] at h
  · cases h
    exact ⟨SameFrame.raise _ _, rfl⟩
  · exact insertLine_sameFrame _ _ _ _ _ _ h
  · obtain ⟨hf, hb⟩ := insertLine_sameFrame _ _ _ _ _ _ h
    exact ⟨(alloc_sameFrame s item.fid now).trans hf, hb.trans (alloc_fbuf s item.fid now)⟩

/-- A line touches neither the configuration nor the framer buffer nor any transient field. -/
theorem lineStep_sameFrame (item : LineItem) (now : Time) (s t : State) (h : lineStep item now s = .next t) :
    SameFrame s t ∧ t.fbuf = s.fbuf := by
  rcases lineStep_cases item now s with ⟨r, _, hn⟩ | ⟨row, _, hn⟩ <;> rw [hn] at h
  · cases h
    exact ⟨SameFrame.raise _ _, rfl⟩
  · exact submit_sameFrame _ _ _ _ _ h

/-- A line is never refused. -/
theorem lineStep_ne_refused (item : LineItem) (now : Time) (s : State) (r : Refusal) :
    lineStep item now s ≠ .refused r := by
  have hi : ∀ row e u, insertLine item row now e u ≠ .refused r := by
    intro row e u h
    rcases insertLine_cases item row now e u with ⟨_, hn⟩ | ⟨_, hn, _⟩ | ⟨_, _, _, hn⟩ | ⟨_, _, _, hn⟩ <;> rw [hn] at h
    · cases h
    · cases h
    · cases h
    · rcases emitFrame_cases (e.insert item now) (inserted item row now e u) with ⟨_, _, hm⟩ | ⟨_, _, hm⟩ <;>
        rw [hm] at h <;> cases h
  intro h
  rcases lineStep_cases item now s with ⟨r', _, hn⟩ | ⟨row, _, hn⟩ <;> rw [hn] at h
  · cases h
  · rcases submit_cases item row now s with ⟨_, hm⟩ | ⟨e, _, _, hm⟩ | ⟨_, _, hm⟩ <;> rw [hm] at h
    · cases h
    · exact hi _ _ _ h
    · exact hi _ _ _ h

/-- A stale slot is one whose age is above the stall window, strictly (R171). -/
theorem stale_iff (c : CfgWord) (now : Time) (e : Slot) :
    e.stale c now = true ↔ (cfgStallWindow c).toNat < (slotAge now e).toNat := by
  simp [Slot.stale, BitVec.ult]

/-- An age as a number, modulo 2^32 (R170, R172). -/
theorem slotAge_toNat (now : Time) (e : Slot) :
    (slotAge now e).toNat = (2 ^ 32 - e.tLast.toNat + now.toNat) % 2 ^ 32 := BitVec.toNat_sub now e.tLast

/-- Freeing the rows of several slots keeps the canonical form. -/
theorem freeAll_wf (dead : List Slot) (m : Memory) (h : m.wf) :
    Memory.wf (dead.foldl (fun m e => m.freeRows e.phys) m) := by
  induction dead generalizing m with
  | nil => exact h
  | cons e dead ih => exact ih _ (m.wf_freeRows e.phys h)

/-- Freeing the rows of several slots takes exactly their pairs. -/
theorem mem_freeAll (dead : List Slot) (m : Memory) (c : Host.Cell) :
    c ∈ dead.foldl (fun m e => m.freeRows e.phys) m ↔ c ∈ m ∧ ∀ e ∈ dead, physOf c.1 ≠ e.phys := by
  induction dead generalizing m with
  | nil => simp
  | cons e dead ih =>
    rw [List.foldl_cons, ih, Memory.mem_freeRows]
    simp only [List.mem_cons, forall_eq_or_imp]
    tauto

/-- Freeing the rows of several slots takes exactly their values. -/
theorem read_freeAll (dead : List Slot) (m : Memory) (a : Nat) (h : ∀ e ∈ dead, physOf a ≠ e.phys) :
    (dead.foldl (fun m e => m.freeRows e.phys) m).read a = m.read a := by
  induction dead generalizing m with
  | nil => rfl
  | cons e dead ih =>
    rw [List.foldl_cons, ih _ (fun x hx => h x (List.mem_cons_of_mem _ hx)), Memory.read_freeRows,
      if_neg (h e (by simp))]

/-- SWEEP does nothing with stall eviction off (R170). -/
theorem sweep_off (now : Time) (s : State) (h : cfgStallEn s.cfg = false) : sweep now s = s := by
  simp [sweep, h]

/-- SWEEP with stall eviction on (R170). -/
theorem sweep_on (now : Time) (s : State) (h : cfgStallEn s.cfg = true) :
    sweep now s =
      { s with
        slots := s.slots.filter (fun e => !e.stale s.cfg now)
        mem := (s.slots.filter (Slot.stale s.cfg now)).foldl (fun m e => m.freeRows e.phys) s.mem
        out := s.out ++ (s.slots.filter (Slot.stale s.cfg now)).map (stallEvent now) } := by
  simp [sweep, h]

theorem sweep_sameFrame (now : Time) (s : State) : SameFrame s (sweep now s) ∧ (sweep now s).fbuf = s.fbuf := by
  unfold sweep
  split
  · exact ⟨⟨rfl, rfl, rfl, rfl, rfl⟩, rfl⟩
  · exact ⟨SameFrame.refl s, rfl⟩

@[simp] theorem sweep_physHints (now : Time) (s : State) : (sweep now s).physHints = s.physHints := by
  unfold sweep
  split <;> rfl

end Sys2Proof.Machine
end

