-- ==== Sys2Proof/Laws/Framer.lean ====
section
/-! SUPPORT. The magic scan, the view of a header, EXTRACT, one turn of DRAIN and PARSE_DGRAM (40_framer.md). -/

namespace Sys2Proof.Machine

theorem isMagic_iff (b0 b1 : Byte) :
    isMagic b0 b1 = true ↔ b0 = Config.magic0 ∧ b1 = Config.magic1 := by
  simp [isMagic]

/-- Where a byte string begins with the magic, its first two bytes are the magic. -/
theorem startsMagic_iff (b : List Byte) :
    startsMagic b = true ↔ ∃ rest, b = Config.magic0 :: Config.magic1 :: rest := by
  match b with
  | [] => simp [startsMagic]
  | [x] => simp [startsMagic]
  | x :: y :: rest => simp [startsMagic, isMagic_iff]

/-- The scan leaves a buffer that begins with the magic alone (R101). -/
theorem scan_of_startsMagic (b : List Byte) (h : startsMagic b = true) : scan b = b := by
  obtain ⟨rest, rfl⟩ := (startsMagic_iff b).1 h
  simp [scan, isMagic]

/-- What the scan can leave: a buffer at a magic, a final 0xEB, or nothing (R101, R102). -/
theorem scan_cases (b : List Byte) :
    startsMagic (scan b) = true ∨ scan b = [Config.magic0] ∨ scan b = [] := by
  induction b using scan.induct with
  | case1 => exact .inr (.inr rfl)
  | case2 => simp [scan]
  | case3 b h => simp [scan, h]
  | case4 b0 b1 rest h =>
    left
    simp [scan, h, startsMagic]
  | case5 b0 b1 rest h ih => simpa [scan, h] using ih

/-- The scan only discards bytes from the head (R53). -/
theorem scan_suffix (b : List Byte) : scan b <:+ b := by
  induction b using scan.induct with
  | case1 => exact List.suffix_rfl
  | case2 => simp [scan]
  | case3 b h => simp [scan, h]
  | case4 b0 b1 rest h =>
    simp only [scan, h, if_true]
    exact List.suffix_rfl
  | case5 b0 b1 rest h ih =>
    simp only [scan, h]
    exact ih.trans (List.suffix_cons _ _)

theorem scan_length_le (b : List Byte) : (scan b).length ≤ b.length := (scan_suffix b).length_le

/-- Scanning twice is scanning once. -/
theorem scan_scan (b : List Byte) : scan (scan b) = scan b := by
  rcases scan_cases b with h | h | h
  · exact scan_of_startsMagic _ h
  · rw [h]
    rfl
  · rw [h]
    rfl

theorem headerOk_iff (len : U16) : headerOk len = true ↔ 1 ≤ payloadLen len ∧ payloadLen len ≤ 128 := by
  rw [headerOk, Bool.and_eq_true, decide_eq_true_eq, decide_eq_true_eq, Config.maxPayload_val]

/-- A buffer shorter than a header is NeedMore (R103). -/
theorem headView_short (b : List Byte) (h : b.length < 8) : headView b = .needMore := by
  match b with
  | [] => rfl
  | [_] => rfl
  | [_, _] => rfl
  | [_, _, _] => rfl
  | [_, _, _, _] => rfl
  | [_, _, _, _, _] => rfl
  | [_, _, _, _, _, _] => rfl
  | [_, _, _, _, _, _, _] => rfl
  | _ :: _ :: _ :: _ :: _ :: _ :: _ :: _ :: rest =>
    simp only [List.length_cons] at h
    omega

/-- What the framer sees in a buffer of at least eight bytes (R104 to R107). -/
theorem headView_long (m0 m1 f0 f1 l0 l1 n0 n1 : Byte) (rest : List Byte) :
    headView (m0 :: m1 :: f0 :: f1 :: l0 :: l1 :: n0 :: n1 :: rest) =
      if headerOk (u16le n0 n1) then
        if rest.length < payloadLen (u16le n0 n1) then .needMore
        else .packet ⟨u16le f0 f1, u16le l0 l1, rleFlag (u16le n0 n1), rest.take (payloadLen (u16le n0 n1))⟩
      else .corrupt (u16le f0 f1) (u16le l0 l1) (u16le n0 n1) := rfl

/-- A list of at least eight bytes, taken apart. -/
theorem eight_bytes (b : List Byte) (h : 8 ≤ b.length) :
    ∃ m0 m1 f0 f1 l0 l1 n0 n1 rest, b = m0 :: m1 :: f0 :: f1 :: l0 :: l1 :: n0 :: n1 :: rest := by
  match b with
  | m0 :: m1 :: f0 :: f1 :: l0 :: l1 :: n0 :: n1 :: rest => exact ⟨m0, m1, f0, f1, l0, l1, n0, n1, rest, rfl⟩
  | [] => simp at h
  | [_] => simp at h
  | [_, _] => simp at h
  | [_, _, _] => simp at h
  | [_, _, _, _] => simp at h
  | [_, _, _, _, _] => simp at h
  | [_, _, _, _, _, _] => simp at h
  | [_, _, _, _, _, _, _] => simp at h

/-- A packet that the framer sees is complete, its length is valid and its payload follows the header. -/
theorem headView_packet (b : List Byte) (item : LineItem) (h : headView b = .packet item) :
    1 ≤ item.n ∧ item.n ≤ 128 ∧ 8 + item.n ≤ b.length ∧ item.payload = (b.drop 8).take item.n := by
  by_cases h8 : 8 ≤ b.length
  · obtain ⟨m0, m1, f0, f1, l0, l1, n0, n1, rest, rfl⟩ := eight_bytes b h8
    rw [headView_long] at h
    split at h
    · rename_i hk
      split at h
      · cases h
      · rename_i hl
        cases h
        have := (headerOk_iff _).1 hk
        have hn : (rest.take (payloadLen (u16le n0 n1))).length = payloadLen (u16le n0 n1) := by
          simp
          omega
        simp only [LineItem.n, hn, List.drop_succ_cons, List.drop_zero]
        refine ⟨this.1, this.2, ?_, trivial⟩
        simp only [List.length_cons]
        omega
    · cases h
  · rw [headView_short b (by omega)] at h
    cases h

/-- A corrupt header is a whole header (R103). -/
theorem headView_corrupt (b : List Byte) (fid : FrameId) (lid len : U16) (h : headView b = .corrupt fid lid len) :
    8 ≤ b.length ∧ headerOk len = false := by
  by_cases h8 : 8 ≤ b.length
  · obtain ⟨m0, m1, f0, f1, l0, l1, n0, n1, rest, rfl⟩ := eight_bytes b h8
    rw [headView_long] at h
    refine ⟨h8, ?_⟩
    split at h
    · split at h <;> cases h
    · rename_i hk
      cases h
      simpa using hk
  · rw [headView_short b (by omega)] at h
    cases h

/-- The three outcomes of EXTRACT, by what the framer sees in the scanned buffer (R100). -/
theorem extract_cases (b : List Byte) :
    (headView (scan b) = .needMore ∧ extract b = (.needMore, scan b)) ∨
      (∃ fid lid len, headView (scan b) = .corrupt fid lid len ∧ extract b = (.retry len, (scan b).drop 2)) ∨
      (∃ item, headView (scan b) = .packet item ∧ extract b = (.packet item, (scan b).drop (8 + item.n))) := by
  unfold extract
  cases h : headView (scan b) with
  | needMore => exact .inl ⟨rfl, by simp only [h]⟩
  | corrupt fid lid len => exact .inr (.inl ⟨fid, lid, len, rfl, by simp only [h]⟩)
  | packet item => exact .inr (.inr ⟨item, rfl, by simp only [h, Config.bsHdr_val]⟩)

/-- Every outcome but NeedMore takes at least two bytes (R108). -/
theorem extract_shrinks (b r : List Byte) (x : ExtractResult) (h : extract b = (x, r)) (hx : x ≠ .needMore) :
    r.length + 2 ≤ b.length := by
  have hs := scan_length_le b
  rcases extract_cases b with ⟨_, e⟩ | ⟨fid, lid, len, hv, e⟩ | ⟨item, hv, e⟩ <;> rw [e] at h <;> cases h
  · exact absurd rfl hx
  · have := (headView_corrupt _ _ _ _ hv).1
    simp only [List.length_drop]
    omega
  · have := headView_packet _ _ hv
    simp only [List.length_drop]
    omega

/-- One turn of DRAIN is one call of EXTRACT and the line path for what it found (R108). -/
theorem drain_succ (now : Time) (k : Nat) (s : State) :
    drain now (k + 1) s =
      match extract s.fbuf with
      | (.needMore, b) => .next { s with fbuf := b }
      | (x, b) => andThen (applyExtract now x { s with fbuf := b }) (drain now k) := by
  unfold drain extract
  cases h : headView (scan s.fbuf) with
  | needMore => simp [h]
  | corrupt fid lid len => simp [h, applyExtract, dropMagic, State.raise, State.emit]
  | packet item => simp [h, applyExtract, takePacket]

/-- A datagram of more than 138 bytes (R113, check 1). -/
theorem parseDgram_long (exact : Bool) (d : List Byte) (h : 138 < d.length) :
    parseDgram exact d = .error (.long d.length) := by
  rw [parseDgram, Config.dgramCap_val, if_pos h]

/-- A datagram of fewer than 10 bytes (R113, check 2). -/
theorem parseDgram_short (exact : Bool) (d : List Byte) (h : d.length < 10) :
    parseDgram exact d = .error (.short d.length) := by
  rw [parseDgram, Config.dgramCap_val, Config.udpHdr_val, if_neg (by omega), if_pos h]

/-- A datagram with a whole header and at most 138 bytes (R113, checks 3 to 6). -/
theorem parseDgram_header (exact : Bool) (m0 m1 ver fmt f0 f1 l0 l1 n0 n1 : Byte) (tail : List Byte)
    (h : tail.length ≤ 128) :
    parseDgram exact (m0 :: m1 :: ver :: fmt :: f0 :: f1 :: l0 :: l1 :: n0 :: n1 :: tail) =
      if !isMagic m0 m1 then .error (.magic m0 m1)
      else if ver ≠ Config.udpVersion then .error (.version ver)
      else if fmt ≠ Config.udpFormatRle8 then .error (.format fmt)
      else if dgramSizeOk exact (tail.length + 10) (u16le n0 n1).toNat then
        .ok ⟨u16le f0 f1, u16le l0 l1, true, tail.take (u16le n0 n1).toNat⟩
      else .error (.length (tail.length + 10) (u16le n0 n1)) := by
  rw [parseDgram, Config.dgramCap_val, Config.udpHdr_val, if_neg (by simp only [List.length_cons]; omega),
    if_neg (by simp only [List.length_cons]; omega)]
  rfl

end Sys2Proof.Machine
end

