-- ==== Sys2Proof/Laws/PerInstr.lean ====
section
/-! SUPPORT. A fact about every instruction as syntax: how many bits its encoding puts before the unit
that reads it. One lemma per constructor. -/

namespace Sys2Proof.Laws

/-- The bytes of an encoding, for the units that read bytes; the ports with words of their own have none. -/
def fetchBytes : Fetch → List Byte
  | .port (.byte b _) => [b]
  | .port (.dgram d _) => d
  | .port (.tick _) => []
  | .port (.reset _) => []
  | .framer b _ => b
  | .parser d _ => d
  | .codec b => b

/-- Each well-formed instruction's encoding has the length its format gives it (30_encoding.md R70, R73). -/
def EncodedLength.Statement (i : Instr) : Prop :=
  ∀ exact, i.wf exact = true →
    match i with
    | .bsRaw _ _ p _ => (fetchBytes (encode i)).length = 8 + p.length ∧ 9 ≤ 8 + p.length ∧ 8 + p.length ≤ 136
    | .bsRle _ _ p _ => (fetchBytes (encode i)).length = 8 + p.length ∧ 9 ≤ 8 + p.length ∧ 8 + p.length ≤ 136
    | .bsCorrupt _ _ _ => (fetchBytes (encode i)).length = 8
    | .udpRle8 _ _ p _ => (fetchBytes (encode i)).length = 10 + p.length ∧ 10 + p.length ≤ 138
    | .udpReject d _ => fetchBytes (encode i) = d
    | .rlePair _ _ => (fetchBytes (encode i)).length = 2
    | .rlePairZero _ => (fetchBytes (encode i)).length = 2
    | .byte _ _ => (fetchBytes (encode i)).length = 1
    | .dgram d _ => fetchBytes (encode i) = d
    | .tick _ => fetchBytes (encode i) = []
    | .reset _ => fetchBytes (encode i) = []

theorem payloadFits_iff (p : List Byte) : payloadFits p = true ↔ 1 ≤ p.length ∧ p.length ≤ 128 := by
  rw [payloadFits, Bool.and_eq_true, decide_eq_true_eq, decide_eq_true_eq, Config.maxPayload_val]

theorem EncodedLength.bsRaw (fid : FrameId) (lid : U16) (p : List Byte) (now : Time) :
    EncodedLength.Statement (.bsRaw fid lid p now) := by
  intro exact h
  have := (payloadFits_iff p).1 h
  refine ⟨?_, by omega, by omega⟩
  simp only [encode, fetchBytes, Machine.bsHeader, List.length_append, List.length_cons, List.length_nil]

theorem EncodedLength.bsRle (fid : FrameId) (lid : U16) (p : List Byte) (now : Time) :
    EncodedLength.Statement (.bsRle fid lid p now) := by
  intro exact h
  have := (payloadFits_iff p).1 h
  refine ⟨?_, by omega, by omega⟩
  simp only [encode, fetchBytes, Machine.bsHeader, List.length_append, List.length_cons, List.length_nil]

theorem EncodedLength.bsCorrupt (fid : FrameId) (lid len : U16) : EncodedLength.Statement (.bsCorrupt fid lid len) :=
  fun _ _ => rfl

theorem EncodedLength.udpRle8 (fid : FrameId) (lid : U16) (p : List Byte) (now : Time) :
    EncodedLength.Statement (.udpRle8 fid lid p now) := by
  intro exact h
  have : p.length ≤ 128 := of_decide_eq_true h
  refine ⟨?_, by omega⟩
  simp only [encode, fetchBytes, Machine.udpHeader, List.length_append, List.length_cons, List.length_nil]

theorem EncodedLength.udpReject (d : List Byte) (c : DgCause) : EncodedLength.Statement (.udpReject d c) :=
  fun _ _ => rfl

theorem EncodedLength.rlePair (count value : Byte) : EncodedLength.Statement (.rlePair count value) :=
  fun _ _ => rfl

theorem EncodedLength.rlePairZero (value : Byte) : EncodedLength.Statement (.rlePairZero value) :=
  fun _ _ => rfl

theorem EncodedLength.byte (b : Byte) (now : Time) : EncodedLength.Statement (.byte b now) := fun _ _ => rfl

theorem EncodedLength.dgram (d : List Byte) (now : Time) : EncodedLength.Statement (.dgram d now) :=
  fun _ _ => rfl

theorem EncodedLength.tick (now : Time) : EncodedLength.Statement (.tick now) := fun _ _ => rfl

theorem EncodedLength.reset (c : CfgWord) : EncodedLength.Statement (.reset c) := fun _ _ => rfl

end Sys2Proof.Laws
end

