-- ==== Sys2Proof/Laws/Transactions.lean ====
section
/-! SUPPORT. What the drain loop, the port transactions and the fetch can do, said once
(43_transactions.md, 70_reset_and_hazards.md R260). -/

namespace Sys2Proof.Machine

/-- A drain touches neither the configuration nor any transient field. -/
theorem drain_sameFrame (now : Time) (k : Nat) (s t : State) (h : drain now k s = .next t) : SameFrame s t := by
  induction k generalizing s with
  | zero =>
    cases h
    exact SameFrame.refl _
  | succ k ih =>
    unfold drain at h
    simp only at h
    split at h
    · cases h
      exact ⟨rfl, rfl, rfl, rfl, rfl⟩
    · have := ih _ h
      exact ⟨this.cfg, this.stage, this.latch, this.offers, this.params⟩
    · obtain ⟨u, hu, hk⟩ := (andThen_eq_next _ _ _).1 h
      have h1 := (lineStep_sameFrame _ _ _ _ hu).1
      have h2 := ih _ hk
      exact SameFrame.trans ⟨h1.cfg, h1.stage, h1.latch, h1.offers, h1.params⟩ h2

/-- A drain is never refused. -/
theorem drain_ne_refused (now : Time) (k : Nat) (s : State) (r : Refusal) : drain now k s ≠ .refused r := by
  induction k generalizing s with
  | zero => simp [drain]
  | succ k ih =>
    unfold drain
    simp only
    split
    · simp
    · exact ih _
    · rename_i item _
      cases ht : takePacket item now { s with fbuf := scan s.fbuf } with
      | next u => exact ih u
      | fault f => simp
      | refused r' => exact absurd ht (lineStep_ne_refused _ _ _ _)

/-- What a BYTE can answer (R200, R207). -/
theorem execByte_cases (b : Byte) (now : Time) (s : State) :
    (cfgMode s.cfg = .datagram ∧ execByte b now s = .refused .portNotReady) ∨
      (cfgMode s.cfg = .byteStream ∧ s.params.sweepAfter = false ∧
        execByte b now s = byteBody b now (sweep now s.beginTxn)) ∨
      (cfgMode s.cfg = .byteStream ∧ s.params.sweepAfter = true ∧
        execByte b now s = andThen (byteBody b now s.beginTxn) (fun t => .next (sweep now t))) := by
  unfold execByte withSweep
  cases hm : cfgMode s.cfg with
  | datagram => exact .inl ⟨rfl, rfl⟩
  | byteStream =>
    cases hp : s.params.sweepAfter with
    | false => exact .inr (.inl ⟨rfl, rfl, by simp⟩)
    | true => exact .inr (.inr ⟨rfl, rfl, by simp⟩)

/-- What a DGRAM can answer (R202, R207). -/
theorem execDgram_cases (d : List Byte) (now : Time) (s : State) :
    (cfgMode s.cfg = .byteStream ∧ execDgram d now s = .refused .portNotReady) ∨
      (cfgMode s.cfg = .datagram ∧ s.params.sweepAfter = false ∧
        execDgram d now s = dgramBody d now (sweep now s.beginTxn)) ∨
      (cfgMode s.cfg = .datagram ∧ s.params.sweepAfter = true ∧
        execDgram d now s = andThen (dgramBody d now s.beginTxn) (fun t => .next (sweep now t))) := by
  unfold execDgram withSweep
  cases hm : cfgMode s.cfg with
  | byteStream => exact .inl ⟨rfl, rfl⟩
  | datagram =>
    cases hp : s.params.sweepAfter with
    | false => exact .inr (.inl ⟨rfl, rfl, by simp⟩)
    | true => exact .inr (.inr ⟨rfl, rfl, by simp⟩)

/-- What a datagram does once its sweep is done (R202, R113). -/
theorem dgramBody_cases (d : List Byte) (now : Time) (s : State) :
    (∃ c, parseDgram s.params.udpLenExact d = .error c ∧ dgramBody d now s = .next (s.raise (.dgDrop c))) ∨
      (∃ item, parseDgram s.params.udpLenExact d = .ok item ∧ dgramBody d now s = lineStep item now s) := by
  unfold dgramBody
  cases h : parseDgram s.params.udpLenExact d with
  | error c => exact .inl ⟨c, rfl, rfl⟩
  | ok item => exact .inr ⟨item, rfl, rfl⟩

/-- What a RESET can answer (R25, R260). -/
theorem execReset_cases (c : CfgWord) (s : State) :
    (cfgWellFormed c = true ∧
        execReset c s = .next { s.beginTxn with cfg := c, fbuf := [], slots := [], mem := [] }) ∨
      (cfgWellFormed c = false ∧ execReset c s = .refused .malformedConfig) := by
  unfold execReset
  cases h : cfgWellFormed c with
  | true => exact .inl ⟨rfl, rfl⟩
  | false => exact .inr ⟨rfl, rfl⟩

/-- Between transactions the next fetch is the next offer (R208). -/
theorem fetch_offer (s : State) (o : Offer) (rest : List Offer) (hl : s.latch = none) (ho : s.offers = o :: rest) :
    fetch s = (some (.port o), { s with offers := rest }) := by
  simp [fetch, hl, ho]

/-- With nothing offered there is nothing to fetch (R268). -/
theorem fetch_idle (s : State) (hl : s.latch = none) (ho : s.offers = []) : fetch s = (none, s) := by
  simp [fetch, hl, ho]

/-- Inside a drain the next fetch is the framer's, or the drain ends (R108). -/
theorem fetch_framer (s : State) (now : Time) (hl : s.latch = some (.framer now)) :
    fetch s =
      if headView (scan s.fbuf) = .needMore then (none, { s with fbuf := scan s.fbuf, latch := none })
      else (some (.framer (scan s.fbuf) now), { s with fbuf := scan s.fbuf }) := by
  simp only [fetch, hl]
  cases headView (scan s.fbuf) <;> simp

theorem fetch_parser (s : State) (d : List Byte) (now : Time) (hl : s.latch = some (.parser d now)) :
    fetch s = (some (.parser d now), { s with latch := none }) := by
  simp [fetch, hl]

theorem fetch_codec (s : State) (count value : Byte) (hl : s.latch = some (.codec count value)) :
    fetch s = (some (.codec [count, value]), { s with latch := none }) := by
  simp [fetch, hl]

/-- A frame_id allocated beside `fid` is another one, and a line that SUBMIT takes carries it (R163). -/
theorem mem_allocatedBeside (fid g : FrameId) (ls : List (LineItem × Time)) (s : State)
    (h : g ∈ allocatedBeside fid ls s) : g ≠ fid ∧ ∃ x ∈ ls, x.1.fid = g ∧ taken x.1 = true := by
  induction ls generalizing s with
  | nil => exact (List.not_mem_nil h).elim
  | cons x ls ih =>
    have later : ∀ r : Result, (g ∈ match r with
        | .next t => allocatedBeside fid ls t
        | .fault _ => []
        | .refused _ => []) → g ≠ fid ∧ ∃ y ∈ x :: ls, y.1.fid = g ∧ taken y.1 = true := by
      intro r hr
      cases r with
      | next t =>
        obtain ⟨h1, y, hy, h2⟩ := ih t hr
        exact ⟨h1, y, List.mem_cons_of_mem _ hy, h2⟩
      | fault f => exact (List.not_mem_nil hr).elim
      | refused f => exact (List.not_mem_nil hr).elim
    rw [allocatedBeside] at h
    split at h
    · rename_i hc
      rcases List.mem_cons.1 h with rfl | h
      · simp only [Bool.and_eq_true] at hc
        refine ⟨fun he => ?_, x, List.mem_cons_self, rfl, hc.1.1⟩
        have hn := hc.2
        rw [he, Option.isNone_iff_eq_none] at hn
        rw [hn] at hc
        exact Bool.noConfusion hc.1.2
      · exact later _ h
    · exact later _ h

end Sys2Proof.Machine
end

