-- ==== Sys2Proof/Tests/Slice0.lean ====
section
/-! SUPPORT. The model's own tests: the well-formedness smoke test, words of the spec's encodings decoded,
single steps against the vectors of 95_test_vectors.md, and for each statement of
Certificates/Slice0/Obligations.lean with hypotheses a concrete state and operands that meet them. -/

namespace Sys2Proof.Tests

open Sys2Proof.Machine

set_option Elab.async false

/-- The next state of an outcome. -/
def nextOf : Result → Option State
  | .next s => some s
  | .fault _ => none
  | .refused _ => none

/-- What a test looks at of a slot: its frame_id, its lines, its three counters and its time. -/
structure SlotLook where
  fid : FrameId
  lines : List Nat
  nLines : Nat
  bytes : Nat
  rles : Nat
  time : Time
deriving DecidableEq, Repr

/-- What a test looks at of a state: the framer buffer, the slots without their rows, and the outputs. -/
structure Look where
  fbuf : List Byte
  slots : List SlotLook
  out : List Output
deriving DecidableEq, Repr

/-- `n` copies of a byte. -/
abbrev rep (n : Nat) (v : Byte) : List Byte := List.replicate n v

/-- `CFG_BS` of 95_test_vectors.md. -/
abbrev cfgBs : CfgWord := 0x0000000007D00010
/-- `CFG_DG` of 95_test_vectors.md. -/
abbrev cfgDg : CfgWord := 0x0000000007D00013

/-- The state after RESET with a configuration word. -/
def start (c : CfgWord) : State := { State.reset with cfg := c }

/-- The lines present in a slot. -/
def linesOf (e : Slot) : List Nat := (List.range 342).filter (fun l => e.has l)

/-- What of an outcome's next state a test looks at. -/
def look (r : Result) : Option Look :=
  (nextOf r).map (fun s => ⟨s.fbuf, s.slots.map (fun e =>
    ⟨e.fid, linesOf e, e.nLines.toNat, e.byteCount.toNat, e.rleLineCount.toNat, e.tLast⟩), s.out⟩)

/-- A row of the next state's line buffer. -/
def rowOf (r : Result) (p l : Nat) : Option (List Byte) :=
  (nextOf r).map (fun s => storedRow s p l)

/-- A slot that holds the one line `l`, with a payload of 2 RLE8 bytes. -/
def slotWith (phys : Nat) (fid : FrameId) (l : Nat) (t : Time) : Slot :=
  { phys := phys, fid := fid, present := presentWith 0 l, nLines := 1, byteCount := 2, rleLineCount := 1, tLast := t }

/-- A line buffer that holds the row `r` as line `l` of each of the physical slots `ps`. -/
@[irreducible] def rowsMem (ps : List Nat) (l : Nat) (r : List Byte) : Memory :=
  ps.foldl (fun m p => Memory.writeBytes m (lbAddr p l 0) r) []

/-- A state whose slots all hold line `l` alone, every byte `v`. -/
def frames (c : CfgWord) (slots : List Slot) (l : Nat) (v : Byte) : State :=
  { start c with slots := slots, mem := rowsMem (slots.map Slot.phys) l (rep 64 v) }

/-- The state of the SUBMIT example of R161: frame 3 with line 10, all zeros, of time 100. -/
def sOne : State := frames cfgDg [slotWith 0 3 10 100] 10 0

/-! ## Well-formedness: one ill-formed term for each check -/

theorem test_wf_raw_empty : Instr.wf true (.bsRaw 0 5 [] 0) = false := by decide +kernel
theorem test_wf_raw_long : Instr.wf true (.bsRaw 0 5 (rep 129 0) 0) = false := by decide +kernel
theorem test_wf_rle_empty : Instr.wf true (.bsRle 0 5 [] 0) = false := by decide +kernel
theorem test_wf_rle_long : Instr.wf true (.bsRle 0 5 (rep 129 0) 0) = false := by decide +kernel
theorem test_wf_corrupt_valid_length : Instr.wf true (.bsCorrupt 0 5 0x8080) = false := by decide +kernel
theorem test_wf_udp_long : Instr.wf true (.udpRle8 0 5 (rep 129 0) 0) = false := by decide +kernel
theorem test_wf_reject_of_good :
    Instr.wf true (.udpReject [0xEB, 0xD1, 1, 1, 9, 0, 7, 0, 2, 0, 0x40, 0xFF] (.length 12 2)) = false := by
  decide +kernel
theorem test_wf_reject_wrong_cause : Instr.wf true (.udpReject [] (.long 0)) = false := by decide +kernel
theorem test_wf_pair_zero : Instr.wf true (.rlePair 0 0x11) = false := by decide +kernel
theorem test_wf_reset_no_window : Instr.wf true (.reset 0x0000000007D00000) = false := by decide +kernel
theorem test_wf_reset_low_reserved : Instr.wf true (.reset 0x0000000007D00110) = false := by decide +kernel
theorem test_wf_reset_high_reserved : Instr.wf true (.reset 0x0001000007D00010) = false := by decide +kernel

/-! ## Words of the encodings (30_encoding.md R71 to R78, opcode_table.json), bit by bit -/

/-- R78's example header: magic, frame_id 0, line_id 5 low byte first, len 0x0040 low byte first. -/
theorem test_decode_bs_raw :
    decodeTableWord 64 0b1110101111010001000000000000000000000101000000000100000000000000 =
      some (.bsRaw 0 5 (rep 64 0) 0) := by decide +kernel
/-- frame_id bytes 02 01, line_id bytes 04 03, len bytes 02 80: the RLE flag is bit 7 of the last byte. -/
theorem test_decode_bs_rle :
    decodeTableWord 64 0b1110101111010001000000100000000100000100000000110000001010000000 =
      some (.bsRle 0x0102 0x0304 [0, 0] 0) := by decide +kernel
/-- len bytes 81 00: 129. -/
theorem test_decode_bs_corrupt :
    decodeTableWord 64 0b1110101111010001000000000000000000000110000000001000000100000000 =
      some (.bsCorrupt 0 6 0x0081) := by decide +kernel
/-- version 1, format 1, frame_id bytes 34 12, line_id bytes 55 01, payload_len bytes 02 00. -/
theorem test_decode_udp :
    decodeTableWord 80
      0b11101011110100010000000100000001001101000001001001010101000000010000001000000000 =
      some (.udpRle8 0x1234 0x0155 [0, 0] 0) := by decide +kernel
/-- version 2. -/
theorem test_decode_udp_reject :
    decodeTableWord 80
      0b11101011110100010000001000000001000000000000000000000000000000000000000000000000 =
      some (.udpReject [0xEB, 0xD1, 2, 1, 0, 0, 0, 0, 0, 0] (.version 2)) := by decide +kernel
/-- count 64 in bits 15:8, value 0xFF in bits 7:0. -/
theorem test_decode_pair : decodeTableWord 16 0b0100000011111111 = some (.rlePair 64 0xFF) := by decide +kernel
theorem test_decode_pair_zero : decodeTableWord 16 0b0000000000010001 = some (.rlePairZero 0x11) := by
  decide +kernel
theorem test_decode_byte : decodeTableWord 8 0b10101010 = some (.byte 0xAA 0) := by decide +kernel
/-- A datagram of 12 bytes. -/
theorem test_decode_dgram :
    decodeTableWord 96 0xEBD1010109000700020040FF =
      some (.dgram [0xEB, 0xD1, 1, 1, 9, 0, 7, 0, 2, 0, 0x40, 0xFF] 0) := by decide +kernel
theorem test_decode_tick : decodeTableWord 32 0b00000000000000000000011111010001 = some (.tick 2001) := by
  decide +kernel
/-- The word of R260's example: stall_window 2000, bs_window 1, stall_en 1, mode 1. -/
theorem test_decode_reset :
    decodeTableWord 64 0b0000000000000000000000000000000000000111110100000000000000010011 =
      some (.reset cfgDg) := by decide +kernel
/-- bs_window 0 matches no row (R25). -/
theorem test_decode_malformed : decodeTableWord 64 0x0000000007D00000 = none := by decide +kernel

/-! ## EXTRACT and PARSE_DGRAM (95_test_vectors.md 2.1 and 2.2) -/

theorem test_extract_overlap : extract [0xEB, 0xEB, 0xD1] = (.needMore, [0xEB, 0xD1]) := by decide +kernel
theorem test_extract_second_magic :
    extract [0xEB, 0xD1, 0xEB, 0xD1, 0, 0, 0, 0] = (.retry 0, [0xEB, 0xD1, 0, 0, 0, 0]) := by decide +kernel
theorem test_extract_packet :
    extract [0xEB, 0xD1, 0xFF, 0xFF, 0xFF, 0xFF, 0x02, 0x80, 0x40, 0x00, 0xEB] =
      (.packet ⟨0xFFFF, 0xFFFF, true, [0x40, 0x00]⟩, [0xEB]) := by decide +kernel
theorem test_parse_trailing_byte :
    parseDgram true [0xEB, 0xD1, 1, 1, 0, 0, 0, 0, 2, 0, 0x40, 0, 0] = .error (.length 13 2) ∧
    parseDgram false [0xEB, 0xD1, 1, 1, 0, 0, 0, 0, 2, 0, 0x40, 0, 0] = .ok ⟨0, 0, true, [0x40, 0]⟩ := by
  decide +kernel

/-! ## The codec (95_test_vectors.md 2.3 and 2.4) -/

theorem test_rle_rows :
    decodeRle [0x20, 0xFF, 0x20, 0x00] = .row (rep 32 0xFF ++ rep 32 0x00) ∧
    decodeRle [0x02, 0x01, 0x3E, 0x02] = .row ([1, 1] ++ rep 62 2) := by decide +kernel
theorem test_rle_reasons :
    decodeRle [0x40] = .invalid .rleOdd ∧ decodeRle [] = .invalid .rleShort ∧
    decodeRle [0x40, 0x00, 0x00, 0x11] = .invalid .rleZero ∧
    decodeRle [0x40, 0x00, 0x01, 0x11] = .invalid .rleOver ∧ decodeRle [0x3F, 0x00] = .invalid .rleShort := by
  decide +kernel
theorem test_expand :
    expandByte false 0xA5 = [0xFF, 0, 0xFF, 0, 0, 0xFF, 0, 0xFF] ∧
    expandByte true 0xA5 = [0, 0xFF, 0, 0xFF, 0xFF, 0, 0xFF, 0] ∧
    expandByte false 0x01 = [0, 0, 0, 0, 0, 0, 0, 0xFF] := by decide +kernel

/-! ## Single steps (95_test_vectors.md S1, 2.2, 2.5 to 2.7, P1; 43_transactions.md) -/

/-- S1. -/
theorem test_raw_inserts :
    look (exec (.bsRaw 0 5 (rep 64 0xAA) 0)
        { start cfgBs with fbuf := [0xEB, 0xD1, 0, 0, 5, 0, 0x40, 0] ++ rep 64 0xAA }) =
      some ⟨[], [⟨0, [5], 1, 64, 0, 0⟩], []⟩ := by decide +kernel
/-- 2.3: a raw payload of 63 bytes; a byte after the packet stays. -/
theorem test_raw_length :
    look (exec (.bsRaw 0 5 (rep 63 0x3C) 0)
        { start cfgBs with fbuf := [0xEB, 0xD1, 0, 0, 5, 0, 0x3F, 0] ++ rep 63 0x3C ++ [0xEB] }) =
      some ⟨[0xEB], [], [.event (.lineInvalid 0 5 .rawLen)]⟩ := by decide +kernel
/-- P1 at t=2: the row of line 7. -/
theorem test_rle_row :
    rowOf (exec (.bsRle 0 7 [0x20, 0xFF, 0x20, 0x00] 2)
        { start cfgBs with fbuf := [0xEB, 0xD1, 0, 0, 7, 0, 4, 0x80, 0x20, 0xFF, 0x20, 0x00] }) 0 7 =
      some (rep 32 0xFF ++ rep 32 0x00) := by decide +kernel
/-- A second line of the frame, in BYTESTREAM mode: both rows, the counters and the time. -/
theorem test_rle_second_line :
    let r := exec (.bsRle 3 341 [0x20, 0xFF, 0x20, 0x00] 150)
      { sOne with cfg := cfgBs, fbuf := [0xEB, 0xD1, 3, 0, 0x55, 1, 4, 0x80, 0x20, 0xFF, 0x20, 0x00] }
    look r = some ⟨[], [⟨3, [10, 341], 2, 6, 2, 150⟩], []⟩ ∧
    rowOf r 0 10 = some (rep 64 0) ∧ rowOf r 0 341 = some (rep 32 0xFF ++ rep 32 0) := by decide +kernel
/-- P1 at t=1. -/
theorem test_corrupt :
    look (exec (.bsCorrupt 0 6 0) { start cfgBs with fbuf := [0xEB, 0xD1, 0, 0, 6, 0, 0, 0] }) =
      some ⟨[0, 0, 6, 0, 0, 0], [], [.event (.hdrCorrupt 0)]⟩ := by decide +kernel
/-- 2.5, second row: the duplicate keeps the row, the counters and the time. -/
theorem test_udp_duplicate :
    look (exec (.udpRle8 3 10 [0x40, 0x77] 150) sOne) =
      some ⟨[], [⟨3, [10], 1, 2, 1, 100⟩], [.event (.lineDup 3 10)]⟩ ∧
    rowOf (exec (.udpRle8 3 10 [0x40, 0x77] 150) sOne) 0 10 = some (rep 64 0) := by decide +kernel
/-- 2.2: version 2. -/
theorem test_reject :
    look (exec (.udpReject [0xEB, 0xD1, 2, 1, 15, 0, 0, 0, 2, 0, 0x40, 0] (.version 2)) sOne) =
      some ⟨[], [⟨3, [10], 1, 2, 1, 100⟩], [.event (.dgDrop (.version 2))]⟩ := by decide +kernel
/-- R132: one pair on an empty staging row, and one that overflows it. -/
theorem test_pair_appends :
    (nextOf (exec (.rlePair 32 0xFF) (start cfgBs))).map (fun s => s.stage.row) = some (rep 32 0xFF) := by
  decide +kernel
theorem test_pair_overflows :
    (nextOf (exec (.rlePair 1 0x11) { start cfgBs with stage := ⟨4, 9, rep 64 0⟩ })).map
        (fun s => (s.stage, s.out)) =
      some (Staging.idle, [.event (.lineInvalid 4 9 .rleOver)]) := by decide +kernel
/-- R137's corner case: a zero count after pairs that already total 64. -/
theorem test_pair_zero :
    (nextOf (exec (.rlePairZero 0x11) { start cfgBs with stage := ⟨4, 9, rep 64 0⟩ })).map
        (fun s => (s.stage, s.out)) =
      some (Staging.idle, [.event (.lineInvalid 4 9 .rleZero)]) := by decide +kernel
/-- R200's example. -/
theorem test_byte_completes :
    look (exec (.byte 0xAA 5) { start cfgBs with fbuf := [0xEB, 0xD1, 0, 0, 5, 0, 0x40, 0] ++ rep 63 0xAA }) =
      some ⟨[], [⟨0, [5], 1, 64, 0, 5⟩], []⟩ := by decide +kernel
/-- 2.7: no step in DATAGRAM mode. -/
theorem test_byte_refused : exec (.byte 0 0) (start cfgDg) = .refused .portNotReady := rfl
/-- R202's example. -/
theorem test_dgram :
    look (exec (.dgram [0xEB, 0xD1, 1, 1, 9, 0, 7, 0, 2, 0, 0x40, 0xFF] 0) (start cfgDg)) =
      some ⟨[], [⟨9, [7], 1, 2, 1, 0⟩], []⟩ := by decide +kernel
/-- P3 at t=4000, D14: the sweep comes before the line. -/
theorem test_dgram_sweeps_first :
    look (exec (.dgram [0xEB, 0xD1, 1, 1, 3, 0, 10, 0, 2, 0, 0x40, 0x77] 2101) sOne) =
      some ⟨[], [⟨3, [10], 1, 2, 1, 2101⟩], [.event (.evictStall 3 1 2001)]⟩ := by decide +kernel
/-- 2.6: age 2000 stays, age 2001 goes. -/
theorem test_tick_boundary :
    look (exec (.tick 2100) sOne) = some ⟨[], [⟨3, [10], 1, 2, 1, 100⟩], []⟩ ∧
    look (exec (.tick 2101) sOne) = some ⟨[], [], [.event (.evictStall 3 1 2001)]⟩ := by decide +kernel
/-- 2.6, fourth row: the age wraps. -/
theorem test_tick_wrap :
    look (exec (.tick 100) { sOne with slots := [slotWith 0 1 10 4294967000] }) =
      some ⟨[], [⟨1, [10], 1, 2, 1, 4294967000⟩], []⟩ := by decide +kernel
/-- R260's example. -/
theorem test_reset :
    nextOf (exec (.reset cfgDg) { sOne with cfg := cfgBs, fbuf := [0xEB, 0xD1, 0] }) = some (start cfgDg) := by
  decide +kernel
/-- 2.7: bit 8 set. -/
theorem test_reset_refused : exec (.reset 0x0000000007D00110) sOne = .refused .malformedConfig := rfl

/-! ## States for the witnesses -/

/-- Four frames in flight in DATAGRAM mode, each with its line 0, oldest first: fids 1 to 4. -/
def sFour : State :=
  frames cfgDg [slotWith 2 1 0 0, slotWith 0 2 0 0, slotWith 3 3 0 0, slotWith 1 4 0 0] 0 0xF0

/-- `sOne` with its frame in physical slot 2, and with other free values to come. -/
def sOneElsewhere : State := { frames cfgDg [slotWith 2 3 10 100] 10 0 with physHints := [3, 1] }

/-- A line buffer that holds `n` equal bytes from `a` on. -/
@[irreducible] def runMem (n a : Nat) (v : Byte) : Memory := Memory.writeBytes [] a (List.replicate n v)

/-- Frame 7 with all its lines but line 0, each of 64 payload bytes. -/
def slotAlmost : Slot :=
  { phys := 0, fid := 7, present := ~~~(1#342), nLines := 341, byteCount := 21824, rleLineCount := 0, tLast := 0 }

/-- One frame in flight, all of it present but line 0. -/
def sAlmost : State :=
  { start cfgDg with slots := [slotAlmost], mem := runMem 21824 64 0xA5 }

/-- The block's invariants hold of the state after a RESET. -/
theorem start_inv (c : CfgWord) (h : cfgWellFormed c = true) : BlockInv (start c) where
  assembler := ⟨h, Nat.zero_le _, List.Pairwise.nil, List.Pairwise.nil, fun _ he => (List.not_mem_nil he).elim,
    fun _ he => (List.not_mem_nil he).elim, List.Pairwise.nil, fun _ he => (List.not_mem_nil he).elim,
    fun _ hc => (List.not_mem_nil hc).elim⟩
  framer := ⟨rfl, fun _ => rfl⟩
  stage := rfl
  latch := rfl

theorem slotWith_ok (phys : Nat) (fid : FrameId) (l : Nat) (t : Time) (h : presentCount (presentWith 0 l) = 1) :
    SlotOk (slotWith phys fid l t) :=
  ⟨h.symm, (by decide : 1 ≤ 1), (by decide : 1 < 342), (by decide : 1 ≤ 1), (by decide : 1 ≤ 2),
    (by decide : 2 ≤ 128 * 1)⟩

theorem slotWith_has (phys : Nat) (fid : FrameId) (l k : Nat) (t : Time) (h : (slotWith phys fid l t).has k = true) :
    k = l := by
  rw [Slot.has, slotWith, getLsbD_presentWith] at h
  simp at h
  exact h.2.symm

theorem slotWith_has_self (phys : Nat) (fid : FrameId) (l : Nat) (t : Time) (h : l < 342) :
    (slotWith phys fid l t).has l = true := by
  rw [Slot.has, slotWith, getLsbD_presentWith]
  simp [h]

/-- What the rows written one after the other onto a line buffer leave in it. -/
theorem rows_facts (l : Nat) (r : List Byte) (hr : r.length = 64) (hl : l < 342) (ps : List Nat) (m : Memory) :
    let m' := ps.foldl (fun m p => Memory.writeBytes m (lbAddr p l 0) r) m
    (m.wf → m'.wf) ∧
    (∀ p b, b < 64 → (p ∈ ps ∨ (m.read (lbAddr p l b)).isSome = true) → (m'.read (lbAddr p l b)).isSome = true) ∧
    (∀ c ∈ m', c ∈ m ∨ ∃ p ∈ ps, physOf c.1 = p ∧ lineOf c.1 = l) := by
  induction ps generalizing m with
  | nil => exact ⟨id, fun p b _ h => h.resolve_left (List.not_mem_nil), fun c h => .inl h⟩
  | cons q ps ih =>
    obtain ⟨h1, h2, h3⟩ := ih (Memory.writeBytes m (lbAddr q l 0) r)
    refine ⟨fun h => h1 (Memory.wf_writeBytes _ _ _ h), fun p b hb h => h2 p b hb ?_, fun c hc => ?_⟩
    · by_cases hp : p ∈ ps
      · exact .inl hp
      · refine .inr ?_
        rw [Memory.read_writeBytes, hr]
        split
        · rw [List.getElem?_eq_getElem (by omega)]
          rfl
        · rename_i hn
          rcases h with h | h
          · rcases List.mem_cons.1 h with rfl | h
            · exact absurd ⟨by simp only [lbAddr]; omega, by simp only [lbAddr]; omega⟩ hn
            · exact absurd h hp
          · exact h
    · rcases h3 c hc with h | ⟨p, hp, h⟩
      · rcases Memory.mem_writeBytes _ _ _ _ h with h | h
        · rw [hr] at h
          refine .inr ⟨q, List.mem_cons_self, ?_⟩
          simp only [lbAddr, physOf, lineOf, Config.lines_val, Config.rowBytes_val] at h ⊢
          omega
        · exact .inl h
      · exact .inr ⟨p, List.mem_cons_of_mem _ hp, h⟩

theorem frames_inv (c : CfgWord) (slots : List Slot) (l : Nat) (v : Byte) (hl : l < 342)
    (h1 : presentCount (presentWith 0 l) = 1) (hc : cfgWellFormed c = true) (hw : slots.length ≤ windowSize c)
    (hf : (slots.map Slot.fid).Nodup) (hp : (slots.map Slot.phys).Nodup)
    (hb : ∀ e ∈ slots, e.phys < windowSize c) (hs : ∀ e ∈ slots, ∃ p f t, e = slotWith p f l t) :
    AssemblerInv (frames c slots l v) where
  cfg := hc
  window := hw
  fids := hf
  physes := hp
  physBound := hb
  slots := by
    intro e he
    obtain ⟨p, f, t, rfl⟩ := hs e he
    exact slotWith_ok p f l t h1
  canonical := by
    simp only [frames, rowsMem]
    exact (rows_facts l (rep 64 v) List.length_replicate hl _ []).1 Memory.wf_nil
  held := by
    intro e he k _ hk b hb'
    have hk' : k = l := by
      obtain ⟨p, f, t, rfl⟩ := hs e he
      exact slotWith_has p f l k t hk
    subst hk'
    simp only [frames, rowsMem]
    exact (rows_facts k (rep 64 v) List.length_replicate hl _ []).2.1 e.phys b hb' (.inl (List.mem_map_of_mem he))
  only := by
    intro x hx
    simp only [frames, rowsMem] at hx
    rcases (rows_facts l (rep 64 v) List.length_replicate hl _ []).2.2 x hx with h | ⟨p, h, hp', hl'⟩
    · exact (List.not_mem_nil h).elim
    · obtain ⟨e, he, rfl⟩ := List.mem_map.1 h
      refine ⟨e, he, hp'.symm, ?_⟩
      obtain ⟨q, f, t, rfl⟩ := hs e he
      rw [hl']
      exact slotWith_has_self q f l t hl

theorem sOne_inv : AssemblerInv sOne := by
  refine frames_inv _ _ _ _ (by decide) (by decide +kernel) (by decide) (by decide) (by decide) (by decide)
    (by decide) ?_
  intro e he
  exact ⟨0, 3, 100, List.mem_singleton.1 he⟩

theorem sOneElsewhere_inv : AssemblerInv sOneElsewhere := by
  have h : AssemblerInv (frames cfgDg [slotWith 2 3 10 100] 10 0) := by
    refine frames_inv _ _ _ _ (by decide) (by decide +kernel) (by decide) (by decide) (by decide) (by decide)
      (by decide) ?_
    intro e he
    exact ⟨2, 3, 100, List.mem_singleton.1 he⟩
  exact ⟨h.cfg, h.window, h.fids, h.physes, h.physBound, h.slots, h.canonical, h.held, h.only⟩

theorem sFour_inv : AssemblerInv sFour := by
  refine frames_inv _ _ _ _ (by decide) (by decide +kernel) (by decide) (by decide) (by decide) (by decide)
    (by decide) ?_
  intro e he
  simp only [List.mem_cons, List.not_mem_nil, or_false] at he
  rcases he with rfl | rfl | rfl | rfl
  · exact ⟨2, 1, 0, rfl⟩
  · exact ⟨0, 2, 0, rfl⟩
  · exact ⟨3, 3, 0, rfl⟩
  · exact ⟨1, 4, 0, rfl⟩

/-- Every line but line 0 is present in `slotAlmost`. -/
theorem slotAlmost_has : ∀ l < 342, slotAlmost.has l = decide (1 ≤ l) := by decide +kernel

/-- What a byte of such a line buffer reads as. -/
theorem read_run (n a x : Nat) (v : Byte) :
    (runMem n a v).read x = if a ≤ x ∧ x < a + n then some v else none := by
  rw [runMem, Memory.read_writeBytes, List.length_replicate]
  by_cases h : a ≤ x ∧ x < a + n
  · rw [if_pos h, if_pos h, List.getElem?_replicate, if_pos (by omega)]
  · rw [if_neg h, if_neg h, Memory.read_nil]

/-- The addresses that such a line buffer lists. -/
theorem mem_run (n a : Nat) (v : Byte) (c : Host.Cell) (h : c ∈ runMem n a v) : a ≤ c.1 ∧ c.1 < a + n := by
  rw [runMem] at h
  rcases Memory.mem_writeBytes _ _ _ _ h with h | h
  · rwa [List.length_replicate] at h
  · exact (List.not_mem_nil h).elim

theorem wf_run (n a : Nat) (v : Byte) : (runMem n a v).wf := by
  rw [runMem]
  exact Memory.wf_writeBytes _ _ _ Memory.wf_nil

/-- What a byte of `sAlmost`'s line buffer reads as. -/
theorem sAlmost_read (a : Nat) : sAlmost.mem.read a = if 64 ≤ a ∧ a < 64 + 21824 then some 0xA5 else none :=
  read_run 21824 64 a 0xA5

theorem sAlmost_inv : AssemblerInv sAlmost where
  cfg := by decide +kernel
  window := Nat.le_of_lt (by decide : 1 < 4)
  fids := List.pairwise_singleton _ _
  physes := List.pairwise_singleton _ _
  physBound := by
    intro e he
    obtain rfl := List.mem_singleton.1 he
    exact (by decide : 0 < 4)
  slots := by
    intro e he
    obtain rfl := List.mem_singleton.1 he
    exact ⟨by decide +kernel, by decide, by decide, by decide, by decide, by decide⟩
  canonical := wf_run _ _ _
  held := by
    intro e he l hl hh b hb
    obtain rfl := List.mem_singleton.1 he
    simp only [Config.lines_val, Config.rowBytes_val] at hl hb
    rw [slotAlmost_has l hl, decide_eq_true_eq] at hh
    have ha : lbAddr slotAlmost.phys l b = l * 64 + b := by simp [lbAddr, slotAlmost]
    rw [ha, sAlmost_read, if_pos (by omega)]
    rfl
  only := by
    intro c hc
    refine ⟨slotAlmost, List.mem_singleton.2 rfl, ?_⟩
    have hr : 64 ≤ c.1 ∧ c.1 < 64 + 21824 := mem_run 21824 64 0xA5 c hc
    refine ⟨?_, ?_⟩
    · show 0 = physOf c.1
      simp only [physOf, Config.lines_val, Config.rowBytes_val]
      omega
    · rw [slotAlmost_has _ (by simp only [lineOf, Config.lines_val]; omega), decide_eq_true_eq]
      simp only [lineOf, Config.lines_val, Config.rowBytes_val]
      omega

/-! ## Witnesses: operands and states that meet the hypotheses of each statement, clause by clause -/

/-- A result that has a next state. -/
theorem next_of_isSome (r : Result) (h : (nextOf r).isSome = true) : ∃ t, r = .next t := by
  cases r with
  | next t => exact ⟨t, rfl⟩
  | fault f => cases h
  | refused f => cases h

/-- The 15 bits of a length, and the length with its flag, from the two bytes of a header. -/
abbrev lenOf (n0 n1 : Byte) : Nat := n0.toNat + 256 * n1.toNat

theorem witness_DecodeEncodeRoundTrip :
    Instr.wf true (.bsRaw 0xFFFF 0 [0] 5) = true ∧ Instr.wf true (.bsRaw 0 0 (rep 128 0) 5) = true ∧
    Instr.wf true (.bsRle 0 0xFFFF [0] 5) = true ∧ Instr.wf true (.bsRle 0 0 (rep 128 0) 5) = true ∧
    Instr.wf true (.bsCorrupt 0 0 0) = true ∧ Instr.wf true (.bsCorrupt 0 0 0x8081) = true ∧
    Instr.wf true (.udpRle8 0 0 [] 5) = true ∧ Instr.wf false (.udpRle8 0 0 (rep 128 0) 5) = true ∧
    Instr.wf true (.udpReject [] (.short 0)) = true ∧ Instr.wf true (.udpReject (rep 139 0) (.long 139)) = true ∧
    Instr.wf true (.rlePair 1 0) = true ∧ Instr.wf true (.rlePair 255 0) = true ∧
    Instr.wf true (.rlePairZero 0) = true ∧ Instr.wf true (.byte 0xFF 5) = true ∧
    Instr.wf true (.dgram [] 5) = true ∧ Instr.wf true (.tick 0xFFFFFFFF) = true ∧
    Instr.wf true (.reset cfgBs) = true ∧ Instr.wf true (.reset 0x0000FFFFFFFF00FF) = true := by decide +kernel

theorem witness_PacketClassFollowsLength :
    (lenOf 0 0x80 % 32768 = 0 ∨ 128 < lenOf 0 0x80 % 32768) ∧
    (lenOf 129 0 % 32768 = 0 ∨ 128 < lenOf 129 0 % 32768) ∧
    (1 ≤ lenOf 1 0 % 32768 ∧ lenOf 1 0 % 32768 ≤ 128 ∧ ([] : List Byte).length < lenOf 1 0 % 32768) ∧
    (1 ≤ lenOf 128 0x80 % 32768 ∧ lenOf 128 0x80 % 32768 ≤ 128 ∧ (rep 127 0).length < lenOf 128 0x80 % 32768) ∧
    (1 ≤ lenOf 1 0 % 32768 ∧ lenOf 1 0 % 32768 ≤ 128 ∧ lenOf 1 0 % 32768 ≤ (rep 1 0).length ∧
      lenOf 1 0 < 32768) ∧
    (1 ≤ lenOf 128 0x80 % 32768 ∧ lenOf 128 0x80 % 32768 ≤ 128 ∧
      lenOf 128 0x80 % 32768 ≤ (rep 128 0).length ∧ 32768 ≤ lenOf 128 0x80) := by decide +kernel

theorem witness_DatagramChecksInOrder :
    138 < (rep 139 0).length ∧ (rep 9 0).length < 10 ∧ ([] : List Byte).length < 10 ∧
    ((rep 138 0) = [0, 0, 0, 0, 0, 0, 0, 0, 0, 0] ++ rep 128 0 ∧ (rep 138 0).length ≤ 138 ∧
      ¬((0 : Byte) = 0xEB ∧ (0 : Byte) = 0xD1)) ∧
    ((2 : Byte) ≠ 1 ∧ (0 : Byte) ≠ 1) ∧
    (([0xEB, 0xD1, 1, 1, 0, 0, 0, 0, 1, 0] : List Byte).length ≤ 138 ∧ ([] : List Byte).length ≠ lenOf 1 0 ∧
      ([] : List Byte).length < lenOf 1 0) ∧
    (([0xEB, 0xD1, 1, 1, 0, 0, 0, 0, 0, 0] : List Byte).length ≤ 138 ∧ ([] : List Byte).length = lenOf 0 0 ∧
      lenOf 0 0 ≤ ([] : List Byte).length) ∧
    ((10 + (rep 128 0).length) ≤ 138 ∧ (rep 128 0).length = lenOf 128 0 ∧ lenOf 127 0 ≤ (rep 128 0).length) := by
  decide +kernel

theorem noMagic_13_EB : ∀ i, ¬magicAt [0x13, 0xEB] i := by
  intro i h
  match i with
  | 0 => exact absurd h.1 (by decide)
  | 1 => exact absurd h.2 (by decide)
  | n + 2 => exact absurd h.1 (by simp)

theorem noMagic_13_37_EB : ∀ i, ¬magicAt [0x13, 0x37, 0xEB] i := by
  intro i h
  match i with
  | 0 => exact absurd h.1 (by decide)
  | 1 => exact absurd h.1 (by decide)
  | 2 => exact absurd h.2 (by decide)
  | n + 3 => exact absurd h.1 (by simp)

theorem noMagic_nil : ∀ i, ¬magicAt [] i := fun i h => absurd h.1 (by simp)

theorem witness_NoMagicKeepsOnlyFinalByte :
    (∀ i, ¬magicAt [0x13, 0xEB] i) ∧ (∀ i, ¬magicAt [] i) := ⟨noMagic_13_EB, noMagic_nil⟩

theorem witness_FirstMagicIsTaken :
    magicAt [0xEB, 0xEB, 0xD1] 1 ∧ (∀ j < 1, ¬magicAt [0xEB, 0xEB, 0xD1] j) ∧
    headView (([0xEB, 0xEB, 0xD1] : List Byte).drop 1) = .needMore := by
  refine ⟨⟨rfl, rfl⟩, ?_, rfl⟩
  intro j hj h
  obtain rfl : j = 0 := by omega
  exact absurd h.2 (by decide)

theorem witness_GarbageThenPacket :
    (∀ i, ¬magicAt [0x13, 0x37, 0xEB] i) ∧
    (1 ≤ LineItem.n ⟨0, 5, false, [0x11]⟩ ∧ LineItem.n ⟨0, 5, false, [0x11]⟩ ≤ 128) ∧
    (1 ≤ LineItem.n ⟨0, 5, true, rep 128 0⟩ ∧ LineItem.n ⟨0, 5, true, rep 128 0⟩ ≤ 128) :=
  ⟨noMagic_13_37_EB, by decide +kernel, by decide +kernel⟩

theorem witness_CorruptHeaderCostsTwoBytes :
    ((0 : U16).toNat % 32768 = 0 ∨ 128 < (0 : U16).toNat % 32768) ∧
    ((0x8000 : U16).toNat % 32768 = 0 ∨ 128 < (0x8000 : U16).toNat % 32768) ∧
    ((0x8081 : U16).toNat % 32768 = 0 ∨ 128 < (0x8081 : U16).toNat % 32768) := by decide

/-- The longest buffer that still waits: a complete header and 127 of its 128 payload bytes. -/
theorem witness_NeedMoreIsBoundedAndStable :
    extract [] = (.needMore, []) ∧
    extract ([0xEB, 0xD1, 0, 0, 5, 0, 0x80, 0] ++ rep 127 0) =
      (.needMore, [0xEB, 0xD1, 0, 0, 5, 0, 0x80, 0] ++ rep 127 0) := by decide +kernel

theorem witness_RleReasonIsFirstFailure :
    ([0x40] : List Byte).length % 2 = 1 ∧
    ((∀ q ∈ ([(0x40, 0)] : List (Byte × Byte)), 1 ≤ q.1.toNat) ∧ (pairExpansion [(0x40, 0)]).length ≤ 64) ∧
    (1 ≤ (1 : Byte).toNat ∧ 64 < (pairExpansion [(0x40, 0)]).length + (1 : Byte).toNat) ∧
    ((∀ q ∈ ([(0x3F, 0)] : List (Byte × Byte)), 1 ≤ q.1.toNat) ∧ (pairExpansion [(0x3F, 0)]).length < 64) := by
  simp [pairExpansion]

/-- A list of runs of 1 expands to their values. -/
theorem runs_of_one (x : List Byte) : pairExpansion (x.map (fun v => ((1 : Byte), v))) = x := by
  induction x with
  | nil => rfl
  | cons v x ih => exact congrArg (v :: ·) ih

/-- The encoder that writes every byte as a run of 1. -/
theorem witness_RleRoundTrip :
    (∀ x : List Byte, x.length = 64 →
      (∀ q ∈ x.map (fun v => ((1 : Byte), v)), 1 ≤ q.1.toNat) ∧
        pairExpansion (x.map (fun v => ((1 : Byte), v))) = x) ∧
    (rep 64 0x11).length = 64 := by
  refine ⟨fun x _ => ⟨fun q hq => ?_, runs_of_one x⟩, rfl⟩
  obtain ⟨v, _, rfl⟩ := List.mem_map.1 hq
  exact (by decide : 1 ≤ 1)

theorem witness_RawLineIsUsedAsIs :
    (rep 64 0).length = 64 ∧ (rep 63 0).length ≠ 64 ∧ (rep 65 0).length ≠ 64 := by decide

theorem witness_ExpandIsMsbFirst : (rep 64 0xA5).length = 64 := by decide

theorem witness_PairByPairDecoding :
    (start cfgBs).stage.row = [] ∧
    decodeRle (pairBytes [(0x20, 0xFF), (0x20, 0)]) = .row (rep 32 0xFF ++ rep 32 0) := by decide +kernel

theorem witness_PairAppendsItsRun :
    (1 ≤ (64 : Byte).toNat ∧ (start cfgBs).stage.row.length + (64 : Byte).toNat ≤ 64) ∧
    (1 ≤ (1 : Byte).toNat ∧
      ({ start cfgBs with stage := ⟨4, 9, rep 63 0⟩ } : State).stage.row.length + (1 : Byte).toNat ≤ 64) := by
  decide +kernel

theorem witness_BadPairDropsTheLine :
    (1 ≤ (65 : Byte).toNat ∧ 64 < (start cfgBs).stage.row.length + (65 : Byte).toNat) ∧
    (1 ≤ (1 : Byte).toNat ∧
      64 < ({ start cfgBs with stage := ⟨4, 9, rep 64 0⟩ } : State).stage.row.length + (1 : Byte).toNat) := by
  decide +kernel

theorem witness_InvalidLineIsDropped :
    (CarriesLine (.bsRaw 0 5 (rep 63 0x3C) 0) ⟨0, 5, false, rep 63 0x3C⟩ 0 ∧
      decodeLine ⟨0, 5, false, rep 63 0x3C⟩ = .invalid .rawLen) ∧
    (CarriesLine (.bsRle 0 0xFFFF [0x3F, 0] 0) ⟨0, 0xFFFF, true, [0x3F, 0]⟩ 0 ∧
      decodeLine ⟨0, 0xFFFF, true, [0x3F, 0]⟩ = .invalid .rleShort) ∧
    (CarriesLine (.udpRle8 0 5 [] 0) ⟨0, 5, true, []⟩ 0 ∧ decodeLine ⟨0, 5, true, []⟩ = .invalid .rleShort) :=
  ⟨⟨.bsRaw _ _ _ _, by decide +kernel⟩, ⟨.bsRle _ _ _ _, by decide +kernel⟩, ⟨.udpRle8 _ _ _ _, by decide +kernel⟩⟩

theorem witness_OutOfRangeLineIsIgnored :
    (CarriesLine (.udpRle8 0 342 [0x40, 0] 0) ⟨0, 342, true, [0x40, 0]⟩ 0 ∧
      decodeLine ⟨0, 342, true, [0x40, 0]⟩ = .row (rep 64 0) ∧ 342 ≤ (342 : U16).toNat) ∧
    (CarriesLine (.bsRaw 0 0xFFFF (rep 64 1) 0) ⟨0, 0xFFFF, false, rep 64 1⟩ 0 ∧
      decodeLine ⟨0, 0xFFFF, false, rep 64 1⟩ = .row (rep 64 1) ∧ 342 ≤ (0xFFFF : U16).toNat) :=
  ⟨⟨.udpRle8 _ _ _ _, by decide +kernel⟩, ⟨.bsRaw _ _ _ _, by decide +kernel⟩⟩

theorem witness_DuplicateLineChangesNothing :
    CarriesLine (.udpRle8 3 10 [0x40, 0x77] 150) ⟨3, 10, true, [0x40, 0x77]⟩ 150 ∧
    decodeLine ⟨3, 10, true, [0x40, 0x77]⟩ = .row (rep 64 0x77) ∧ (10 : U16).toNat < 342 ∧
    sOne.findSlot 3 = some (slotWith 0 3 10 100) ∧ (slotWith 0 3 10 100).has (10 : U16).toNat = true :=
  ⟨.udpRle8 _ _ _ _, by decide +kernel⟩

/-- At both ends of the line numbers. -/
theorem witness_NewLineIsInserted :
    AssemblerInv sOne ∧ sOne.findSlot 3 = some (slotWith 0 3 10 100) ∧
    (slotWith 0 3 10 100).nLines.toNat ≠ 341 ∧
    (CarriesLine (.udpRle8 3 341 [0x40, 0x77] 150) ⟨3, 341, true, [0x40, 0x77]⟩ 150 ∧
      decodeLine ⟨3, 341, true, [0x40, 0x77]⟩ = .row (rep 64 0x77) ∧ (341 : U16).toNat < 342 ∧
      (slotWith 0 3 10 100).has (341 : U16).toNat = false) ∧
    (CarriesLine (.bsRaw 3 0 (rep 64 1) 150) ⟨3, 0, false, rep 64 1⟩ 150 ∧
      decodeLine ⟨3, 0, false, rep 64 1⟩ = .row (rep 64 1) ∧ (0 : U16).toNat < 342 ∧
      (slotWith 0 3 10 100).has (0 : U16).toNat = false) :=
  ⟨sOne_inv, by decide +kernel, by decide, ⟨.udpRle8 _ _ _ _, by decide +kernel⟩, ⟨.bsRaw _ _ _ _, by decide +kernel⟩⟩

theorem witness_FirstLineAllocates :
    AssemblerInv sOne ∧ sOne.findSlot 4 = none ∧ sOne.slots.length < windowSize sOne.cfg ∧
    CarriesLine (.udpRle8 4 341 [0x40, 0x77] 150) ⟨4, 341, true, [0x40, 0x77]⟩ 150 ∧
    decodeLine ⟨4, 341, true, [0x40, 0x77]⟩ = .row (rep 64 0x77) ∧ (341 : U16).toNat < 342 :=
  ⟨sOne_inv, by decide +kernel, by decide, .udpRle8 _ _ _ _, by decide +kernel, by decide⟩

theorem witness_FullWindowEvictsOldest :
    AssemblerInv sFour ∧ sFour.findSlot 9 = none ∧ sFour.slots.length = windowSize sFour.cfg ∧
    sFour.slots = slotWith 2 1 0 0 :: [slotWith 0 2 0 0, slotWith 3 3 0 0, slotWith 1 4 0 0] ∧
    CarriesLine (.udpRle8 9 0 [0x40, 0x77] 150) ⟨9, 0, true, [0x40, 0x77]⟩ 150 ∧
    decodeLine ⟨9, 0, true, [0x40, 0x77]⟩ = .row (rep 64 0x77) ∧ (0 : U16).toNat < 342 :=
  ⟨sFour_inv, by decide +kernel, by decide, rfl, .udpRle8 _ _ _ _, by decide +kernel, by decide⟩

/-- P2: a fifth frame_id evicts the oldest of four and takes its physical slot. -/
theorem test_window_eviction :
    look (exec (.udpRle8 9 5 [0x40, 0x77] 150) sFour) =
      some ⟨[], [⟨2, [0], 1, 2, 1, 0⟩, ⟨3, [0], 1, 2, 1, 0⟩, ⟨4, [0], 1, 2, 1, 0⟩, ⟨9, [5], 1, 2, 1, 150⟩],
        [.event (.evictWindow 1 1)]⟩ ∧
    rowOf (exec (.udpRle8 9 5 [0x40, 0x77] 150) sFour) 2 5 = some (rep 64 0x77) := by decide +kernel

theorem sAlmost_slot : sAlmost.findSlot 7 = some slotAlmost := rfl

theorem sAlmost_row : decodeLine ⟨7, 0, true, [0x40, 0x77]⟩ = .row (rep 64 0x77) := by decide +kernel

theorem witness_LastLineEmitsTheFrame :
    AssemblerInv sAlmost ∧ sAlmost.findSlot 7 = some slotAlmost ∧
    CarriesLine (.udpRle8 7 0 [0x40, 0x77] 1) ⟨7, 0, true, [0x40, 0x77]⟩ 1 ∧
    decodeLine ⟨7, 0, true, [0x40, 0x77]⟩ = .row (rep 64 0x77) ∧ (0 : U16).toNat < 342 ∧
    slotAlmost.has (0 : U16).toNat = false ∧ slotAlmost.nLines.toNat = 341 :=
  ⟨sAlmost_inv, sAlmost_slot, .udpRle8 _ _ _ _, sAlmost_row, by decide, by decide +kernel, by decide⟩


/-- Every row of `sAlmost` but row 0 is stored, and after line 0 every row is. -/
theorem sAlmost_readRow (l : Nat) (hl : l < 342) :
    readRow (inserted ⟨7, 0, true, [0x40, 0x77]⟩ (rep 64 0x77) 1 slotAlmost sAlmost) 0 l =
      .ok (if l = 0 then rep 64 0x77 else rep 64 0xA5) := by
  have hb : ∀ i < 64, (Memory.writeBytes sAlmost.mem 0 (rep 64 0x77)).read (l * 64 + i) =
      (if l = 0 then rep 64 0x77 else rep 64 0xA5)[i]? := by
    intro i hi
    rw [Memory.read_writeBytes, List.length_replicate, sAlmost_read]
    by_cases h : l = 0
    · subst h
      rw [if_pos (by omega), if_pos rfl]
      congr 1
      omega
    · rw [if_neg (by omega), if_neg h, if_pos (by omega), List.getElem?_replicate, if_pos hi]
  have hr : (Memory.writeBytes sAlmost.mem 0 (rep 64 0x77)).readBytes (l * 64) 64 =
      some (if l = 0 then rep 64 0x77 else rep 64 0xA5) := by
    refine (Memory.readBytes_eq_some _ _ _ _).2 ⟨?_, hb⟩
    split <;> exact List.length_replicate
  have ha : lbAddr 0 l 0 = l * 64 := by simp [lbAddr]
  have hm : (inserted ⟨7, 0, true, [0x40, 0x77]⟩ (rep 64 0x77) 1 slotAlmost sAlmost).mem =
      Memory.writeBytes sAlmost.mem 0 (rep 64 0x77) := rfl
  have hc : lbSize (inserted ⟨7, 0, true, [0x40, 0x77]⟩ (rep 64 0x77) 1 slotAlmost sAlmost).cfg = 87552 := rfl
  rw [readRow, memRead, ha, hm, hc, Config.rowBytes_val, if_pos (by omega), hr]

/-- The last line of frame 7 gives a next state whose outputs hold a frame record. -/
theorem witness_FrameRecordsAreWhole :
    AssemblerInv sAlmost ∧ ∃ (t : State) (rows : List Byte),
      exec (.udpRle8 7 0 [0x40, 0x77] 1) sAlmost = .next t ∧
      t.out = sAlmost.out ++ [.frame 7 rows 21826 1] := by
  refine ⟨sAlmost_inv, ?_⟩
  let item : LineItem := ⟨7, 0, true, [0x40, 0x77]⟩
  have h1 : exec (.udpRle8 7 0 [0x40, 0x77] 1) sAlmost = insertLine item (rep 64 0x77) 1 slotAlmost sAlmost := by
    show lineStep item 1 sAlmost = _
    rcases lineStep_cases item 1 sAlmost with ⟨r, hr, _⟩ | ⟨row, hr, h⟩
    · rw [sAlmost_row] at hr
      cases hr
    · rw [sAlmost_row] at hr
      cases hr
      rw [h]
      rcases submit_cases item (rep 64 0x77) 1 sAlmost with ⟨h, _⟩ | ⟨e, _, he, h⟩ | ⟨_, he, _⟩
      · exact absurd h (by decide)
      · rw [show sAlmost.findSlot item.fid = some slotAlmost from sAlmost_slot] at he
        cases he
        exact h
      · rw [show sAlmost.findSlot item.fid = some slotAlmost from sAlmost_slot] at he
        cases he
  rcases insertLine_cases item (rep 64 0x77) 1 slotAlmost sAlmost with ⟨h, _⟩ | ⟨_, _, h⟩ | ⟨_, _, h, _⟩ | ⟨_, _, _, h⟩
  · exact absurd h (by decide +kernel)
  · exact absurd h (by decide)
  · exact absurd h (by decide)
  · rcases emitFrame_cases (slotAlmost.insert item 1) (inserted item (rep 64 0x77) 1 slotAlmost sAlmost) with
      ⟨rows, _, hn⟩ | ⟨f, hf, _⟩
    · exact ⟨_, rows, h1.trans (h.trans hn), rfl⟩
    · rw [show (slotAlmost.insert item 1).phys = 0 from rfl,
        emitRows_ok _ 0 _ (fun l => if l = 0 then rep 64 0x77 else rep 64 0xA5)
          (fun l hl => sAlmost_readRow l (List.mem_range.1 hl))] at hf
      cases hf

theorem witness_StoredRowsAreKept :
    AssemblerInv sOne ∧ CarriesLine (.udpRle8 3 341 [0x40, 0x77] 150) ⟨3, 341, true, [0x40, 0x77]⟩ 150 ∧
    slotWith 0 3 10 100 ∈ sOne.slots ∧
    ∃ (t : State) (e' : Slot), exec (.udpRle8 3 341 [0x40, 0x77] 150) sOne = .next t ∧ e' ∈ t.slots ∧
      e'.fid = (slotWith 0 3 10 100).fid :=
  ⟨sOne_inv, .udpRle8 _ _ _ _, List.mem_singleton.2 rfl, _, _, rfl, List.mem_singleton.2 rfl, rfl⟩

/-- Lines 340 down to 0, line 5 once more, and line 341 last. -/
theorem witness_PermutationInvariance :
    let line : Nat → LineItem × Time := fun l => (⟨7, BitVec.ofNat 16 l, true, [0x40, 0]⟩, 0)
    let ls := ((List.range 341).reverse ++ [5]).map line
    let last := line 341
    AssemblerInv (start cfgDg) ∧ (start cfgDg).findSlot 7 = none ∧
    (start cfgDg).slots.length < windowSize (start cfgDg).cfg ∧
    (∀ x ∈ ls ++ [last], x.1.fid = 7 ∧ x.1.lid.toNat < 342 ∧
      decodeLine x.1 = .row (rep 64 0) ∧ x.1.n = 2 ∧ x.1.rle = true) ∧
    (∀ l < 342, ∃ x ∈ ls ++ [last], x.1.lid.toNat = l) ∧ (∀ x ∈ ls, x.1.lid ≠ last.1.lid) := by
  intro line ls last
  have hid : ∀ l < 342, (line l).1.lid.toNat = l := fun l h => by
    show (BitVec.ofNat 16 l).toNat = l
    rw [BitVec.toNat_ofNat]
    omega
  have hls : ∀ x ∈ ls, ∃ l < 341, x = line l := by
    intro x hx
    obtain ⟨l, hl, rfl⟩ := List.mem_map.1 hx
    refine ⟨l, ?_, rfl⟩
    rcases List.mem_append.1 hl with h | h
    · exact List.mem_range.1 (List.mem_reverse.1 h)
    · rw [List.mem_singleton.1 h]
      decide
  have hall : ∀ x ∈ ls ++ [last], ∃ l < 342, x = line l := by
    intro x hx
    rcases List.mem_append.1 hx with h | h
    · obtain ⟨l, hl, rfl⟩ := hls x h
      exact ⟨l, by omega, rfl⟩
    · exact ⟨341, by decide, List.mem_singleton.1 h⟩
  refine ⟨(start_inv cfgDg (by decide)).assembler, rfl, by decide, ?_, ?_, ?_⟩
  · intro x hx
    obtain ⟨l, hl, rfl⟩ := hall x hx
    refine ⟨rfl, by rw [hid l hl]; exact hl, ?_, rfl, rfl⟩
    have h0 : decodeRle [0x40, 0] = .row (rep 64 0) := by decide +kernel
    simp only [line, decodeLine, if_true, h0]
  · intro l hl
    refine ⟨line l, ?_, hid l hl⟩
    by_cases h : l = 341
    · subst h
      exact List.mem_append_right _ (List.mem_singleton.2 rfl)
    · refine List.mem_append_left _ (List.mem_map_of_mem (List.mem_append_left _ (List.mem_reverse.2 (List.mem_range.2 ?_))))
      omega
  · intro x hx hxl
    obtain ⟨l, hl, rfl⟩ := hls x hx
    have := congrArg BitVec.toNat hxl
    rw [hid l (by omega), hid 341 (by decide)] at this
    omega

/-- Line 340 of frame 7, a line of frame 9, an invalid line of frame 7, lines 339 down to 0, another line 5 of
another size, row and flag, and line 341 last; then one more line 0. -/
theorem witness_FrameAmongOthersIsEmittedOnce :
    let line : Nat → LineItem := fun l => ⟨7, BitVec.ofNat 16 l, true, [0x40, 0]⟩
    let pre : List (LineItem × Time) :=
      (line 340, 0) :: (⟨9, 3, true, [0x40, 1]⟩, 0) :: (⟨7, 8, true, [0x40]⟩, 0) ::
        ((List.range 340).reverse.map (fun l => (line l, 0)) ++ [(⟨7, 5, false, rep 64 9⟩, 0)])
    let last : LineItem × Time := (line 341, 0)
    AssemblerInv (start cfgDg) ∧ (start cfgDg).findSlot 7 = none ∧ last.1.fid = 7 ∧ last.1.lid.toNat < 342 ∧
    (∀ l < 342, firstCopy 7 l (pre ++ [last]) = some (line l) ∧ decodeLine (line l) = .row (rep 64 0)) ∧
    firstCopy 7 last.1.lid.toNat pre = none ∧ ([9] : List FrameId).length < windowSize (start cfgDg).cfg ∧
    (∀ g ∈ allocatedBeside 7 pre (start cfgDg), g ∈ ([9] : List FrameId)) ∧
    (∃ l < 342, firstCopy 7 l [(line 0, 0)] = none) := by
  intro line pre last
  refine ⟨(start_inv cfgDg (by decide)).assembler, rfl, rfl, by decide, ?_, by decide +kernel, by decide, ?_, 1,
    by decide, by decide +kernel⟩
  · have h0 : decodeRle [0x40, 0] = .row (rep 64 0) := by decide +kernel
    have h1 : ∀ l < 342, firstCopy 7 l (pre ++ [last]) = some (line l) := by decide +kernel
    exact fun l hl => ⟨h1 l hl, by simp only [line, decodeLine, if_true, h0]⟩
  · intro g hg
    obtain ⟨hne, x, hx, rfl, -⟩ := mem_allocatedBeside 7 g pre _ hg
    have h : ∀ x ∈ pre, x.1.fid ≠ 7 → x.1.fid ∈ ([9] : List FrameId) := by decide +kernel
    exact h x hx hne

theorem witness_TickSweepsStaleSlots :
    cfgStallEn (start cfgBs).cfg = false ∧ cfgStallEn sOne.cfg = true ∧
    (∃ e ∈ sOne.slots, (cfgStallWindow sOne.cfg).toNat < ((2101 : Time) - e.tLast).toNat ∧
      physOf (lbAddr 0 10 63) = e.phys) ∧
    (∀ e ∈ sOne.slots, (cfgStallWindow sOne.cfg).toNat < ((2101 : Time) - e.tLast).toNat →
      physOf (lbAddr 1 0 0) ≠ e.phys) := by decide +kernel

/-- Ages 2000 and 2001, and a stall window of 0. -/
theorem witness_StalenessIsStrict :
    let e := slotWith 0 3 10 100
    (cfgStallEn sOne.cfg = true ∧ e ∈ sOne.slots ∧
      ((2100 : Time) - e.tLast).toNat = (cfgStallWindow sOne.cfg).toNat) ∧
    ((cfgStallWindow sOne.cfg).toNat < ((2101 : Time) - e.tLast).toNat) ∧
    (let z : State := { sOne with cfg := 0x0000000000000013 }
     cfgStallEn z.cfg = true ∧ e ∈ z.slots ∧ cfgStallWindow z.cfg = 0 ∧ (101 : Time) ≠ e.tLast) := by decide +kernel

/-- Across the wrap of the time, and a whole period later. -/
theorem witness_AgeIsElapsedTime :
    ((4294967000 : Nat) ≤ 4294967396 ∧ (slotWith 0 3 10 4294967000).tLast = BitVec.ofNat 32 4294967000) ∧
    ((0 : Nat) ≤ 2 ^ 32 ∧ (slotWith 0 3 10 0).tLast = BitVec.ofNat 32 0) := by decide +kernel

theorem witness_ByteThatCompletesNothing :
    cfgMode (start cfgBs).cfg = .byteStream ∧ extract ((start cfgBs).fbuf ++ [0xEB]) = (.needMore, [0xEB]) := by
  decide +kernel

/-- R200's example, with both values of SWEEP_AFTER. -/
theorem witness_ByteThatCompletesAPacket :
    let s : State := { start cfgBs with fbuf := [0xEB, 0xD1, 0, 0, 5, 0, 0x40, 0] ++ rep 63 0xAA }
    let u : State := { s with params := ⟨true, true⟩ }
    cfgMode s.cfg = .byteStream ∧ 1 ≤ LineItem.n ⟨0, 5, false, rep 64 0xAA⟩ ∧
    LineItem.n ⟨0, 5, false, rep 64 0xAA⟩ ≤ 128 ∧ s.fbuf ++ [0xAA] = packetBytes ⟨0, 5, false, rep 64 0xAA⟩ ∧
    s.params.sweepAfter = false ∧ cfgMode u.cfg = .byteStream ∧
    u.fbuf ++ [0xAA] = packetBytes ⟨0, 5, false, rep 64 0xAA⟩ ∧ u.params.sweepAfter = true := by decide +kernel

/-- The eighth byte of a header of length 0x8000 and of one of length 129, with both values of SWEEP_AFTER. -/
theorem witness_ByteThatMakesACorruptHeader :
    let s : State := { start cfgBs with fbuf := [0xEB, 0xD1, 0, 0, 6, 0, 0] }
    let u : State := { start cfgBs with fbuf := [0xEB, 0xD1, 0, 0, 6, 0, 0x81], params := ⟨true, true⟩ }
    (cfgMode s.cfg = .byteStream ∧ ((0x8000 : U16).toNat % 32768 = 0 ∨ 128 < (0x8000 : U16).toNat % 32768) ∧
      s.fbuf ++ [0x80] = bsHeader 0 6 0x8000 ∧ s.params.sweepAfter = false) ∧
    (cfgMode u.cfg = .byteStream ∧ ((0x0081 : U16).toNat % 32768 = 0 ∨ 128 < (0x0081 : U16).toNat % 32768) ∧
      u.fbuf ++ [0] = bsHeader 0 6 0x0081 ∧ u.params.sweepAfter = true) := by decide +kernel

theorem witness_ByteLeavesADrainedBuffer : BlockInv (start cfgBs) ∧ cfgMode (start cfgBs).cfg = .byteStream :=
  ⟨start_inv cfgBs (by decide), rfl⟩

theorem witness_DgramRunsItsClass :
    cfgMode sOne.cfg = .datagram ∧ sOne.params.sweepAfter = false ∧
    ({ sOne with params := ⟨true, true⟩ } : State).params.sweepAfter = true := by decide

theorem witness_AcceptedDatagramInserts :
    let d : List Byte := [0xEB, 0xD1, 1, 1, 3, 0, 11, 0, 2, 0, 0x40, 0x77]
    AssemblerInv sOne ∧ cfgMode sOne.cfg = .datagram ∧ sOne.params.sweepAfter = false ∧
    parseDgram sOne.params.udpLenExact d = .ok ⟨3, 11, true, [0x40, 0x77]⟩ ∧
    decodeLine ⟨3, 11, true, [0x40, 0x77]⟩ = .row (rep 64 0x77) ∧ (11 : U16).toNat < 342 ∧
    (sweep 150 sOne).findSlot 3 = some (slotWith 0 3 10 100) ∧
    (slotWith 0 3 10 100).has (11 : U16).toNat = false ∧ (slotWith 0 3 10 100).nLines.toNat ≠ 341 :=
  ⟨sOne_inv, by decide +kernel⟩

theorem witness_MismatchedPortHasNoStep :
    cfgMode sOne.cfg = .datagram ∧ cfgMode (start cfgBs).cfg = .byteStream := by decide

/-- A well-formed word with every free bit set, and a word that breaks each condition of R25. -/
theorem witness_ResetLatchesAndEmpties :
    let wf : CfgWord → Prop := fun c =>
      c.toNat / 2 ^ 8 % 2 ^ 8 = 0 ∧ c.toNat / 2 ^ 48 = 0 ∧ 1 ≤ c.toNat / 2 ^ 4 % 2 ^ 4
    wf 0x0000FFFFFFFF00FF ∧ wf 0x0000000000000010 ∧ ¬wf 0x0000000007D00110 ∧ ¬wf 0x0001000007D00010 ∧
    ¬wf 0x0000000007D00000 := by decide

theorem witness_ResetValues : cfgWellFormed 0x0000FFFFFFFF00FF = true ∧
    ∃ t, exec (.reset 0x0000FFFFFFFF00FF) sOne = .next t := ⟨by decide, _, rfl⟩

theorem witness_WindowSizeByMode : cfgDg.toNat % 2 = 1 ∧ cfgBs.toNat % 2 = 0 := by decide

theorem witness_StepRunsTheDecodedInstruction :
    (∃ s : State, s.latch = none ∧ s.offers = [.tick 7] ∧
      decode s.params.udpLenExact (.port (.tick 7)) = .ok (.tick 7)) ∧
    (∃ s : State, s.latch = some (.parser [] 7) ∧
      decode s.params.udpLenExact (.parser [] 7) = .ok (.udpReject [] (.short 0))) ∧
    (∃ s : State, s.latch = some (.codec 0 9) ∧
      decode s.params.udpLenExact (.codec [0, 9]) = .ok (.rlePairZero 9)) ∧
    (∃ s : State, s.latch = some (.framer 7) ∧
      decode s.params.udpLenExact (.framer (scan s.fbuf) 7) = .ok (.bsRle 2 3 [0x11] 7)) ∧
    (∃ s : State, s.latch = some (.framer 7) ∧ headView (scan s.fbuf) = .needMore) ∧
    (∃ s : State, s.latch = none ∧ s.offers = []) ∧
    (∃ s : State, s.latch = none ∧ s.offers = [.reset 0] ∧
      decode s.params.udpLenExact (.port (.reset 0)) = .error .malformedConfig) :=
  ⟨⟨{ sOne with offers := [.tick 7] }, rfl, rfl, rfl⟩,
    ⟨{ sOne with latch := some (.parser [] 7) }, rfl, by decide +kernel⟩,
    ⟨{ sOne with latch := some (.codec 0 9) }, rfl, by decide +kernel⟩,
    ⟨{ start cfgBs with latch := some (.framer 7),
                        fbuf := [0xEB, 0xEB, 0xD1, 2, 0, 3, 0, 1, 0x80, 0x11] }, rfl, by decide +kernel⟩,
    ⟨{ start cfgBs with latch := some (.framer 7), fbuf := [0, 0xEB] }, rfl, by decide +kernel⟩,
    ⟨sOne, rfl, rfl⟩,
    ⟨{ sOne with offers := [.reset 0] }, rfl, rfl, by decide +kernel⟩⟩

/-- One word of each width that the table gives a row. -/
theorem witness_TableWordIsRunNext :
    decode sOne.params.udpLenExact (tableFetch 8 0xAA) = .ok (.byte 0xAA 0) ∧
    decode sOne.params.udpLenExact (tableFetch 16 0x40FF) = .ok (.rlePair 0x40 0xFF) ∧
    decode sOne.params.udpLenExact (tableFetch 32 2001) = .ok (.tick 2001) ∧
    decode sOne.params.udpLenExact (tableFetch 64 0xEBD1020104030280) = .ok (.bsRle 0x0102 0x0304 [0, 0] 0) ∧
    decode sOne.params.udpLenExact (tableFetch 64 0x0000000007D00013) = .ok (.reset cfgDg) ∧
    decode sOne.params.udpLenExact (tableFetch 80 0xEBD10101341255010200) =
      .ok (.udpRle8 0x1234 0x0155 [0, 0] 0) := by decide +kernel

/-- For each constructor a sound state that it is enabled in. -/
theorem witness_EnabledInstructionsComplete :
    AssemblerInv sOne ∧ AssemblerInv (start cfgBs) ∧ Enabled (.byte 0xEB 5) (start cfgBs) ∧
    Enabled (.dgram [] 5) sOne ∧ Enabled (.reset cfgDg) sOne ∧ Enabled (.bsRaw 0 5 (rep 64 0) 5) (start cfgBs) ∧
    Enabled (.bsRle 0 5 [0x40, 0] 5) (start cfgBs) ∧ Enabled (.bsCorrupt 0 5 0) (start cfgBs) ∧
    Enabled (.udpRle8 3 11 [0x40, 0] 5) sOne ∧ Enabled (.udpReject [] (.short 0)) sOne ∧
    Enabled (.rlePair 1 0) sOne ∧ Enabled (.rlePairZero 0) sOne ∧ Enabled (.tick 5) sOne :=
  ⟨sOne_inv, (start_inv cfgBs (by decide)).assembler, rfl, rfl, rfl, trivial, trivial, trivial, trivial, trivial,
    trivial, trivial, trivial⟩

theorem witness_OnlyResetWritesConfiguration :
    (∃ t, exec (.tick 2101) sOne = .next t) ∧ (∀ c, Instr.tick 2101 ≠ .reset c) ∧
    (∃ t, exec (.reset cfgBs) sOne = .next t) :=
  ⟨⟨_, rfl⟩, nofun, ⟨_, rfl⟩⟩

theorem witness_ParametersAndOffersAreKept : ∃ t, exec (.tick 2101) { sOne with offers := [.tick 7] } = .next t :=
  ⟨_, rfl⟩

/-- The block with one frame in flight is sound between transactions. -/
theorem sOne_block : BlockInv sOne := ⟨sOne_inv, ⟨rfl, fun _ => rfl⟩, rfl, rfl⟩

theorem witness_StatusOutputsAreBounded : BlockInv sOne ∧ cfgMode sOne.cfg = .datagram := ⟨sOne_block, rfl⟩

theorem witness_OnlyTheByteStreamTouchesFbuf :
    let s : State := { sOne with fbuf := [0xEB] }
    (∃ t, exec (.dgram [] 5) s = .next t) ∧ (∃ t, exec (.tick 5) s = .next t) ∧
    (∃ t, exec (.udpRle8 3 11 [0x40, 0] 5) s = .next t) ∧ (∃ t, exec (.udpReject [] (.short 0)) s = .next t) ∧
    (∃ t, exec (.rlePair 1 0) s = .next t) ∧ (∃ t, exec (.rlePairZero 0) s = .next t) :=
  ⟨next_of_isSome _ (by decide +kernel), next_of_isSome _ (by decide +kernel), next_of_isSome _ (by decide +kernel),
    next_of_isSome _ (by decide +kernel), next_of_isSome _ (by decide +kernel), next_of_isSome _ (by decide +kernel)⟩

theorem witness_AssemblerInvariantIsKept :
    AssemblerInv sFour ∧ ∃ t, exec (.udpRle8 9 0 [0x40, 0x77] 150) sFour = .next t :=
  ⟨sFour_inv, next_of_isSome _ (by decide +kernel)⟩

theorem witness_BlockInvariantIsKept :
    let s : State := { start cfgBs with offers := [.byte 0xEB 5] }
    BlockInv s ∧ ∃ t, step s = .next t := by
  have h := start_inv cfgBs (by decide)
  exact ⟨⟨⟨h.1.1, h.1.2, h.1.3, h.1.4, h.1.5, h.1.6, h.1.7, h.1.8, h.1.9⟩, ⟨rfl, fun _ => rfl⟩, rfl, rfl⟩,
    next_of_isSome _ (by decide +kernel)⟩

/-- A datagram that arrives when the frame in flight is stale, and is rejected: one stall event and one
event of another kind. -/
theorem witness_OutputsOfATransaction :
    BlockInv sOne ∧ IsTransaction (.dgram [] 2101) ∧ ∃ t, exec (.dgram [] 2101) sOne = .next t :=
  ⟨sOne_block, trivial, next_of_isSome _ (by decide +kernel)⟩

theorem witness_StagingDoesNotSurvive :
    let s' : State := { sOne with stage := ⟨4, 9, [1]⟩, latch := some (.codec 1 2), out := [.event (.hdrCorrupt 0)] }
    IsTransaction (.dgram [] 2101) ∧ s'.cfg = sOne.cfg ∧ s'.fbuf = sOne.fbuf ∧ s'.slots = sOne.slots ∧
    s'.mem = sOne.mem ∧ s'.physHints = sOne.physHints ∧ s'.params = sOne.params ∧
    ∃ t, exec (.dgram [] 2101) sOne = .next t :=
  ⟨trivial, rfl, rfl, rfl, rfl, rfl, rfl, next_of_isSome _ (by decide +kernel)⟩

/-- The row of line 10 reads the same in both places. -/
theorem sOne_view : sOneElsewhere.slots.map (slotView sOneElsewhere) = sOne.slots.map (slotView sOne) := by
  have h : (List.range 342).map (fun l => if (slotWith 2 3 10 100).has l then
        sOneElsewhere.mem.readBytes (lbAddr 2 l 0) 64 else none) =
      (List.range 342).map (fun l => if (slotWith 0 3 10 100).has l then
        sOne.mem.readBytes (lbAddr 0 l 0) 64 else none) := by decide +kernel
  exact congrArg (fun x => [((3 : U16), presentWith 0 10, (1 : BitVec 9), (2 : U16), (1 : BitVec 9), (100 : Time), x)]) h

theorem witness_PhysicalSlotsAreInvisible :
    AssemblerInv sOne ∧ AssemblerInv sOneElsewhere ∧ SameView sOne sOneElsewhere ∧
    ∃ s', exec (.udpRle8 4 0 [0x40, 0x77] 150) sOne = .next s' :=
  ⟨sOne_inv, sOneElsewhere_inv, ⟨⟨rfl, rfl, rfl, rfl, rfl⟩, rfl, rfl, sOne_view⟩,
    next_of_isSome _ (by decide +kernel)⟩

end Sys2Proof.Tests
end

