-- ==== Sys2Proof/Proofs/StateFrame.lean ====
section
/-! The window size by mode (10_state.md R24), and what each instruction leaves of the block's inputs: the
configuration word, the offers and the named parameters (10_state.md R23). -/

namespace Sys2Proof.Machine

/-! ## The mode and the window -/

theorem cfgMode_eq (c : CfgWord) : cfgMode c = if c.toNat % 2 = 1 then .datagram else .byteStream := by
  rw [cfgMode, BitVec.getLsbD, Nat.testBit_zero]
  simp only [decide_eq_true_eq]

theorem cfgMode_eq_datagram_iff (c : CfgWord) : cfgMode c = .datagram ↔ c.toNat % 2 = 1 := by
  simp [cfgMode_eq]

theorem cfgMode_eq_byteStream_iff (c : CfgWord) : cfgMode c = .byteStream ↔ c.toNat % 2 = 0 := by
  simp [cfgMode_eq]

theorem cfgBsWindow_eq (c : CfgWord) : cfgBsWindow c = c.toNat / 2 ^ 4 % 2 ^ 4 := by
  rw [cfgBsWindow, BitVec.extractLsb'_toNat, Nat.shiftRight_eq_div_pow]

theorem windowSize_datagram (c : CfgWord) (h : cfgMode c = .datagram) : windowSize c = 4 := by
  simp [windowSize, h]

theorem windowSize_byteStream (c : CfgWord) (h : cfgMode c = .byteStream) : windowSize c = cfgBsWindow c := by
  simp [windowSize, h]

/-- Settles O45, by the two values of the mode bit. -/
theorem windowSizeByMode : Obligations.WindowSizeByMode := by
  intro c
  constructor
  · intro hbit
    have hmode := (cfgMode_eq_datagram_iff c).2 hbit
    exact ⟨hmode, windowSize_datagram c hmode⟩
  · intro hbit
    have hmode := (cfgMode_eq_byteStream_iff c).2 hbit
    exact ⟨hmode, (windowSize_byteStream c hmode).trans (cfgBsWindow_eq c)⟩

/-! ## What the bodies of the transactions keep -/

theorem takePacket_sameFrame (item : LineItem) (now : Time) (s t : State) (h : takePacket item now s = .next t) :
    SameFrame s t := by
  obtain ⟨hcfg, hstage, hlatch, hoffers, hparams⟩ := (lineStep_sameFrame _ _ _ _ h).1
  exact ⟨hcfg, hstage, hlatch, hoffers, hparams⟩

theorem byteBody_sameFrame (b : Byte) (now : Time) (s t : State) (h : byteBody b now s = .next t) :
    SameFrame s t := by
  obtain ⟨hcfg, hstage, hlatch, hoffers, hparams⟩ := drain_sameFrame _ _ _ _ h
  exact ⟨hcfg, hstage, hlatch, hoffers, hparams⟩

theorem dgramBody_sameFrame (d : List Byte) (now : Time) (s t : State) (h : dgramBody d now s = .next t) :
    SameFrame s t := by
  rcases dgramBody_cases d now s with ⟨cause, _, hn⟩ | ⟨item, _, hn⟩ <;> rw [hn] at h
  · cases h
    exact SameFrame.raise _ _
  · exact (lineStep_sameFrame _ _ _ _ h).1

/-- With the sweep on either side of its body, a transaction touches the frame fields only by clearing the
transient ones when it begins (R20, R203). -/
theorem withSweep_sameFrame (now : Time) (s t : State) (body : State → Result)
    (hbody : ∀ u v, body u = .next v → SameFrame u v) (h : withSweep now s body = .next t) :
    SameFrame s.beginTxn t := by
  unfold withSweep at h
  split at h
  · obtain ⟨u, hu, hsweep⟩ := (andThen_eq_next _ _ _).1 h
    cases hsweep
    exact (hbody _ _ hu).trans (sweep_sameFrame now u).1
  · exact (sweep_sameFrame now s.beginTxn).1.trans (hbody _ _ h)

theorem execByte_sameFrame (b : Byte) (now : Time) (s t : State) (h : execByte b now s = .next t) :
    SameFrame s.beginTxn t := by
  unfold execByte at h
  split at h
  · cases h
  · exact withSweep_sameFrame now s t _ (byteBody_sameFrame b now) h

theorem execDgram_sameFrame (d : List Byte) (now : Time) (s t : State) (h : execDgram d now s = .next t) :
    SameFrame s.beginTxn t := by
  unfold execDgram at h
  split at h
  · cases h
  · exact withSweep_sameFrame now s t _ (dgramBody_sameFrame d now) h

/-! ## What every instruction keeps -/

/-- The fields that an instruction other than RESET only reads: the configuration word, the offers and the
named parameters. -/
structure SameInputs (s t : State) : Prop where
  cfg : t.cfg = s.cfg
  offers : t.offers = s.offers
  params : t.params = s.params

theorem SameFrame.sameInputs {s t : State} (h : SameFrame s t) : SameInputs s t := ⟨h.cfg, h.offers, h.params⟩

/-- Clearing the transient fields as a transaction begins leaves the inputs as they are. -/
theorem sameInputs_of_beginTxn {s t : State} (h : SameFrame s.beginTxn t) : SameInputs s t :=
  ⟨h.cfg, h.offers, h.params⟩

theorem dropStaged_sameInputs (reason : InvalidReason) (s : State) : SameInputs s (dropStaged reason s) :=
  ⟨rfl, rfl, rfl⟩

theorem stagePair_sameInputs (count value : Byte) (s : State) : SameInputs s (stagePair count value s) := by
  unfold stagePair
  split
  · exact ⟨rfl, rfl, rfl⟩
  · exact dropStaged_sameInputs _ s

/-- A RESET that answers a next state latches the word presented and leaves the other inputs (R260). -/
theorem execReset_inputs (c : CfgWord) (s t : State) (h : execReset c s = .next t) :
    SameInputs { s with cfg := c } t := by
  rcases execReset_cases c s with ⟨_, hn⟩ | ⟨_, hn⟩ <;> rw [hn] at h <;> cases h
  exact ⟨rfl, rfl, rfl⟩

/-- The configuration word after an instruction: RESET alone writes one, the word presented (R23). -/
def cfgAfter : Instr → State → CfgWord
  | .reset c, _ => c
  | _, s => s.cfg

theorem cfgAfter_of_ne_reset (i : Instr) (s : State) (h : ∀ c, i ≠ .reset c) : cfgAfter i s = s.cfg := by
  cases i with
  | reset c => exact absurd rfl (h c)
  | _ => rfl

/-- What an instruction can do to the inputs: the configuration word as `cfgAfter` says, the offers and the
parameters as they were. -/
theorem exec_inputs (i : Instr) (s t : State) (h : exec i s = .next t) :
    SameInputs { s with cfg := cfgAfter i s } t := by
  cases i with
  | bsRaw fid lid p now => exact (takePacket_sameFrame _ _ _ _ h).sameInputs
  | bsRle fid lid p now => exact (takePacket_sameFrame _ _ _ _ h).sameInputs
  | bsCorrupt fid lid len =>
    cases h
    exact ⟨rfl, rfl, rfl⟩
  | udpRle8 fid lid p now => exact (lineStep_sameFrame _ _ _ _ h).1.sameInputs
  | udpReject d cause =>
    cases h
    exact (SameFrame.raise _ _).sameInputs
  | rlePair count value =>
    cases h
    exact stagePair_sameInputs count value s
  | rlePairZero value =>
    cases h
    exact dropStaged_sameInputs _ s
  | byte b now => exact sameInputs_of_beginTxn (execByte_sameFrame b now s t h)
  | dgram d now => exact sameInputs_of_beginTxn (execDgram_sameFrame d now s t h)
  | tick now =>
    cases h
    exact sameInputs_of_beginTxn (sweep_sameFrame now s.beginTxn).1
  | reset c => exact execReset_inputs c s t h

/-- Settles O51, by what each instruction leaves of the inputs. -/
theorem onlyResetWritesConfiguration : Obligations.OnlyResetWritesConfiguration := by
  intro i s t h
  have hcfg : t.cfg = cfgAfter i s := (exec_inputs i s t h).cfg
  constructor
  · intro hne
    exact hcfg.trans (cfgAfter_of_ne_reset i s hne)
  · rintro c rfl
    exact hcfg

end Sys2Proof.Machine
end

