-- ==== Sys2Proof/Proofs/Framer.lean ====
section
/-! EXTRACT on buffers known byte by byte (40_framer.md R101 to R110): the scan of a byte string in two parts,
the scan without the magic, and the view of a header that `bsHeader` wrote. -/

namespace Sys2Proof.Machine

/-! ## Where the magic stands, and the scan -/

/-- The absence of the magic, along the recursion of the scan (R101). -/
theorem noMagic_cons_cons (b0 b1 : Byte) (rest : List Byte) :
    (∀ i, ¬magicAt (b0 :: b1 :: rest) i) ↔ isMagic b0 b1 = false ∧ ∀ i, ¬magicAt (b1 :: rest) i := by
  have hhead : magicAt (b0 :: b1 :: rest) 0 ↔ isMagic b0 b1 = true := by simp [magicAt, isMagic_iff]
  have htail : ∀ i, magicAt (b0 :: b1 :: rest) (i + 1) ↔ magicAt (b1 :: rest) i := fun i => by simp [magicAt]
  constructor
  · intro h
    exact ⟨Bool.eq_false_iff.2 fun hm => h 0 (hhead.2 hm), fun i hi => h (i + 1) ((htail i).2 hi)⟩
  · rintro ⟨hm, h⟩ (_ | i) hi
    · exact Bool.eq_false_iff.1 hm (hhead.1 hi)
    · exact h i ((htail i).1 hi)

/-- The scan of a buffer without the magic keeps only a final 0xEB (R102). -/
theorem scan_of_noMagic (b : List Byte) (h : ∀ i, ¬magicAt b i) :
    scan b = if b.getLast? = some Config.magic0 then [Config.magic0] else [] := by
  induction b using scan.induct with
  | case1 => rfl
  | case2 => simp [scan]
  | case3 b hb => simp [scan, hb]
  | case4 b0 b1 rest hm => simp [((noMagic_cons_cons b0 b1 rest).1 h).1] at hm
  | case5 b0 b1 rest hm ih =>
    rw [scan, if_neg hm, ih ((noMagic_cons_cons b0 b1 rest).1 h).2, List.getLast?_cons_cons]

/-- A byte that is not the first of the magic is discarded (R101). -/
theorem scan_cons_of_ne (b : Byte) (c : List Byte) (h : b ≠ Config.magic0) : scan (b :: c) = scan c := by
  cases c with
  | nil => simp [scan, h]
  | cons x c => simp [scan, isMagic, h]

/-- What the scan has discarded of the earlier bytes does not matter to the scan of later ones (R109). -/
theorem scan_append (b c : List Byte) : scan (b ++ c) = scan (scan b ++ c) := by
  induction b using scan.induct with
  | case1 => rfl
  | case2 => simp [scan]
  | case3 b hb => simpa [scan, hb] using scan_cons_of_ne b c hb
  | case4 b0 b1 rest hm => simp [scan, hm]
  | case5 b0 b1 rest hm ih => simpa [scan, hm] using ih

/-- Garbage without the magic before a magic is discarded, also where it ends in 0xEB (R101, R110). -/
theorem scan_garbage_append (g c : List Byte) (hg : ∀ i, ¬magicAt g i) (hc : startsMagic c = true) :
    scan (g ++ c) = c := by
  obtain ⟨rest, rfl⟩ := (startsMagic_iff c).1 hc
  rw [scan_append, scan_of_noMagic g hg]
  split
  · simp [scan, isMagic, show Config.magic0 ≠ Config.magic1 by decide]
  · exact scan_of_startsMagic _ hc

/-! ## EXTRACT, by what the framer sees in the scanned buffer -/

theorem extract_of_needMore (b : List Byte) (h : headView (scan b) = .needMore) :
    extract b = (.needMore, scan b) := by
  simp [extract, h]

theorem extract_of_corrupt (b : List Byte) (fid : FrameId) (lid len : U16)
    (h : headView (scan b) = .corrupt fid lid len) : extract b = (.retry len, (scan b).drop 2) := by
  simp [extract, h]

theorem extract_of_packet (b : List Byte) (item : LineItem) (h : headView (scan b) = .packet item) :
    extract b = (.packet item, (scan b).drop (8 + item.n)) := by
  simp [extract, h]

/-- Settles O5: the scan leaves at most one byte, which is no whole header. -/
theorem noMagicKeepsOnlyFinalByte : Obligations.NoMagicKeepsOnlyFinalByte := by
  intro b hb
  have hscan : scan b = if b.getLast? = some 0xEB then [0xEB] else [] := scan_of_noMagic b hb
  have hshort : (scan b).length < 8 := by
    rw [hscan]
    split <;> simp
  rw [extract_of_needMore b (headView_short _ hshort), hscan]

/-! ## The fields of a header -/

/-- A field is read as it was written, low byte first (R50). -/
@[simp] theorem u16le_loByte_hiByte (v : U16) : u16le (loByte v) (hiByte v) = v := by
  ext i hi
  by_cases h8 : i < 8
  · simp [u16le, loByte, hiByte, h8, BitVec.getLsbD_eq_getElem hi]
  · simp [u16le, loByte, hiByte, h8, show i - 8 < 8 by omega, show 8 + (i - 8) = i by omega,
      BitVec.getLsbD_eq_getElem hi]

theorem payloadLen_eq (len : U16) : payloadLen len = len.toNat % 32768 := by
  simp [payloadLen, BitVec.extractLsb'_toNat]

/-- The length bits of `bsLen` hold the payload length, whatever the flag (R72). -/
theorem payloadLen_bsLen (rle : Bool) (n : Nat) (hn : n < 32768) : payloadLen (bsLen rle n) = n := by
  have hflag : (if rle then 0x8000 else 0 : U16).toNat % 2 ^ 15 = 0 := by cases rle <;> rfl
  rw [payloadLen_eq, bsLen, BitVec.toNat_or, show 32768 = 2 ^ 15 from rfl, Nat.or_mod_two_pow, hflag,
    BitVec.toNat_ofNat, Nat.or_zero]
  omega

/-- Bit 15 of `bsLen` is the flag, where the payload length leaves it free (R72). -/
theorem rleFlag_bsLen (rle : Bool) (n : Nat) (hn : n < 32768) : rleFlag (bsLen rle n) = rle := by
  have hbit : (BitVec.ofNat 16 n).getLsbD 15 = false := by
    rw [BitVec.getLsbD_ofNat, Nat.testBit_lt_two_pow hn, Bool.and_false]
  rw [rleFlag, bsLen, BitVec.getLsbD_or, hbit, Bool.false_or]
  cases rle <;> rfl

/-- What the framer sees at a header that `bsHeader` wrote (R104 to R107). -/
theorem headView_bsHeader (fid : FrameId) (lid len : U16) (rest : List Byte) :
    headView (bsHeader fid lid len ++ rest) =
      if headerOk len then
        if rest.length < payloadLen len then .needMore
        else .packet ⟨fid, lid, rleFlag len, rest.take (payloadLen len)⟩
      else .corrupt fid lid len := by
  simp only [bsHeader, List.cons_append, List.nil_append, headView_long, u16le_loByte_hiByte]

theorem startsMagic_bsHeader (fid : FrameId) (lid len : U16) (rest : List Byte) :
    startsMagic (bsHeader fid lid len ++ rest) = true :=
  (startsMagic_iff _).2 ⟨_, rfl⟩

/-! ## A valid packet -/

theorem packetBytes_append (item : LineItem) (rest : List Byte) :
    packetBytes item ++ rest = bsHeader item.fid item.lid (bsLen item.rle item.n) ++ (item.payload ++ rest) :=
  List.append_assoc _ _ _

theorem packetBytes_length (item : LineItem) : (packetBytes item).length = 8 + item.n := by
  rw [packetBytes, List.length_append]
  rfl

/-- The framer sees a packet with a valid header as the line it carries, whatever follows it (R107). -/
theorem headView_packetBytes (item : LineItem) (rest : List Byte) (h1 : 1 ≤ item.n) (h128 : item.n ≤ 128) :
    headView (packetBytes item ++ rest) = .packet item := by
  have hlen : payloadLen (bsLen item.rle item.n) = item.n := payloadLen_bsLen _ _ (by omega)
  have hok : headerOk (bsLen item.rle item.n) = true := (headerOk_iff _).2 (by omega)
  have hrle : rleFlag (bsLen item.rle item.n) = item.rle := rleFlag_bsLen _ _ (by omega)
  rw [packetBytes_append, headView_bsHeader, if_pos hok, hlen, hrle, if_neg (by simp [LineItem.n]),
    LineItem.n, List.take_left]

/-- Settles O7: the scan discards the garbage, and the packet is what the framer then sees. -/
theorem garbageThenPacket : Obligations.GarbageThenPacket := by
  intro g item rest hg h1 h128
  have hmagic : startsMagic (packetBytes item ++ rest) = true := by
    rw [packetBytes_append]
    exact startsMagic_bsHeader _ _ _ _
  have hscan : scan (g ++ packetBytes item ++ rest) = packetBytes item ++ rest := by
    rw [List.append_assoc]
    exact scan_garbage_append _ _ hg hmagic
  rw [extract_of_packet _ item (by rw [hscan, headView_packetBytes item rest h1 h128]), hscan,
    List.drop_left' (packetBytes_length item)]

/-! ## A corrupt header -/

/-- A header is corrupt by its length bits alone (R72, R105). -/
theorem headerOk_eq_false_iff (len : U16) :
    headerOk len = false ↔ len.toNat % 32768 = 0 ∨ 128 < len.toNat % 32768 := by
  rw [Bool.eq_false_iff, ne_eq, headerOk_iff, payloadLen_eq]
  omega

theorem extract_corruptHeader (fid : FrameId) (lid len : U16) (rest : List Byte) (h : headerOk len = false) :
    extract (bsHeader fid lid len ++ rest) = (.retry len, (bsHeader fid lid len).drop 2 ++ rest) := by
  have hscan := scan_of_startsMagic _ (startsMagic_bsHeader fid lid len rest)
  have hview : headView (bsHeader fid lid len ++ rest) = .corrupt fid lid len := by
    rw [headView_bsHeader, h]
    rfl
  rw [extract_of_corrupt _ fid lid len (by rw [hscan, hview]), hscan]
  rfl

/-- What BS_CORRUPT does to any state (R105). -/
theorem exec_bsCorrupt (fid : FrameId) (lid len : U16) (s : State) :
    exec (.bsCorrupt fid lid len) s =
      .next { s with fbuf := s.fbuf.drop 2, out := s.out ++ [.event (.hdrCorrupt len)] } := rfl

/-- Settles O8: a corrupt header is seen as one whatever its flag, and BS_CORRUPT drops the magic alone. -/
theorem corruptHeaderCostsTwoBytes : Obligations.CorruptHeaderCostsTwoBytes := by
  intro fid lid len hlen
  exact ⟨fun rest => extract_corruptHeader fid lid len rest ((headerOk_eq_false_iff len).2 hlen),
    exec_bsCorrupt fid lid len⟩

end Sys2Proof.Machine
end

