-- ==== Sys2Proof/Proofs/Codec.lean ====
section
/-! What the codec answers to known operands (41_codec.md): a raw payload (R131), the bytes of a list of pairs
that fit in the row (R132 to R139), and each pixel of an expanded row (R141). -/

namespace Sys2Proof.Machine

/-! ## Raw payloads -/

/-- Settles O15: the two branches of DECODE_RAW. -/
theorem rawLineIsUsedAsIs : Obligations.RawLineIsUsedAsIs := by
  intro p
  constructor
  · intro h
    exact if_pos h
  · intro h
    exact if_neg h

/-! ## Pairs -/

/-- A pair with a count of at least 1 whose run fits in the row appends the run (R132). -/
theorem codecPair_of_fits (stage : List Byte) (count value : Byte) (h1 : 1 ≤ count.toNat)
    (hfit : stage.length + count.toNat ≤ 64) :
    codecPair stage count value = .ok (stage ++ List.replicate count.toNat value) := by
  rcases codecPair_cases stage count value with ⟨h0, _⟩ | ⟨_, hover, _⟩ | ⟨_, _, e⟩
  · rw [h0] at h1
    exact absurd h1 (by decide)
  · omega
  · exact e

@[simp] theorem pairBytes_nil : pairBytes [] = [] := rfl

@[simp] theorem pairBytes_cons (q : Byte × Byte) (ps : List (Byte × Byte)) :
    pairBytes (q :: ps) = q.1 :: q.2 :: pairBytes ps := rfl

@[simp] theorem pairExpansion_nil : pairExpansion [] = [] := rfl

@[simp] theorem pairExpansion_cons (q : Byte × Byte) (ps : List (Byte × Byte)) :
    pairExpansion (q :: ps) = List.replicate q.1.toNat q.2 ++ pairExpansion ps := rfl

/-- Each pair is two bytes (R76). -/
theorem pairBytes_length (ps : List (Byte × Byte)) : (pairBytes ps).length = 2 * ps.length := by
  induction ps with
  | nil => rfl
  | cons q ps ih =>
    simp only [pairBytes_cons, List.length_cons]
    omega

/-- Whole pairs pass the parity check of DECODE_RLE (R133). -/
theorem decodeRle_pairBytes (ps : List (Byte × Byte)) :
    decodeRle (pairBytes ps) = decodePairs (pairBytes ps) [] :=
  if_neg (by rw [pairBytes_length]; omega)

/-- Pairs with counts of at least 1 that fit beside what is staged append their expansion, whatever follows
them (R132). -/
theorem decodePairs_append_of_fits (ps : List (Byte × Byte)) (rest stage : List Byte)
    (h1 : ∀ q ∈ ps, 1 ≤ q.1.toNat) (hfit : stage.length + (pairExpansion ps).length ≤ 64) :
    decodePairs (pairBytes ps ++ rest) stage = decodePairs rest (stage ++ pairExpansion ps) := by
  induction ps generalizing stage with
  | nil => simp
  | cons q ps ih =>
    obtain ⟨hq, hps⟩ := List.forall_mem_cons.1 h1
    simp only [pairExpansion_cons, List.length_append, List.length_replicate] at hfit
    have hpair := codecPair_of_fits stage q.1 q.2 hq (by omega)
    have htail := ih (stage ++ List.replicate q.1.toNat q.2) hps
      (by simp only [List.length_append, List.length_replicate]; omega)
    simp only [pairBytes_cons, List.cons_append, decodePairs, hpair, htail, pairExpansion_cons,
      List.append_assoc]

/-- Pairs with counts of at least 1 that fill the row decode to their expansion (R137). -/
theorem decodeRle_of_fills (ps : List (Byte × Byte)) (h1 : ∀ q ∈ ps, 1 ≤ q.1.toNat)
    (hfill : (pairExpansion ps).length = 64) : decodeRle (pairBytes ps) = .row (pairExpansion ps) :=
  calc decodeRle (pairBytes ps)
      = decodePairs (pairBytes ps ++ []) [] := by rw [decodeRle_pairBytes, List.append_nil]
    _ = decodePairs [] ([] ++ pairExpansion ps) := decodePairs_append_of_fits ps [] [] h1 (by simp [hfill])
    _ = .row (pairExpansion ps) := if_pos hfill

/-- Settles O14: the encoder's pairs have counts of at least 1 and fill the row. -/
theorem rleRoundTrip : Obligations.RleRoundTrip := by
  intro enc henc x hx
  obtain ⟨hcounts, hexp⟩ := henc x hx
  have hrow := decodeRle_of_fills (enc x) hcounts (by rw [hexp, hx])
  rwa [hexp] at hrow

/-! ## Pixels -/

/-- A pixel is 255 where its bit differs from the polarity, else 0 (R141). -/
theorem expandBit_eq (polarity bit : Bool) : expandBit polarity bit = if bit ≠ polarity then 255 else 0 := by
  cases polarity <;> cases bit <;> rfl

theorem expand_cons (polarity : Bool) (b : Byte) (row : List Byte) :
    expand polarity (b :: row) = expandByte polarity b ++ expand polarity row := rfl

/-- The pixels of a byte, most significant bit first (R51, R141). -/
theorem expandByte_getElem? (polarity : Bool) (b : Byte) (i : Nat) (hi : i < 8) :
    (expandByte polarity b)[i]? = some (expandBit polarity (b.getLsbD (7 - i))) := by
  simp [expandByte, hi]

/-- Pixel `x` of an expanded row is the pixel of bit `7 - x % 8` of byte `x / 8` (R141). -/
theorem expand_getElem? (polarity : Bool) (row : List Byte) (x : Nat) :
    (expand polarity row)[x]? = row[x / 8]?.map (fun b => expandBit polarity (b.getLsbD (7 - x % 8))) := by
  induction row generalizing x with
  | nil => rfl
  | cons b row ih =>
    rw [expand_cons]
    rcases Nat.lt_or_ge x 8 with hx | hx
    · rw [List.getElem?_append_left (by rwa [expandByte_length]), expandByte_getElem? polarity b x hx,
        Nat.div_eq_of_lt hx, Nat.mod_eq_of_lt hx]
      rfl
    · have hdiv : x / 8 = (x - 8) / 8 + 1 := Nat.div_eq_sub_div (by omega) hx
      rw [List.getElem?_append_right (by rwa [expandByte_length]), expandByte_length, ih, hdiv,
        List.getElem?_cons_succ, Nat.mod_eq_sub_mod hx]

/-- Settles O16: every pixel of 512 lies in one of the 64 bytes of the row. -/
theorem expandIsMsbFirst : Obligations.ExpandIsMsbFirst := by
  intro polarity row hrow
  constructor
  · rw [expand_length, hrow]
  · intro x hx
    have hbyte : row[x / 8]? = some row[x / 8] := List.getElem?_eq_getElem (by omega)
    refine ⟨_, hbyte, ?_⟩
    rw [expand_getElem?, hbyte, Option.map_some, expandBit_eq]

end Sys2Proof.Machine
end

