-- ==== Sys2Proof/Proofs/Assembler.lean ====
section
/-! What the assembler does with a line that changes no slot (42_assembler.md R160, R166), and which slots a
sweep keeps (R170 to R172). -/

namespace Sys2Proof.Machine

/-! ## The three line instructions are one line path -/

/-- BS_RAW, BS_RLE and UDP_RLE8 take their bytes from the framer buffer and hand their line to LINE (R107,
R112, R201). -/
theorem exec_of_carriesLine {i : Instr} {item : LineItem} {now : Time} (h : CarriesLine i item now) (s : State) :
    exec i s = lineStep item now { s with fbuf := fbufAfter i s } := by
  cases h with
  | bsRaw fid lid p now => rfl
  | bsRle fid lid p now => rfl
  | udpRle8 fid lid p now => rfl

/-- A line whose payload decodes goes to SUBMIT (R201). -/
theorem lineStep_of_row {item : LineItem} {row : List Byte} (h : decodeLine item = .row row) (now : Time)
    (s : State) : lineStep item now s = submit item row now s := by
  rw [lineStep, h]

theorem exec_of_row {i : Instr} {item : LineItem} {now : Time} {row : List Byte} (hi : CarriesLine i item now)
    (hrow : decodeLine item = .row row) (s : State) :
    exec i s = submit item row now { s with fbuf := fbufAfter i s } := by
  rw [exec_of_carriesLine hi, lineStep_of_row hrow]

/-! ## Lines that change no slot -/

theorem submit_of_outOfRange (item : LineItem) (row : List Byte) (now : Time) (s : State)
    (h : 342 ≤ item.lid.toNat) : submit item row now s = .next (s.raise (.lineRange item.fid item.lid)) := by
  rcases submit_cases item row now s with ⟨_, hn⟩ | ⟨_, hlt, _⟩ | ⟨hlt, _⟩
  · exact hn
  · omega
  · omega

/-- A line of a frame in flight goes to the slot of its frame (R161). -/
theorem submit_of_inFlight (item : LineItem) (row : List Byte) (now : Time) (e : Slot) (s : State)
    (h : item.lid.toNat < 342) (he : s.findSlot item.fid = some e) :
    submit item row now s = insertLine item row now e s := by
  rcases submit_cases item row now s with ⟨hge, _⟩ | ⟨e', _, he', hn⟩ | ⟨_, hnone, _⟩
  · omega
  · obtain rfl : e = e' := Option.some.inj (he.symm.trans he')
    exact hn
  · rw [he] at hnone
    cases hnone

theorem insertLine_of_present (item : LineItem) (row : List Byte) (now : Time) (e : Slot) (s : State)
    (h : e.has item.lid.toNat = true) :
    insertLine item row now e s = .next (s.raise (.lineDup item.fid item.lid)) :=
  if_pos h

/-- Settles O21: the range check of SUBMIT comes before any slot is looked at. -/
theorem outOfRangeLineIsIgnored : Obligations.OutOfRangeLineIsIgnored := by
  intro i item now row s hi hrow hrange
  rw [exec_of_row hi hrow, submit_of_outOfRange item row now _ hrange]
  rfl

/-- Settles O22: SUBMIT finds the slot of the frame, and its present bit stops the line there. -/
theorem duplicateLineChangesNothing : Obligations.DuplicateLineChangesNothing := by
  intro i item now row e s hi hrow hlid hslot hpresent
  have hslot' : State.findSlot { s with fbuf := fbufAfter i s } item.fid = some e := hslot
  rw [exec_of_row hi hrow, submit_of_inFlight item row now e _ hlid hslot',
    insertLine_of_present item row now e _ hpresent]
  rfl

/-! ## Staleness -/

/-- With stall eviction on, SWEEP keeps exactly the slots whose age is at most the stall window (R170, R171). -/
theorem mem_sweep_slots_iff (now : Time) (s : State) (e : Slot) (h : cfgStallEn s.cfg = true) :
    e ∈ (sweep now s).slots ↔ e ∈ s.slots ∧ (slotAge now e).toNat ≤ (cfgStallWindow s.cfg).toNat := by
  rw [sweep_on now s h, List.mem_filter, Bool.not_eq_true', Bool.eq_false_iff, ne_eq, stale_iff, Nat.not_lt]

/-- The age is 0 only at the slot's own time. -/
theorem slotAge_pos (now : Time) (e : Slot) (h : now ≠ e.tLast) : 0 < (slotAge now e).toNat := by
  have hage : slotAge now e ≠ 0 := fun h0 => h (sub_eq_zero.1 h0)
  exact Nat.pos_of_ne_zero fun h0 => hage (BitVec.eq_of_toNat_eq h0)

/-- Settles O32: a slot is kept exactly when its age is at most the window, and a later time has a positive
age. -/
theorem stalenessIsStrict : Obligations.StalenessIsStrict := by
  intro now s e hen he
  have hkept := mem_sweep_slots_iff now s e hen
  refine ⟨fun hage => hkept.2 ⟨he, Nat.le_of_eq hage⟩, fun hage hmem => ?_, fun hwindow hne hmem => ?_⟩
  · exact Nat.not_le.2 hage (hkept.1 hmem).2
  · have hpos := slotAge_pos now e hne
    have hle := (hkept.1 hmem).2
    rw [hwindow] at hle
    exact Nat.not_le.2 hpos hle

/-- Between a slot's time `t0` and a later `t1`, the age is the elapsed time modulo 2^32 (R172). -/
theorem slotAge_ofNat (t0 t1 : Nat) (e : Slot) (hle : t0 ≤ t1) (he : e.tLast = BitVec.ofNat 32 t0) :
    (slotAge (BitVec.ofNat 32 t1) e).toNat = (t1 - t0) % 2 ^ 32 := by
  rw [slotAge_toNat, he]
  simp only [BitVec.toNat_ofNat, Config.timeBits]
  omega

/-- Settles O33: a number is its own remainder modulo 2^32 exactly below 2^32. -/
theorem ageIsElapsedTime : Obligations.AgeIsElapsedTime := by
  intro t0 t1 e hle he
  have hage := slotAge_ofNat t0 t1 e hle he
  refine ⟨hage, ?_⟩
  rw [hage]
  exact Nat.mod_eq_iff_lt (by decide)

end Sys2Proof.Machine
end

