-- ==== Sys2Proof/Proofs/Reset.lean ====
section
/-! RESET (70_reset_and_hazards.md R260): the well-formed configuration words in terms of their values
(10_state.md R25), and what a RESET latches, empties and leaves. -/

namespace Sys2Proof.Machine

/-- The reserved bits 15:8 of R25. -/
theorem lowReserved_eq_zero_iff (c : CfgWord) : c.extractLsb' 8 8 = 0#8 ↔ c.toNat / 2 ^ 8 % 2 ^ 8 = 0 := by
  rw [← BitVec.toNat_inj, BitVec.extractLsb'_toNat, Nat.shiftRight_eq_div_pow, BitVec.toNat_ofNat, Nat.zero_mod]

/-- The reserved bits 63:48 of R25: nothing stands above them, so the quotient is the whole field. -/
theorem highReserved_eq_zero_iff (c : CfgWord) : c.extractLsb' 48 16 = 0#16 ↔ c.toNat / 2 ^ 48 = 0 := by
  have hfield : c.toNat / 2 ^ 48 < 2 ^ 16 := Nat.div_lt_of_lt_mul c.isLt
  rw [← BitVec.toNat_inj, BitVec.extractLsb'_toNat, Nat.shiftRight_eq_div_pow, BitVec.toNat_ofNat, Nat.zero_mod,
    Nat.mod_eq_of_lt hfield]

theorem cfgWellFormed_iff (c : CfgWord) :
    cfgWellFormed c = true ↔
      c.toNat / 2 ^ 8 % 2 ^ 8 = 0 ∧ c.toNat / 2 ^ 48 = 0 ∧ 1 ≤ c.toNat / 2 ^ 4 % 2 ^ 4 := by
  rw [cfgWellFormed, Bool.and_eq_true, Bool.and_eq_true, beq_iff_eq, beq_iff_eq, decide_eq_true_eq,
    lowReserved_eq_zero_iff, highReserved_eq_zero_iff, cfgBsWindow_eq, and_assoc]

/-- Settles O42: the condition on the word is `cfgWellFormed`, which decides between the two answers of RESET. -/
theorem resetLatchesAndEmpties : Obligations.ResetLatchesAndEmpties := by
  intro c s
  rw [← cfgWellFormed_iff]
  rcases execReset_cases c s with ⟨hwf, hnext⟩ | ⟨hwf, hrefused⟩
  · exact ⟨fun _ => ⟨_, hnext, rfl, rfl, rfl, rfl⟩, fun hbad => absurd hwf hbad⟩
  · exact ⟨fun hgood => absurd hgood (Bool.eq_false_iff.1 hwf), fun _ => hrefused⟩

end Sys2Proof.Machine
end

