-- ==== Sys2Proof/Proofs/Encoding.lean ====
section
/-! The decoder on the encoder's own bits and on headers known byte by byte (30_encoding.md R71 to R81), and the
checks of PARSE_DGRAM in their order (40_framer.md R113). -/

namespace Sys2Proof.Machine

/-! ## Fields as numbers -/

/-- A two-byte field as a number, low byte first (R50). -/
theorem u16le_toNat (lo hi : Byte) : (u16le lo hi).toNat = lo.toNat + 256 * hi.toNat := by
  have hdisjoint : lo.setWidth 16 &&& hi.setWidth 16 <<< 8 = 0#16 := by
    ext i hi
    by_cases h8 : i < 8
    · simp [h8]
    · simp [show lo.getLsbD i = false from BitVec.getLsbD_of_ge lo i (by omega)]
  rw [u16le, ← BitVec.add_eq_or_of_and_eq_zero _ _ hdisjoint]
  bv_omega

theorem u16le_eq_ofNat (lo hi : Byte) : u16le lo hi = BitVec.ofNat 16 (lo.toNat + 256 * hi.toNat) := by
  rw [← u16le_toNat, BitVec.ofNat_toNat, BitVec.setWidth_eq]

/-- The RLE flag is set exactly where `len` is at least 0x8000 (R72). -/
theorem rleFlag_eq_decide (len : U16) : rleFlag len = decide (32768 ≤ len.toNat) := by
  rw [rleFlag, BitVec.getLsbD, Nat.testBit_eq_decide_div_mod_eq]
  have := len.isLt
  exact decide_eq_decide.2 (by omega)

/-! ## The three units that read bytes -/

/-- A packet with a valid header decodes to its class, whatever follows it (R80, R107). -/
theorem decodePacket_packetBytes (item : LineItem) (rest : List Byte) (now : Time) (h1 : 1 ≤ item.n)
    (h128 : item.n ≤ 128) : decodePacket (packetBytes item ++ rest) now = .ok (instrOfItem item now) := by
  have hmagic : startsMagic (packetBytes item ++ rest) = true := by
    rw [packetBytes_append]
    exact startsMagic_bsHeader _ _ _ _
  rw [decodePacket, if_pos hmagic, headView_packetBytes item rest h1 h128]

/-- A header with a length of 0 or above 128 decodes to BS_CORRUPT (R80, R105). -/
theorem decodePacket_corruptHeader (fid : FrameId) (lid len : U16) (rest : List Byte) (now : Time)
    (h : headerOk len = false) :
    decodePacket (bsHeader fid lid len ++ rest) now = .ok (.bsCorrupt fid lid len) := by
  rw [decodePacket, if_pos (startsMagic_bsHeader fid lid len rest), headView_bsHeader, h]
  rfl

/-- A datagram written from the format passes every check and carries its line (R74, R113). -/
theorem parseDgram_dgramBytes (exact : Bool) (fid : FrameId) (lid : U16) (p : List Byte) (hp : p.length ≤ 128) :
    parseDgram exact (dgramBytes fid lid p) = .ok ⟨fid, lid, true, p⟩ := by
  have hn : (BitVec.ofNat 16 p.length).toNat = p.length := by
    rw [BitVec.toNat_ofNat, Nat.mod_eq_of_lt (by omega)]
  have hsize : dgramSizeOk exact (p.length + 10) p.length = true := by
    cases exact <;> simp [dgramSizeOk, Nat.add_comm]
  simp only [dgramBytes, udpHeader, List.cons_append, List.nil_append, parseDgram_header _ _ _ _ _ _ _ _ _ _ _ _ hp,
    u16le_loByte_hiByte, hn, hsize, List.take_length]
  rfl

/-- Settles O1, by the constructors: each class is decoded by the unit its encoding stands before. -/
theorem decodeEncodeRoundTrip : Obligations.DecodeEncodeRoundTrip := by
  intro exact i hwf
  cases i with
  | bsRaw fid lid p now =>
    obtain ⟨h1, h128⟩ := (Laws.payloadFits_iff p).1 hwf
    have hpacket := decodePacket_packetBytes ⟨fid, lid, false, p⟩ [] now h1 h128
    rwa [List.append_nil] at hpacket
  | bsRle fid lid p now =>
    obtain ⟨h1, h128⟩ := (Laws.payloadFits_iff p).1 hwf
    have hpacket := decodePacket_packetBytes ⟨fid, lid, true, p⟩ [] now h1 h128
    rwa [List.append_nil] at hpacket
  | bsCorrupt fid lid len =>
    have hlen : headerOk len = false := by simpa [Instr.wf] using hwf
    have hheader := decodePacket_corruptHeader fid lid len [] 0 hlen
    rwa [List.append_nil] at hheader
  | udpRle8 fid lid p now =>
    have hp : p.length ≤ 128 := of_decide_eq_true hwf
    rw [encode, ← dgramBytes, decode, decodeDgram, parseDgram_dgramBytes exact fid lid p hp]
  | udpReject d cause =>
    simp only [Instr.wf] at hwf
    simp only [encode, decode, decodeDgram]
    split at hwf
    · rename_i c hparse
      rw [hparse, beq_iff_eq.1 hwf]
    · cases hwf
  | rlePair count value =>
    have hcount : count ≠ 0 := by simpa [Instr.wf] using hwf
    rw [encode, decode, decodePair, if_neg hcount]
  | rlePairZero value => rfl
  | byte b now => rfl
  | dgram d now => rfl
  | tick now => rfl
  | reset c =>
    simp only [encode, decode, decodePort]
    exact if_pos hwf

/-- Settles O2, by evaluation of the decoder on each word. -/
theorem specWordsDecode : Obligations.SpecWordsDecode := by
  refine ⟨?_, ?_, ?_, ?_, ?_, ?_, ?_, ?_, ?_, ?_, ?_, ?_⟩ <;> decide +kernel

/-- Settles O3, by the view of a whole header and the three ranges of its length. -/
theorem packetClassFollowsLength : Obligations.PacketClassFollowsLength := by
  intro f0 f1 l0 l1 n0 n1 rest now fid lid len n b
  have hmagic : startsMagic b = true := (startsMagic_iff b).2 ⟨_, rfl⟩
  have hlen : (u16le n0 n1).toNat = len := u16le_toNat n0 n1
  have hn : payloadLen (u16le n0 n1) = n := by rw [payloadLen_eq, hlen]
  have hok : headerOk (u16le n0 n1) = true ↔ 1 ≤ n ∧ n ≤ 128 := by rw [headerOk_iff, hn]
  have hview : decode true (.framer b now) =
      if headerOk (u16le n0 n1) then
        if rest.length < n then .error .needMore
        else .ok (instrOfItem ⟨fid, lid, decide (32768 ≤ len), rest.take n⟩ now)
      else .ok (.bsCorrupt fid lid (BitVec.ofNat 16 len)) := by
    rw [decode, decodePacket, if_pos hmagic, headView_long, hn, u16le_eq_ofNat f0 f1, u16le_eq_ofNat l0 l1,
      rleFlag_eq_decide, hlen, u16le_eq_ofNat n0 n1]
    by_cases hgood : headerOk (BitVec.ofNat 16 (n0.toNat + 256 * n1.toNat)) = true
    · by_cases hshort : rest.length < n
      · simp only [hgood, hshort, if_true]
      · simp only [hgood, hshort, if_true, if_false, fid, lid]
    · simp only [hgood, if_false, Bool.false_eq_true, fid, lid, len]
  refine ⟨fun hbad => ?_, fun h1 h128 hshort => ?_, fun h1 h128 hwhole hflag => ?_, fun h1 h128 hwhole hflag => ?_⟩
  · rw [hview, if_neg (by rw [hok]; omega)]
  · rw [hview, if_pos (hok.2 ⟨h1, h128⟩), if_pos hshort]
  · rw [hview, if_pos (hok.2 ⟨h1, h128⟩), if_neg (by omega), instrOfItem, decide_eq_false (by omega)]
    rfl
  · rw [hview, if_pos (hok.2 ⟨h1, h128⟩), if_neg (by omega), instrOfItem, decide_eq_true hflag]
    rfl

/-! ## PARSE_DGRAM -/

/-- Check 6 of R113 as a comparison of the bytes after the header with payload_len. -/
theorem dgramSizeOk_iff (exact : Bool) (m n : Nat) :
    dgramSizeOk exact (m + 10) n = true ↔ if exact then m = n else n ≤ m := by
  cases exact <;> simp [dgramSizeOk, Nat.add_comm]

/-- Settles O4, by the size checks and then the checks of a whole header in their order. -/
theorem datagramChecksInOrder : Obligations.DatagramChecksInOrder := by
  intro exact d
  refine ⟨parseDgram_long exact d, parseDgram_short exact d, ?_⟩
  rintro m0 m1 ver fmt f0 f1 l0 l1 n0 n1 tail n rfl hcap
  have htail : tail.length ≤ 128 := Nat.le_of_add_le_add_right (b := 10) hcap
  have hmagic : isMagic m0 m1 = true ↔ m0 = 0xEB ∧ m1 = 0xD1 := isMagic_iff m0 m1
  have hn : (u16le n0 n1).toNat = n := u16le_toNat n0 n1
  have hsize := dgramSizeOk_iff exact tail.length n
  have hparse := parseDgram_header exact m0 m1 ver fmt f0 f1 l0 l1 n0 n1 tail htail
  rw [hn, u16le_eq_ofNat f0 f1, u16le_eq_ofNat l0 l1, u16le_eq_ofNat n0 n1] at hparse
  have hgood : m0 = 0xEB ∧ m1 = 0xD1 → ¬(!isMagic m0 m1) = true := fun hm => by simp [hmagic.2 hm]
  rw [hparse]
  refine ⟨fun hm => ?_, fun hm (hv : ver ≠ Config.udpVersion) => ?_,
    fun hm (hv : ver = Config.udpVersion) (hf : fmt ≠ Config.udpFormatRle8) => ?_,
    fun hm (hv : ver = Config.udpVersion) (hf : fmt = Config.udpFormatRle8) hs => ?_,
    fun hm (hv : ver = Config.udpVersion) (hf : fmt = Config.udpFormatRle8) hs => ?_⟩
  · rw [Bool.eq_false_iff.2 (mt hmagic.1 hm)]
    rfl
  · rw [if_neg (hgood hm), if_pos hv]
  · rw [if_neg (hgood hm), if_neg (not_not.2 hv), if_pos hf]
  · have hbad : ¬dgramSizeOk exact (tail.length + 10) n = true := by
      rw [hsize]
      cases exact
      · exact Nat.not_le.2 hs
      · exact hs
    rw [if_neg (hgood hm), if_neg (not_not.2 hv), if_neg (not_not.2 hf), if_neg hbad]
    rfl
  · rw [if_neg (hgood hm), if_neg (not_not.2 hv), if_neg (not_not.2 hf), if_pos (hsize.2 hs)]

end Sys2Proof.Machine
end

