-- ==== Sys2Proof/Proofs/Slots.lean ====
section
/-! The slots and the line buffer under the operations of the assembler (10_state.md R27 to R30, 20_memory.md
R52): inserting a line in a slot, removing slots with their rows, and allocating a slot. Each keeps `StoreInv`,
the part of the assembler's invariant that also holds in the middle of a SUBMIT. -/

namespace Sys2Proof.Machine

/-! ## A slot's counters -/

/-- The invariants of R29 that a slot has from its allocation to its emission: those of `SlotOk` but for the
bounds on the number of lines. -/
structure SlotCounts (e : Slot) : Prop where
  count : e.nLines.toNat = presentCount e.present
  rle : e.rleLineCount.toNat ≤ e.nLines.toNat
  bytesLow : e.nLines.toNat ≤ e.byteCount.toNat
  bytesHigh : e.byteCount.toNat ≤ 128 * e.nLines.toNat

theorem slotOk_iff (e : Slot) : SlotOk e ↔ SlotCounts e ∧ 1 ≤ e.nLines.toNat ∧ e.nLines.toNat < 342 :=
  ⟨fun h => ⟨⟨h.count, h.rle, h.bytesLow, h.bytesHigh⟩, h.nonempty, h.incomplete⟩,
    fun ⟨h, hlo, hhi⟩ => ⟨h.count, hlo, hhi, h.rle, h.bytesLow, h.bytesHigh⟩⟩

theorem SlotOk.counts {e : Slot} (h : SlotOk e) : SlotCounts e := ((slotOk_iff e).1 h).1

theorem newSlot_counts (fid : FrameId) (now : Time) (p : Nat) : SlotCounts (newSlot fid now p) := by
  refine ⟨Eq.symm ?_, Nat.le_refl _, Nat.le_refl _, Nat.le_refl _⟩
  exact List.countP_eq_zero.2 fun l _ => by simp [newSlot]

@[simp] theorem newSlot_has (fid : FrameId) (now : Time) (p l : Nat) : (newSlot fid now p).has l = false := by
  simp [Slot.has, newSlot]

@[simp] theorem newSlot_fid (fid : FrameId) (now : Time) (p : Nat) : (newSlot fid now p).fid = fid := rfl

@[simp] theorem newSlot_phys (fid : FrameId) (now : Time) (p : Nat) : (newSlot fid now p).phys = p := rfl

section
variable (e : Slot) (item : LineItem) (now : Time)

@[simp] theorem insert_phys : (e.insert item now).phys = e.phys := rfl
@[simp] theorem insert_fid : (e.insert item now).fid = e.fid := rfl
@[simp] theorem insert_tLast : (e.insert item now).tLast = now := rfl

/-- A line's present bit is set, and no other changes (R165). -/
theorem insert_has (hlid : item.lid.toNat < 342) (l : Nat) :
    (e.insert item now).has l = (decide (l = item.lid.toNat) || e.has l) := by
  rw [Slot.has, Slot.insert, getLsbD_presentWith, decide_eq_true hlid, Bool.true_and, Bool.or_comm, Slot.has,
    decide_eq_decide.2 eq_comm]

theorem insert_nLines (h : e.nLines.toNat < 342) : (e.insert item now).nLines.toNat = e.nLines.toNat + 1 := by
  simp only [Slot.insert, BitVec.toNat_add, BitVec.reduceToNat]
  omega

theorem insert_rleLineCount (h : SlotCounts e) (hn : e.nLines.toNat < 342) :
    (e.insert item now).rleLineCount.toNat = e.rleLineCount.toNat + item.rle.toNat := by
  have := h.rle
  simp only [Slot.insert, BitVec.toNat_add]
  have hcount : (rleCount item.rle).toNat = item.rle.toNat := by cases item.rle <;> rfl
  have hle := Bool.toNat_le item.rle
  rw [hcount]
  omega

theorem insert_byteCount (h : SlotCounts e) (hn : e.nLines.toNat < 342) (hb : item.n ≤ 128) :
    (e.insert item now).byteCount.toNat = e.byteCount.toNat + item.n := by
  have := h.bytesHigh
  simp only [Slot.insert, BitVec.toNat_add, BitVec.toNat_ofNat]
  omega

/-- A slot is complete at its 342nd line (R167). -/
theorem insert_complete_iff (h : e.nLines.toNat < 342) :
    (e.insert item now).complete = true ↔ e.nLines.toNat = 341 := by
  rw [Slot.complete, beq_iff_eq, insert_nLines e item now h, Config.lines_val]
  omega

end

/-- A line that was not present keeps the counters in step with the present bits (R29, R165). -/
theorem SlotCounts.insert {e : Slot} {item : LineItem} (h : SlotCounts e) (hn : e.nLines.toNat < 342)
    (hlid : item.lid.toNat < 342) (hnew : e.has item.lid.toNat = false) (hb1 : 1 ≤ item.n) (hb : item.n ≤ 128)
    (now : Time) : SlotCounts (e.insert item now) := by
  obtain ⟨hcount, hrle, hlow, hhigh⟩ := h
  have hrle1 := Bool.toNat_le item.rle
  have hN := insert_nLines e item now hn
  have hR := insert_rleLineCount e item now ⟨hcount, hrle, hlow, hhigh⟩ hn
  have hB := insert_byteCount e item now ⟨hcount, hrle, hlow, hhigh⟩ hn hb
  refine ⟨?_, by omega, by omega, by omega⟩
  rw [hN, hcount]
  exact (presentCount_presentWith e.present item.lid.toNat hlid hnew).symm

/-! ## Addresses of rows -/

/-- The 64 bytes of a row are the addresses of that slot and that line (R52). -/
theorem inRow_iff (p l a : Nat) (hl : l < 342) : inRow p l a ↔ physOf a = p ∧ lineOf a = l := by
  simp only [inRow, physOf, lineOf, lbAddr, Config.lines_val, Config.rowBytes_val]
  omega

/-- Byte `b` of a row, counted from the row's first byte. -/
theorem lbAddr_add (p l b : Nat) : lbAddr p l 0 + b = lbAddr p l b := rfl

/-- The row of a physical slot within the window lies in the line buffer (R52). -/
theorem lbAddr_le_lbSize (c : CfgWord) (p l : Nat) (hp : p < windowSize c) (hl : l < 342) :
    lbAddr p l 0 + 64 ≤ lbSize c := by
  simp only [lbAddr, lbSize, Config.lines_val, Config.rowBytes_val]
  omega

/-- The row of a line in the line buffer, where all its bytes hold values. -/
def Memory.row (m : Memory) (p l : Nat) : Option (List Byte) := m.readBytes (lbAddr p l 0) 64

/-- A row reads as before where every address of its slot does. -/
theorem Memory.row_congr {m m' : Memory} {p : Nat} (l : Nat) (hl : l < 342)
    (h : ∀ a, physOf a = p → m'.read a = m.read a) : m'.row p l = m.row p l :=
  Memory.readBytes_congr _ _ _ _ fun b hb => h _ (by rw [lbAddr_add, physOf_lbAddr p l b hl hb])

theorem Memory.row_length {m : Memory} {p l : Nat} {row : List Byte} (h : m.row p l = some row) :
    row.length = 64 := ((Memory.readBytes_eq_some _ _ _ _).1 h).1

/-- One row written: it reads as written, and every address outside it as before (R165). -/
theorem Memory.row_writeBytes_same (m : Memory) (p l : Nat) (row : List Byte) (hrow : row.length = 64) :
    Memory.row (m.writeBytes (lbAddr p l 0) row) p l = some row := by
  rw [Memory.row, ← hrow]
  exact Memory.readBytes_writeBytes_same _ _ _

theorem Memory.read_writeRow_outside (m : Memory) (p l a : Nat) (row : List Byte) (hrow : row.length = 64)
    (ha : ¬inRow p l a) : (m.writeBytes (lbAddr p l 0) row).read a = m.read a := by
  rw [Memory.read_writeBytes, hrow]
  exact if_neg ha

theorem Memory.read_writeRow_inside (m : Memory) (p l a : Nat) (row : List Byte) (hrow : row.length = 64)
    (ha : inRow p l a) : ((m.writeBytes (lbAddr p l 0) row).read a).isSome = true := by
  have hi : a - lbAddr p l 0 < row.length := by
    rw [hrow]
    exact Nat.sub_lt_left_of_lt_add ha.1 ha.2
  rw [Memory.read_writeBytes, hrow, if_pos (show lbAddr p l 0 ≤ a ∧ a < lbAddr p l 0 + 64 from ha),
    List.getElem?_eq_getElem hi]
  rfl

theorem Memory.row_writeBytes_other (m : Memory) (p l p' l' : Nat) (row : List Byte) (hrow : row.length = 64)
    (hl : l < 342) (hl' : l' < 342) (hne : ¬(p' = p ∧ l' = l)) :
    Memory.row (m.writeBytes (lbAddr p l 0) row) p' l' = m.row p' l' := by
  refine Memory.readBytes_congr _ _ _ _ fun b hb => Memory.read_writeRow_outside m p l _ row hrow ?_
  rwa [lbAddr_add, inRow_iff p l _ hl, physOf_lbAddr p' l' b hl' hb, lineOf_lbAddr p' l' b hl' hb]

/-! ## The invariant of slots and line buffer -/

/-- The invariants of slots and line buffer without those of the slots' counters (R25, R28, R30, R52). -/
structure StoreInv (s : State) : Prop where
  cfg : cfgWellFormed s.cfg = true
  window : s.slots.length ≤ windowSize s.cfg
  fids : (s.slots.map Slot.fid).Nodup
  physes : (s.slots.map Slot.phys).Nodup
  physBound : ∀ e ∈ s.slots, e.phys < windowSize s.cfg
  canonical : s.mem.wf
  held : ∀ e ∈ s.slots, ∀ l < 342, e.has l = true → ∀ b < 64, (s.mem.read (lbAddr e.phys l b)).isSome = true
  only : ∀ c ∈ s.mem, ∃ e ∈ s.slots, e.phys = physOf c.1 ∧ e.has (lineOf c.1) = true

theorem assemblerInv_iff (s : State) : AssemblerInv s ↔ StoreInv s ∧ ∀ e ∈ s.slots, SlotOk e :=
  ⟨fun h => ⟨⟨h.cfg, h.window, h.fids, h.physes, h.physBound, h.canonical, h.held, h.only⟩, h.slots⟩,
    fun ⟨h, hslots⟩ => ⟨h.cfg, h.window, h.fids, h.physes, h.physBound, hslots, h.canonical, h.held, h.only⟩⟩

theorem AssemblerInv.store {s : State} (h : AssemblerInv s) : StoreInv s := ((assemblerInv_iff s).1 h).1

/-- The invariants speak of the configuration word, the slots and the line buffer alone. -/
theorem StoreInv.congr {s t : State} (h : StoreInv s) (hcfg : t.cfg = s.cfg) (hslots : t.slots = s.slots)
    (hmem : t.mem = s.mem) : StoreInv t := by
  obtain ⟨h1, h2, h3, h4, h5, h6, h7, h8⟩ := h
  rw [← hcfg] at h1 h2 h5
  rw [← hslots] at h2 h3 h4 h5 h7 h8
  rw [← hmem] at h6 h7 h8
  exact ⟨h1, h2, h3, h4, h5, h6, h7, h8⟩

theorem AssemblerInv.congr {s t : State} (h : AssemblerInv s) (hcfg : t.cfg = s.cfg) (hslots : t.slots = s.slots)
    (hmem : t.mem = s.mem) : AssemblerInv t :=
  (assemblerInv_iff t).2 ⟨h.store.congr hcfg hslots hmem, by rw [hslots]; exact h.slots⟩

theorem AssemblerInv.setFbuf {s : State} (h : AssemblerInv s) (b : List Byte) :
    AssemblerInv { s with fbuf := b } := h.congr rfl rfl rfl

theorem AssemblerInv.raise {s : State} (h : AssemblerInv s) (ev : Event) : AssemblerInv (s.raise ev) :=
  h.congr rfl rfl rfl

theorem AssemblerInv.beginTxn {s : State} (h : AssemblerInv s) : AssemblerInv s.beginTxn := h.congr rfl rfl rfl

/-- A well-formed word has a window of at least one slot (R24, R25). -/
theorem windowSize_pos (c : CfgWord) (h : cfgWellFormed c = true) : 1 ≤ windowSize c := by
  have hw := ((cfgWellFormed_iff c).1 h).2.2
  rw [← cfgBsWindow_eq] at hw
  cases hm : cfgMode c with
  | datagram => rw [windowSize_datagram c hm]; decide
  | byteStream => rwa [windowSize_byteStream c hm]

/-- With no slot and no byte held, a well-formed configuration word is all the invariant asks (R36). -/
theorem AssemblerInv.of_empty {s : State} (hcfg : cfgWellFormed s.cfg = true) (hslots : s.slots = [])
    (hmem : s.mem = []) : AssemblerInv s := by
  constructor <;> simp [hcfg, hslots, hmem]

/-! ## The slot of a frame_id -/

theorem mem_of_findSlot {s : State} {fid : FrameId} {e : Slot} (h : s.findSlot fid = some e) : e ∈ s.slots :=
  List.mem_of_find?_eq_some h

theorem fid_of_findSlot {s : State} {fid : FrameId} {e : Slot} (h : s.findSlot fid = some e) : e.fid = fid := by
  simpa using List.find?_some h

theorem findSlot_eq_none_iff (s : State) (fid : FrameId) : s.findSlot fid = none ↔ ∀ e ∈ s.slots, e.fid ≠ fid := by
  simp [State.findSlot]

theorem eq_of_fid_eq {slots : List Slot} (h : (slots.map Slot.fid).Nodup) {x y : Slot} (hx : x ∈ slots)
    (hy : y ∈ slots) (hxy : x.fid = y.fid) : x = y := List.inj_on_of_nodup_map h hx hy hxy

theorem eq_of_phys_eq {slots : List Slot} (h : (slots.map Slot.phys).Nodup) {x y : Slot} (hx : x ∈ slots)
    (hy : y ∈ slots) (hxy : x.phys = y.phys) : x = y := List.inj_on_of_nodup_map h hx hy hxy

theorem findSlot_eq_some_iff {s : State} (h : (s.slots.map Slot.fid).Nodup) (fid : FrameId) (e : Slot) :
    s.findSlot fid = some e ↔ e ∈ s.slots ∧ e.fid = fid := by
  refine ⟨fun he => ⟨mem_of_findSlot he, fid_of_findSlot he⟩, fun ⟨he, hfid⟩ => ?_⟩
  cases hf : s.findSlot fid with
  | none => exact absurd hfid ((findSlot_eq_none_iff s fid).1 hf e he)
  | some x => rw [eq_of_fid_eq h (mem_of_findSlot hf) he ((fid_of_findSlot hf).trans hfid.symm)]

/-! ## Inserting a line -/

theorem map_replaceSlot {α : Type} (f : Slot → α) (e : Slot) (slots : List Slot)
    (h : ∀ x ∈ slots, x.fid = e.fid → f e = f x) : (replaceSlot e slots).map f = slots.map f := by
  rw [replaceSlot, List.map_map]
  refine List.map_congr_left fun x hx => ?_
  rw [Function.comp_apply]
  split
  · rename_i hfid
    exact h x hx (eq_of_beq hfid)
  · rfl

theorem mem_replaceSlot {e x : Slot} {slots : List Slot} (h : x ∈ replaceSlot e slots) :
    x = e ∨ (x ∈ slots ∧ x.fid ≠ e.fid) := by
  obtain ⟨y, hy, hxy⟩ := List.mem_map.1 h
  split at hxy
  · exact .inl hxy.symm
  · rename_i hne
    subst hxy
    exact .inr ⟨hy, fun hfid => hne (beq_iff_eq.2 hfid)⟩

theorem mem_replaceSlot_self {e x : Slot} {slots : List Slot} (hx : x ∈ slots) (hfid : x.fid = e.fid) :
    e ∈ replaceSlot e slots :=
  List.mem_map.2 ⟨x, hx, if_pos (beq_iff_eq.2 hfid)⟩

theorem mem_replaceSlot_other {e x : Slot} {slots : List Slot} (hx : x ∈ slots) (hfid : x.fid ≠ e.fid) :
    x ∈ replaceSlot e slots :=
  List.mem_map.2 ⟨x, hx, if_neg (mt beq_iff_eq.1 hfid)⟩

/-- Inserting a line in a slot of the list keeps the invariant: its row's bytes are held, and its present bit is
set (R30, R165). -/
theorem StoreInv.inserted {s : State} {e : Slot} {item : LineItem} {row : List Byte} (h : StoreInv s)
    (he : e ∈ s.slots) (hlid : item.lid.toNat < 342) (hrow : row.length = 64) (now : Time) :
    StoreInv (inserted item row now e s) := by
  have hsame : ∀ x ∈ s.slots, x.fid = e.fid → x = e := fun x hx => eq_of_fid_eq h.fids hx he
  constructor
  case cfg => exact h.cfg
  case window => exact (List.length_map _).trans_le h.window
  case fids =>
    show ((replaceSlot _ _).map Slot.fid).Nodup
    rw [map_replaceSlot _ _ _ fun x _ hx => hx.symm]
    exact h.fids
  case physes =>
    show ((replaceSlot _ _).map Slot.phys).Nodup
    rw [map_replaceSlot _ _ _ fun x hx hfid => by rw [hsame x hx hfid]; rfl]
    exact h.physes
  case physBound =>
    intro x hx
    rcases mem_replaceSlot hx with rfl | ⟨hx, _⟩
    · exact h.physBound e he
    · exact h.physBound x hx
  case canonical => exact Memory.wf_writeBytes _ _ _ h.canonical
  case held =>
    intro x hx l hl hhas b hb
    show (Memory.read (s.mem.writeBytes _ _) _).isSome = true
    by_cases hin : inRow e.phys item.lid.toNat (lbAddr x.phys l b)
    · exact Memory.read_writeRow_inside _ _ _ _ _ hrow hin
    · rw [Memory.read_writeRow_outside _ _ _ _ _ hrow hin]
      rcases mem_replaceSlot hx with rfl | ⟨hx, _⟩
      · rw [inRow_iff _ _ _ hlid, insert_phys, physOf_lbAddr _ _ _ hl hb, lineOf_lbAddr _ _ _ hl hb] at hin
        rw [insert_has e item now hlid, decide_eq_false fun hll => hin ⟨rfl, hll⟩] at hhas
        exact h.held e he l hl hhas b hb
      · exact h.held x hx l hl hhas b hb
  case only =>
    intro c hc
    show ∃ x ∈ replaceSlot _ _, _
    have hbit : ∀ l, (l = item.lid.toNat ∨ e.has l = true) → (e.insert item now).has l = true := by
      intro l hl
      rw [insert_has e item now hlid]
      simpa using hl
    have hmem := mem_replaceSlot_self (e := e.insert item now) he rfl
    rcases Memory.mem_writeBytes _ _ _ c hc with hin | hold
    · rw [hrow] at hin
      obtain ⟨hp, hl⟩ := (inRow_iff _ _ _ hlid).1 hin
      exact ⟨_, hmem, hp.symm, hbit _ (.inl hl)⟩
    · obtain ⟨x, hx, hp, hhas⟩ := h.only c hold
      by_cases hfid : x.fid = e.fid
      · rw [hsame x hx hfid] at hp hhas
        exact ⟨_, hmem, hp, hbit _ (.inr hhas)⟩
      · exact ⟨x, mem_replaceSlot_other hx hfid, hp, hhas⟩

/-! ## Removing slots -/

/-- The state without the slots that `dead` names and without their rows (R164, R167, R170). -/
def dropSlots (dead : Slot → Bool) (s : State) : State :=
  { s with
    slots := s.slots.filter (fun e => !dead e)
    mem := (s.slots.filter dead).foldl (fun m e => m.freeRows e.phys) s.mem }

theorem mem_dropSlots_slots {dead : Slot → Bool} {s : State} {e : Slot} :
    e ∈ (dropSlots dead s).slots ↔ e ∈ s.slots ∧ dead e = false := by
  simp [dropSlots, List.mem_filter]

/-- The removed slots' rows hold no value. -/
theorem read_dropSlots_dead {dead : Slot → Bool} {s : State} {e : Slot} {a : Nat} (he : e ∈ s.slots)
    (hdead : dead e = true) (ha : physOf a = e.phys) : (dropSlots dead s).mem.read a = none := by
  rw [← Option.not_isSome_iff_eq_none, Memory.read_isSome_iff]
  rintro ⟨c, hc, rfl⟩
  exact ((mem_freeAll _ _ c).1 hc).2 e (List.mem_filter.2 ⟨he, hdead⟩) ha

/-- Every other byte of the line buffer stays. -/
theorem read_dropSlots_other {dead : Slot → Bool} {s : State} {a : Nat}
    (h : ∀ e ∈ s.slots, dead e = true → physOf a ≠ e.phys) : (dropSlots dead s).mem.read a = s.mem.read a :=
  read_freeAll _ _ _ fun e he => h e (List.mem_filter.1 he).1 (List.mem_filter.1 he).2

/-- The rows of a slot that stays are as they were. -/
theorem read_dropSlots_kept {dead : Slot → Bool} {s : State} {e : Slot} {a : Nat} (h : StoreInv s)
    (he : e ∈ s.slots) (hkept : dead e = false) (ha : physOf a = e.phys) :
    (dropSlots dead s).mem.read a = s.mem.read a := by
  refine read_dropSlots_other fun x hx hdead hp => ?_
  obtain rfl := eq_of_phys_eq h.physes hx he (hp.symm.trans ha)
  rw [hkept] at hdead
  cases hdead

theorem StoreInv.dropSlots {s : State} (h : StoreInv s) (dead : Slot → Bool) : StoreInv (dropSlots dead s) := by
  have hsub : (s.slots.filter (fun e => !dead e)).Sublist s.slots := List.filter_sublist
  constructor
  case cfg => exact h.cfg
  case window => exact hsub.length_le.trans h.window
  case fids => exact h.fids.sublist (hsub.map _)
  case physes => exact h.physes.sublist (hsub.map _)
  case physBound => exact fun e he => h.physBound e (mem_dropSlots_slots.1 he).1
  case canonical => exact freeAll_wf _ _ h.canonical
  case held =>
    intro e he l hl hhas b hb
    obtain ⟨he, hkept⟩ := mem_dropSlots_slots.1 he
    rw [read_dropSlots_kept h he hkept (physOf_lbAddr _ _ _ hl hb)]
    exact h.held e he l hl hhas b hb
  case only =>
    intro c hc
    obtain ⟨hc, hfree⟩ := (mem_freeAll _ _ c).1 hc
    obtain ⟨e, he, hp, hhas⟩ := h.only c hc
    refine ⟨e, mem_dropSlots_slots.2 ⟨he, ?_⟩, hp, hhas⟩
    by_contra hdead
    exact hfree e (List.mem_filter.2 ⟨he, by simpa using hdead⟩) hp.symm

theorem AssemblerInv.dropSlots {s : State} (h : AssemblerInv s) (dead : Slot → Bool) :
    AssemblerInv (dropSlots dead s) :=
  (assemblerInv_iff _).2 ⟨h.store.dropSlots dead, fun e he => h.slots e (mem_dropSlots_slots.1 he).1⟩

/-- Whether a slot is that of a frame_id. -/
def ofFrame (fid : FrameId) (e : Slot) : Bool := e.fid == fid

theorem filter_ofFrame {slots : List Slot} {e : Slot} (h : (slots.map Slot.fid).Nodup) (he : e ∈ slots) :
    slots.filter (ofFrame e.fid) = [e] := by
  induction slots with
  | nil => cases he
  | cons x slots ih =>
    rw [List.map_cons, List.nodup_cons] at h
    rcases List.mem_cons.1 he with rfl | he
    · have hnone : slots.filter (ofFrame e.fid) = [] :=
        List.filter_eq_nil_iff.2 fun y hy hfid => h.1 (List.mem_map.2 ⟨y, hy, eq_of_beq hfid⟩)
      rw [List.filter_cons_of_pos (by simp [ofFrame]), hnone]
    · have hx : ¬ofFrame e.fid x = true := fun hfid => h.1 (eq_of_beq hfid ▸ List.mem_map_of_mem he)
      rw [List.filter_cons_of_neg hx, ih h.2 he]

/-- The window eviction removes the slot of the victim's frame (R164). -/
theorem evicted_eq {s : State} {victim : Slot} {rest : List Slot} (h : StoreInv s)
    (hs : s.slots = victim :: rest) :
    evicted s victim rest =
      (dropSlots (ofFrame victim.fid) s).raise (.evictWindow victim.fid (victim.nLines.setWidth 16)) := by
  have hdead : s.slots.filter (ofFrame victim.fid) = [victim] := filter_ofFrame h.fids (by simp [hs])
  have hfids := h.fids
  rw [hs, List.map_cons, List.nodup_cons] at hfids
  have hrest : s.slots.filter (fun e => !ofFrame victim.fid e) = rest := by
    rw [hs, List.filter_cons_of_neg (by simp [ofFrame]), List.filter_eq_self]
    intro x hx
    have hne : x.fid ≠ victim.fid := fun hfid => hfids.1 (hfid ▸ List.mem_map_of_mem hx)
    simpa [ofFrame] using hne
  rw [evicted, dropSlots, hdead, hrest]
  rfl

/-- EMIT removes the slot of the frame that leaves (R167). -/
theorem emitted_eq {s : State} {e : Slot} (h : StoreInv s) (he : e ∈ s.slots) (rows : List Byte) :
    emitted e rows s =
      (dropSlots (ofFrame e.fid) s).emit (.frame e.fid rows e.byteCount (e.rleLineCount.setWidth 16)) := by
  rw [emitted, dropSlots, filter_ofFrame h.fids he]
  rfl

/-- SWEEP removes the stale slots (R170). -/
theorem sweep_eq (now : Time) (s : State) (h : cfgStallEn s.cfg = true) :
    sweep now s = { dropSlots (Slot.stale s.cfg now) s with
      out := s.out ++ (s.slots.filter (Slot.stale s.cfg now)).map (stallEvent now) } :=
  sweep_on now s h

theorem AssemblerInv.sweep {s : State} (h : AssemblerInv s) (now : Time) : AssemblerInv (sweep now s) := by
  cases hen : cfgStallEn s.cfg with
  | false => rwa [sweep_off now s hen]
  | true =>
    rw [sweep_eq now s hen]
    exact (h.dropSlots (Slot.stale s.cfg now)).congr rfl rfl rfl

/-! ## Allocating a slot -/

/-- What the window eviction does in a sound state: nothing where there is room, else it removes the oldest
slot (R164). -/
theorem evictOldest_of_inv {s : State} (h : StoreInv s) :
    (s.slots.length < windowSize s.cfg ∧ s.evictOldest = s) ∨
      (∃ victim rest, s.slots.length = windowSize s.cfg ∧ s.slots = victim :: rest ∧
        s.evictOldest = evicted s victim rest) := by
  rcases evictOldest_cases s with ⟨hroom, he⟩ | ⟨victim, rest, hfull, hs, he⟩ | ⟨h0, _, _⟩
  · exact .inl ⟨hroom, he⟩
  · exact .inr ⟨victim, rest, Nat.le_antisymm h.window (Nat.lt_succ_iff.1 hfull), hs, he⟩
  · have := windowSize_pos s.cfg h.cfg
    omega

theorem StoreInv.evictOldest {s : State} (h : StoreInv s) : StoreInv s.evictOldest := by
  rcases evictOldest_of_inv h with ⟨_, he⟩ | ⟨victim, rest, _, hs, he⟩ <;> rw [he]
  · exact h
  · rw [evicted_eq h hs]
    exact (h.dropSlots _).congr rfl rfl rfl

theorem evictOldest_slots_subset {s : State} (h : StoreInv s) : s.evictOldest.slots ⊆ s.slots := by
  rcases evictOldest_of_inv h with ⟨_, he⟩ | ⟨victim, rest, _, hs, he⟩ <;> rw [he]
  · exact List.Subset.refl _
  · rw [hs]
    exact List.subset_cons_self _ _

/-- After the eviction a physical slot is free, and the chosen one is free (R163, R164). -/
theorem choosePhys_of_inv {s : State} (h : StoreInv s) :
    s.evictOldest.choosePhys < windowSize s.cfg ∧ ∀ e ∈ s.evictOldest.slots, e.phys ≠ s.evictOldest.choosePhys := by
  have hcfg : s.evictOldest.cfg = s.cfg := (evictOldest_sameFrame s).cfg
  have hroom := evictOldest_room s (windowSize_pos s.cfg h.cfg) h.window
  have hfree := choosePhys_mem _ (freePhys_ne_nil s.evictOldest (by rw [hcfg]; exact hroom))
  obtain ⟨hlt, hnew⟩ := (mem_freePhys _ _).1 hfree
  rw [hcfg] at hlt
  exact ⟨hlt, fun e he hp => hnew (hp ▸ List.mem_map_of_mem he)⟩

/-- ALLOC of a frame_id that has no slot keeps the invariant: the new slot has no line yet (R163). -/
theorem StoreInv.alloc {s : State} (h : StoreInv s) (fid : FrameId) (now : Time) (hnone : s.findSlot fid = none) :
    StoreInv (s.alloc fid now).2 := by
  have hu := h.evictOldest
  obtain ⟨hlt, hfree⟩ := choosePhys_of_inv h
  have hcfg : s.evictOldest.cfg = s.cfg := (evictOldest_sameFrame s).cfg
  have hfid : fid ∉ s.evictOldest.slots.map Slot.fid := by
    intro hmem
    obtain ⟨e, he, hfid⟩ := List.mem_map.1 hmem
    exact (findSlot_eq_none_iff s fid).1 hnone e (evictOldest_slots_subset h he) hfid
  have hphys : s.evictOldest.choosePhys ∉ s.evictOldest.slots.map Slot.phys := by
    intro hmem
    obtain ⟨e, he, hp⟩ := List.mem_map.1 hmem
    exact hfree e he hp
  constructor
  case cfg => rw [alloc_cfg]; exact h.cfg
  case window =>
    rw [alloc_cfg, alloc_slots, List.length_append]
    exact evictOldest_room s (windowSize_pos s.cfg h.cfg) h.window
  case fids =>
    rw [alloc_slots, ← List.concat_eq_append, List.map_concat]
    exact hu.fids.concat hfid
  case physes =>
    rw [alloc_slots, ← List.concat_eq_append, List.map_concat]
    exact hu.physes.concat hphys
  case physBound =>
    intro e he
    rw [alloc_cfg]
    rw [alloc_slots] at he
    rcases List.mem_append.1 he with he | he
    · exact hcfg ▸ hu.physBound e he
    · obtain rfl := List.mem_singleton.1 he
      exact hlt
  case canonical => rw [alloc_mem]; exact hu.canonical
  case held =>
    intro e he l hl hhas b hb
    rw [alloc_mem]
    rw [alloc_slots] at he
    rcases List.mem_append.1 he with he | he
    · exact hu.held e he l hl hhas b hb
    · obtain rfl := List.mem_singleton.1 he
      rw [newSlot_has] at hhas
      cases hhas
  case only =>
    intro c hc
    rw [alloc_mem] at hc
    obtain ⟨e, he, hp, hhas⟩ := hu.only c hc
    exact ⟨e, by rw [alloc_slots]; exact List.mem_append_left _ he, hp, hhas⟩

end Sys2Proof.Machine
end

