-- ==== Sys2Proof/Proofs/Lines.lean ====
section
/-! LINE in a sound state (42_assembler.md R161 to R167): it always completes, in one of six ways, and keeps the
assembler's invariant. -/

namespace Sys2Proof.Machine

/-- The rows that EMIT reads from a slot, in the form in which they leave (R167). -/
def frameRows (s : State) (p : Nat) : List Byte :=
  (List.range 342).flatMap (fun l => rowOut s.cfg (storedRow s p l))

/-- The state after EMIT of a slot of which every line is present (R167). -/
def frameLeft (e : Slot) (s : State) : State := emitted e (frameRows s e.phys) s

/-- The states that LINE can answer, with what each is answered for (R130, R160 to R167). -/
inductive LineEffect (item : LineItem) (now : Time) (s : State) : State → Prop where
  /-- The payload does not decode (R130). -/
  | invalid (reason : InvalidReason) (hdec : decodeLine item = .invalid reason) :
      LineEffect item now s (s.raise (.lineInvalid item.fid item.lid reason))
  /-- The line_id is out of range (R160). -/
  | outOfRange (row : List Byte) (hdec : decodeLine item = .row row) (hlid : 342 ≤ item.lid.toNat) :
      LineEffect item now s (s.raise (.lineRange item.fid item.lid))
  /-- The line is present already (R166). -/
  | duplicate (row : List Byte) (e : Slot) (hdec : decodeLine item = .row row) (hlid : item.lid.toNat < 342)
      (hslot : s.findSlot item.fid = some e) (hhas : e.has item.lid.toNat = true) :
      LineEffect item now s (s.raise (.lineDup item.fid item.lid))
  /-- The line is inserted in the slot of its frame (R165). -/
  | stored (row : List Byte) (e : Slot) (hdec : decodeLine item = .row row) (hlid : item.lid.toNat < 342)
      (hslot : s.findSlot item.fid = some e) (hhas : e.has item.lid.toNat = false) (hn : e.nLines.toNat ≠ 341) :
      LineEffect item now s (inserted item row now e s)
  /-- The line completes its frame, which leaves (R167). -/
  | completed (row : List Byte) (e : Slot) (hdec : decodeLine item = .row row) (hlid : item.lid.toNat < 342)
      (hslot : s.findSlot item.fid = some e) (hhas : e.has item.lid.toNat = false) (hn : e.nLines.toNat = 341) :
      LineEffect item now s (frameLeft (e.insert item now) (inserted item row now e s))
  /-- The line is the first of its frame, for which a slot is allocated (R163, R164). -/
  | allocated (row : List Byte) (hdec : decodeLine item = .row row) (hlid : item.lid.toNat < 342)
      (hnone : s.findSlot item.fid = none) :
      LineEffect item now s (inserted item row now (s.alloc item.fid now).1 (s.alloc item.fid now).2)

/-! ## LINE completes -/

theorem storedRow_eq (s : State) (p l : Nat) : storedRow s p l = (s.mem.row p l).getD [] := rfl

/-- A slot of which every line is present can be read whole: no read faults (R30). -/
theorem emitFrame_of_full {s : State} {e : Slot} (h : StoreInv s) (he : e ∈ s.slots)
    (hfull : ∀ l < 342, e.has l = true) : emitFrame e s = .next (frameLeft e s) := by
  have hrow : ∀ l ∈ List.range 342, readRow s e.phys l = .ok (storedRow s e.phys l) := by
    intro l hl
    have hl : l < 342 := List.mem_range.1 hl
    have hsome : (s.mem.row e.phys l).isSome = true :=
      (Memory.readBytes_isSome _ _ _).2 fun b hb => h.held e he l hl (hfull l hl) b hb
    obtain ⟨row, hrow⟩ := Option.isSome_iff_exists.1 hsome
    have hstored : storedRow s e.phys l = row := by rw [storedRow_eq, hrow, Option.getD_some]
    rcases memRead_cases s (lbAddr e.phys l 0) 64 with ⟨vs, _, hvs, hok⟩ | ⟨_, hnone, _⟩ | ⟨hout, _⟩
    · rw [hstored, Option.some.inj (hrow.symm.trans hvs)]
      exact hok
    · rw [Memory.row, hnone] at hrow
      cases hrow
    · have := lbAddr_le_lbSize s.cfg e.phys l (h.physBound e he) hl
      omega
  have hrows : emitRows s e.phys (List.range 342) = .ok (frameRows s e.phys) := emitRows_ok s e.phys _ _ hrow
  rcases emitFrame_cases e s with ⟨rows, hrows', hn⟩ | ⟨f, hf, _⟩
  · rw [hn, Except.ok.inj (hrows'.symm.trans hrows)]
    rfl
  · rw [hrows] at hf
    cases hf

/-- A slot that reaches 342 lines has every line (R29, R31). -/
theorem insert_full {e : Slot} {item : LineItem} {row : List Byte} (h : SlotCounts e)
    (hdec : decodeLine item = .row row) (hlid : item.lid.toNat < 342) (hhas : e.has item.lid.toNat = false)
    (hn : e.nLines.toNat = 341) (now : Time) : ∀ l < 342, (e.insert item now).has l = true := by
  obtain ⟨_, h1, h128⟩ := decodeLine_row item row hdec
  have hcount := (h.insert (by omega) hlid hhas h1 h128 now).count
  rw [insert_nLines e item now (by omega), hn] at hcount
  exact all_of_presentCount _ hcount.symm

/-- The row of a line of a slot in the list can be written: no write faults (R52). -/
theorem row_in_lineBuffer {s : State} {e : Slot} {item : LineItem} {row : List Byte} (h : StoreInv s)
    (he : e ∈ s.slots) (hdec : decodeLine item = .row row) (hlid : item.lid.toNat < 342) :
    lbAddr e.phys item.lid.toNat 0 + row.length ≤ lbSize s.cfg := by
  rw [(decodeLine_row item row hdec).1]
  exact lbAddr_le_lbSize s.cfg e.phys item.lid.toNat (h.physBound e he) hlid

/-- A new line of a slot that it does not complete is inserted (R165). -/
theorem insertLine_of_incomplete {s : State} {e : Slot} {item : LineItem} {row : List Byte} (h : StoreInv s)
    (he : e ∈ s.slots) (hdec : decodeLine item = .row row) (hlid : item.lid.toNat < 342)
    (hhas : e.has item.lid.toNat = false) (hlt : e.nLines.toNat < 341) (now : Time) :
    insertLine item row now e s = .next (inserted item row now e s) := by
  have hin := row_in_lineBuffer h he hdec hlid
  rcases insertLine_cases item row now e s with ⟨hdup, _⟩ | ⟨_, _, hout⟩ | ⟨_, _, _, hn⟩ | ⟨_, _, hc, _⟩
  · rw [hhas] at hdup
    cases hdup
  · omega
  · exact hn
  · have := (insert_complete_iff e item now (by omega)).1 hc
    omega

/-- The new line that completes a slot emits its frame (R167). -/
theorem insertLine_of_last {s : State} {e : Slot} {item : LineItem} {row : List Byte} (h : StoreInv s)
    (he : e ∈ s.slots) (hdec : decodeLine item = .row row) (hlid : item.lid.toNat < 342)
    (hhas : e.has item.lid.toNat = false) (hcounts : SlotCounts e) (hlast : e.nLines.toNat = 341) (now : Time) :
    insertLine item row now e s = .next (frameLeft (e.insert item now) (inserted item row now e s)) := by
  have hin := row_in_lineBuffer h he hdec hlid
  have hins := h.inserted he hlid (decodeLine_row item row hdec).1 now
  rcases insertLine_cases item row now e s with ⟨hdup, _⟩ | ⟨_, _, hout⟩ | ⟨_, _, hc, _⟩ | ⟨_, _, _, hn⟩
  · rw [hhas] at hdup
    cases hdup
  · omega
  · rw [(insert_complete_iff e item now (by omega)).2 hlast] at hc
    cases hc
  · rw [hn]
    exact emitFrame_of_full hins (mem_replaceSlot_self he rfl) (insert_full hcounts hdec hlid hhas hlast now)

theorem newSlot_incomplete (fid : FrameId) (now : Time) (p : Nat) : (newSlot fid now p).nLines.toNat < 341 :=
  (by decide : 0 < 341)

/-- LINE completes in every sound state, in one of the six ways. -/
theorem lineStep_completes {s : State} (h : AssemblerInv s) (item : LineItem) (now : Time) :
    ∃ t, lineStep item now s = .next t ∧ LineEffect item now s t := by
  rcases lineStep_cases item now s with ⟨reason, hdec, hn⟩ | ⟨row, hdec, hn⟩ <;> rw [hn]
  · exact ⟨_, rfl, .invalid reason hdec⟩
  · rcases submit_cases item row now s with ⟨hlid, hm⟩ | ⟨e, hlid, hslot, hm⟩ | ⟨hlid, hnone, hm⟩ <;> rw [hm]
    · exact ⟨_, rfl, .outOfRange row hdec hlid⟩
    · have he := mem_of_findSlot hslot
      have hok := h.slots e he
      have hinc : e.nLines.toNat < 342 := hok.incomplete
      cases hhas : e.has item.lid.toNat with
      | true => exact ⟨_, insertLine_of_present item row now e s hhas, .duplicate row e hdec hlid hslot hhas⟩
      | false =>
        by_cases hlast : e.nLines.toNat = 341
        · exact ⟨_, insertLine_of_last h.store he hdec hlid hhas hok.counts hlast now,
            .completed row e hdec hlid hslot hhas hlast⟩
        · exact ⟨_, insertLine_of_incomplete h.store he hdec hlid hhas (by omega) now,
            .stored row e hdec hlid hslot hhas hlast⟩
    · have he : (s.alloc item.fid now).1 ∈ (s.alloc item.fid now).2.slots := by simp
      exact ⟨_, insertLine_of_incomplete (h.store.alloc item.fid now hnone) he hdec hlid (newSlot_has _ _ _ _)
        (newSlot_incomplete _ _ _) now, .allocated row hdec hlid hnone⟩

theorem LineEffect.of_lineStep {s t : State} {item : LineItem} {now : Time} (h : AssemblerInv s)
    (hstep : lineStep item now s = .next t) : LineEffect item now s t := by
  obtain ⟨t', ht', heff⟩ := lineStep_completes h item now
  rw [ht'] at hstep
  cases hstep
  exact heff

/-! ## LINE keeps the invariant -/

/-- Inserting a line in a slot keeps the invariant, where the slot with the line is an incomplete one and every
other slot is sound. -/
theorem inserted_inv {s : State} {e : Slot} {item : LineItem} {row : List Byte} (h : StoreInv s)
    (hothers : ∀ x ∈ s.slots, x.fid ≠ e.fid → SlotOk x) (he : e ∈ s.slots) (hcounts : SlotCounts e)
    (hdec : decodeLine item = .row row) (hlid : item.lid.toNat < 342) (hhas : e.has item.lid.toNat = false)
    (hlt : e.nLines.toNat < 341) (now : Time) : AssemblerInv (inserted item row now e s) := by
  obtain ⟨hrow, h1, h128⟩ := decodeLine_row item row hdec
  refine (assemblerInv_iff _).2 ⟨h.inserted he hlid hrow now, fun x hx => ?_⟩
  rcases mem_replaceSlot hx with rfl | ⟨hx, hfid⟩
  · have hn := insert_nLines e item now (by omega)
    exact (slotOk_iff _).2 ⟨hcounts.insert (by omega) hlid hhas h1 h128 now, by omega, by omega⟩
  · exact hothers x hx hfid

/-- The frame that leaves takes its slot with it; what stays is sound (R167). -/
theorem frameLeft_inv {s : State} {e : Slot} {item : LineItem} {row : List Byte} (h : AssemblerInv s)
    (he : e ∈ s.slots) (hdec : decodeLine item = .row row) (hlid : item.lid.toNat < 342) (now : Time) :
    AssemblerInv (frameLeft (e.insert item now) (inserted item row now e s)) := by
  have hins := h.store.inserted he hlid (decodeLine_row item row hdec).1 now
  rw [frameLeft, emitted_eq hins (mem_replaceSlot_self he rfl)]
  refine AssemblerInv.congr ((assemblerInv_iff _).2 ⟨hins.dropSlots (ofFrame e.fid), fun x hx => ?_⟩) rfl rfl rfl
  obtain ⟨hx, hkept⟩ := mem_dropSlots_slots.1 hx
  rcases mem_replaceSlot hx with rfl | ⟨hx, _⟩
  · simp [ofFrame] at hkept
  · exact h.slots x hx

theorem LineEffect.keepsInv {s t : State} {item : LineItem} {now : Time} (h : AssemblerInv s)
    (heff : LineEffect item now s t) : AssemblerInv t := by
  cases heff with
  | invalid reason hdec => exact h.raise _
  | outOfRange row hdec hlid => exact h.raise _
  | duplicate row e hdec hlid hslot hhas => exact h.raise _
  | stored row e hdec hlid hslot hhas hn =>
    have he := mem_of_findSlot hslot
    have hinc : e.nLines.toNat < 342 := (h.slots e he).incomplete
    exact inserted_inv h.store (fun x hx _ => h.slots x hx) he (h.slots e he).counts hdec hlid hhas
      (by omega) now
  | completed row e hdec hlid hslot hhas hn => exact frameLeft_inv h (mem_of_findSlot hslot) hdec hlid now
  | allocated row hdec hlid hnone =>
    refine inserted_inv (h.store.alloc item.fid now hnone) (fun x hx hfid => ?_) (by simp)
      (newSlot_counts _ _ _) hdec hlid (newSlot_has _ _ _ _)
      (newSlot_incomplete _ _ _) now
    rcases List.mem_append.1 (alloc_slots s item.fid now ▸ hx) with hx | hx
    · exact h.slots x (evictOldest_slots_subset h.store hx)
    · rw [List.mem_singleton.1 hx] at hfid
      exact absurd rfl hfid

/-! ## Every instruction completes and keeps the invariant -/

/-- A result is a next state with the assembler's invariant. -/
def Sound (r : Result) : Prop := ∃ t, r = .next t ∧ AssemblerInv t

theorem Sound.next {t : State} (h : AssemblerInv t) : Sound (.next t) := ⟨t, rfl, h⟩

theorem Sound.andThen {r : Result} {f : State → Result} (h : Sound r) (hf : ∀ t, AssemblerInv t → Sound (f t)) :
    Sound (andThen r f) := by
  obtain ⟨t, rfl, ht⟩ := h
  exact hf t ht

theorem lineStep_sound {s : State} (h : AssemblerInv s) (item : LineItem) (now : Time) :
    Sound (lineStep item now s) := by
  obtain ⟨t, ht, heff⟩ := lineStep_completes h item now
  exact ⟨t, ht, heff.keepsInv h⟩

theorem takePacket_sound {s : State} (h : AssemblerInv s) (item : LineItem) (now : Time) :
    Sound (takePacket item now s) :=
  lineStep_sound (h.setFbuf _) item now

theorem drain_sound {s : State} (h : AssemblerInv s) (now : Time) (k : Nat) : Sound (drain now k s) := by
  induction k generalizing s with
  | zero => exact .next h
  | succ k ih =>
    unfold drain
    simp only
    split
    · exact .next (h.setFbuf _)
    · exact ih (((h.setFbuf _).setFbuf _).raise _)
    · exact (takePacket_sound (h.setFbuf _) _ now).andThen fun t ht => ih ht

theorem withSweep_sound {s : State} (h : AssemblerInv s) (now : Time) (body : State → Result)
    (hbody : ∀ u, AssemblerInv u → Sound (body u)) : Sound (withSweep now s body) := by
  unfold withSweep
  split
  · exact (hbody _ h.beginTxn).andThen fun t ht => .next (ht.sweep now)
  · exact hbody _ (h.beginTxn.sweep now)

theorem byteBody_sound {s : State} (h : AssemblerInv s) (b : Byte) (now : Time) : Sound (byteBody b now s) :=
  drain_sound (h.setFbuf _) now _

theorem dgramBody_sound {s : State} (h : AssemblerInv s) (d : List Byte) (now : Time) :
    Sound (dgramBody d now s) := by
  rcases dgramBody_cases d now s with ⟨cause, _, hn⟩ | ⟨item, _, hn⟩ <;> rw [hn]
  · exact .next (h.raise _)
  · exact lineStep_sound h item now

theorem stagePair_inv {s : State} (h : AssemblerInv s) (count value : Byte) :
    AssemblerInv (stagePair count value s) := by
  unfold stagePair
  split
  · exact h.congr rfl rfl rfl
  · exact h.congr rfl rfl rfl

/-- Every enabled instruction completes from a sound state, in a sound state. -/
theorem exec_sound {i : Instr} {s : State} (h : AssemblerInv s) (hen : Enabled i s) : Sound (exec i s) := by
  cases i with
  | bsRaw fid lid p now => exact takePacket_sound h _ now
  | bsRle fid lid p now => exact takePacket_sound h _ now
  | bsCorrupt fid lid len => exact .next ((h.setFbuf _).raise _)
  | udpRle8 fid lid p now => exact lineStep_sound h _ now
  | udpReject d cause => exact .next (h.raise _)
  | rlePair count value => exact .next (stagePair_inv h count value)
  | rlePairZero value => exact .next (h.congr rfl rfl rfl)
  | byte b now =>
    have hmode : cfgMode s.cfg = .byteStream := hen
    rw [exec, execByte, hmode]
    exact withSweep_sound h now _ fun u hu => byteBody_sound hu b now
  | dgram d now =>
    have hmode : cfgMode s.cfg = .datagram := hen
    rw [exec, execDgram, hmode]
    exact withSweep_sound h now _ fun u hu => dgramBody_sound hu d now
  | tick now => exact .next (h.beginTxn.sweep now)
  | reset c =>
    have hwf : cfgWellFormed c = true := hen
    rw [exec, execReset, if_pos hwf]
    exact .next (.of_empty hwf rfl rfl)

/-- An instruction that answers a next state was enabled: the two ports and RESET refuse where they are not. -/
theorem enabled_of_exec {i : Instr} {s t : State} (h : exec i s = .next t) : Enabled i s := by
  cases i with
  | byte b now =>
    rcases execByte_cases b now s with ⟨_, hn⟩ | ⟨hm, _⟩ | ⟨hm, _⟩
    · rw [exec, hn] at h
      cases h
    · exact hm
    · exact hm
  | dgram d now =>
    rcases execDgram_cases d now s with ⟨_, hn⟩ | ⟨hm, _⟩ | ⟨hm, _⟩
    · rw [exec, hn] at h
      cases h
    · exact hm
    · exact hm
  | reset c =>
    rcases execReset_cases c s with ⟨hwf, _⟩ | ⟨_, hn⟩
    · exact hwf
    · rw [exec, hn] at h
      cases h
  | _ => trivial

/-- Settles O55: an instruction that answers was enabled, and enabled instructions keep the invariant. -/
theorem assemblerInvariantIsKept : Obligations.AssemblerInvariantIsKept := by
  intro i s t h hexec
  obtain ⟨t', ht', hinv⟩ := exec_sound h (enabled_of_exec hexec)
  rw [ht'] at hexec
  cases hexec
  exact hinv

/-- Settles O50: neither the write nor the reads of the line buffer fault in a sound state. -/
theorem enabledInstructionsComplete : Obligations.EnabledInstructionsComplete := by
  intro i s h hen
  obtain ⟨t, ht, _⟩ := exec_sound h hen
  exact ⟨t, ht⟩

end Sys2Proof.Machine
end

