-- ==== Sys2Proof/Proofs/Drain.lean ====
section
/-! EXTRACT repeated (40_framer.md R106 to R109): where it stops, that a split of the byte string does not show,
and that DRAIN is the line path over what it finds. -/

namespace Sys2Proof.Machine

/-! ## One call of EXTRACT -/

theorem magicAt_zero (b0 b1 : Byte) (rest : List Byte) : magicAt (b0 :: b1 :: rest) 0 ↔ isMagic b0 b1 = true := by
  simp [magicAt, isMagic_iff]

theorem magicAt_succ (b0 : Byte) (rest : List Byte) (i : Nat) : magicAt (b0 :: rest) (i + 1) ↔ magicAt rest i := by
  simp [magicAt]

/-- The scan stops at the first magic (R101). -/
theorem scan_of_firstMagic (b : List Byte) (i : Nat) (hi : magicAt b i) (hfirst : ∀ j < i, ¬magicAt b j) :
    scan b = b.drop i := by
  induction b using scan.induct generalizing i with
  | case1 => simp [magicAt] at hi
  | case2 => cases i <;> simp [magicAt] at hi
  | case3 b hb => cases i <;> simp [magicAt] at hi
  | case4 b0 b1 rest hm =>
    cases i with
    | zero => simp [scan, hm]
    | succ i => exact absurd ((magicAt_zero b0 b1 rest).2 hm) (hfirst 0 (by omega))
  | case5 b0 b1 rest hm ih =>
    cases i with
    | zero => exact absurd ((magicAt_zero b0 b1 rest).1 hi) hm
    | succ i =>
      rw [scan, if_neg hm, List.drop_succ_cons]
      exact ih i ((magicAt_succ _ _ i).1 hi) fun j hj hmj => hfirst (j + 1) (by omega) ((magicAt_succ _ _ j).2 hmj)

/-- Settles O6, by the recursion of the scan. -/
theorem firstMagicIsTaken : Obligations.FirstMagicIsTaken := by
  intro b i hi hfirst
  have hscan := scan_of_firstMagic b i hi hfirst
  refine ⟨hscan, fun hmore => ?_⟩
  rw [← hscan] at hmore ⊢
  exact extract_of_needMore b hmore

/-- A buffer at which the framer needs more bytes is shorter than the longest packet (R106). -/
theorem length_of_needMore (b : List Byte) (h : headView b = .needMore) : b.length ≤ 135 := by
  by_cases h8 : 8 ≤ b.length
  · obtain ⟨m0, m1, f0, f1, l0, l1, n0, n1, rest, rfl⟩ := eight_bytes b h8
    rw [headView_long] at h
    split at h
    · rename_i hok
      have := ((headerOk_iff _).1 hok).2
      split at h
      · simp only [List.length_cons]
        omega
      · cases h
    · cases h
  · omega

theorem extract_needMore_iff (b r : List Byte) :
    extract b = (.needMore, r) ↔ headView (scan b) = .needMore ∧ r = scan b := by
  rcases extract_cases b with ⟨hv, he⟩ | ⟨fid, lid, len, hv, he⟩ | ⟨item, hv, he⟩ <;> simp [hv, he, eq_comm]

/-- Settles O9: a buffer that needs more is scanned already, and scanning it again leaves it. -/
theorem needMoreIsBoundedAndStable : Obligations.NeedMoreIsBoundedAndStable := by
  intro b r h
  obtain ⟨hview, rfl⟩ := (extract_needMore_iff b r).1 h
  refine ⟨length_of_needMore _ hview, (extract_needMore_iff _ _).2 ?_⟩
  rw [scan_scan]
  exact ⟨hview, rfl⟩

/-- What the framer sees in a whole packet or a corrupt header, later bytes do not change (R109). -/
theorem headView_append (b c : List Byte) (h : headView b ≠ .needMore) : headView (b ++ c) = headView b := by
  by_cases h8 : 8 ≤ b.length
  · obtain ⟨m0, m1, f0, f1, l0, l1, n0, n1, rest, rfl⟩ := eight_bytes b h8
    simp only [headView_long, List.cons_append, List.length_append] at h ⊢
    by_cases hok : headerOk (u16le n0 n1) = true
    · by_cases hshort : rest.length < payloadLen (u16le n0 n1)
      · simp [hok, hshort] at h
      · have hle : payloadLen (u16le n0 n1) ≤ rest.length := by omega
        rw [if_pos hok, if_pos hok, if_neg (by omega), if_neg hshort, List.take_append_of_le_length hle]
    · rw [if_neg hok, if_neg hok]
  · exact absurd (headView_short b (by omega)) h

/-- A buffer in which the framer sees more than the need of bytes begins with the magic (R101). -/
theorem startsMagic_of_view (b : List Byte) (h : headView (scan b) ≠ .needMore) : startsMagic (scan b) = true := by
  rcases scan_cases b with hm | hm | hm
  · exact hm
  · rw [hm] at h
    exact absurd (headView_short _ (by decide)) h
  · rw [hm] at h
    exact absurd (headView_short _ (by decide)) h

/-- Bytes after what EXTRACT finds stay behind it (R109). -/
theorem extract_append (b c r : List Byte) (x : ExtractResult) (h : extract b = (x, r)) (hx : x ≠ .needMore) :
    extract (b ++ c) = (x, r ++ c) := by
  have hview : headView (scan b) ≠ .needMore := fun hv => hx (by rw [extract_of_needMore b hv] at h; cases h; rfl)
  have hscan : scan (b ++ c) = scan b ++ c := by
    obtain ⟨rest, hrest⟩ := (startsMagic_iff _).1 (startsMagic_of_view b hview)
    rw [scan_append, hrest]
    exact scan_of_startsMagic _ ((startsMagic_iff _).2 ⟨rest ++ c, rfl⟩)
  have hsame := headView_append (scan b) c hview
  rw [← hscan] at hsame
  rcases extract_cases b with ⟨hv, _⟩ | ⟨fid, lid, len, hv, he⟩ | ⟨item, hv, he⟩
  · exact absurd hv hview
  · rw [he] at h
    cases h
    have hlen := (headView_corrupt _ _ _ _ hv).1
    rw [extract_of_corrupt _ fid lid len (hsame.trans hv), hscan, List.drop_append_of_le_length (by omega)]
  · rw [he] at h
    cases h
    have hlen := (headView_packet _ _ hv).2.2.1
    rw [extract_of_packet _ item (hsame.trans hv), hscan, List.drop_append_of_le_length hlen]

/-- After a NeedMore, later bytes are extracted from what it left (R109). -/
theorem extract_append_of_needMore (b c r : List Byte) (h : extract b = (.needMore, r)) :
    extract (b ++ c) = extract (r ++ c) := by
  obtain ⟨_, rfl⟩ := (extract_needMore_iff b r).1 h
  have hscan := scan_append b c
  simp only [extract, hscan]

/-! ## All that EXTRACT finds -/

/-- The calls beyond half the buffer's length find nothing more (R108). -/
theorem extractUpTo_enough (k k' : Nat) (b : List Byte) (hk : b.length < 2 * k) (hk' : b.length < 2 * k') :
    extractUpTo k b = extractUpTo k' b := by
  induction k generalizing k' b with
  | zero => omega
  | succ k ih =>
    obtain _ | k' := k'
    · omega
    · rw [extractUpTo, extractUpTo]
      split
      · rfl
      · rename_i x r hx he
        have := extract_shrinks b r x he hx
        rw [ih k' r (by omega) (by omega)]

theorem extractUpTo_of_needMore (k : Nat) (b r : List Byte) (h : extract b = (.needMore, r)) :
    extractUpTo (k + 1) b = ([], r) := by
  rw [extractUpTo, h]

theorem extractUpTo_of_found (k : Nat) (b r : List Byte) (x : ExtractResult) (h : extract b = (x, r))
    (hx : x ≠ .needMore) : extractUpTo (k + 1) b = (x :: (extractUpTo k r).1, (extractUpTo k r).2) := by
  cases x with
  | needMore => exact absurd rfl hx
  | retry len => rw [extractUpTo, h]
  | packet item => rw [extractUpTo, h]

theorem extractAll_of_needMore (b r : List Byte) (h : extract b = (.needMore, r)) : extractAll b = ([], r) :=
  extractUpTo_of_needMore _ b r h

/-- All that EXTRACT finds is what it finds first, then all it finds in the rest (R108). -/
theorem extractAll_of_found (b r : List Byte) (x : ExtractResult) (h : extract b = (x, r)) (hx : x ≠ .needMore) :
    extractAll b = (x :: (extractAll r).1, (extractAll r).2) := by
  have := extract_shrinks b r x h hx
  have hrest : extractUpTo (b.length / 2) r = extractAll r :=
    extractUpTo_enough _ _ _ (by omega) (by rw [drainCalls]; omega)
  rw [extractAll, drainCalls, extractUpTo_of_found _ b r x h hx, hrest]

/-- The bytes that are left over are a buffer on which EXTRACT answers NeedMore (R108). -/
theorem extractAll_drained (b : List Byte) : extract (extractAll b).2 = (.needMore, (extractAll b).2) := by
  induction hn : b.length using Nat.strong_induction_on generalizing b with
  | _ n ih =>
    obtain ⟨x, r, hxr⟩ : ∃ x r, extract b = (x, r) := ⟨_, _, rfl⟩
    by_cases hx : x = .needMore
    · subst hx
      rw [extractAll_of_needMore b r hxr]
      exact (needMoreIsBoundedAndStable b r hxr).2
    · have := extract_shrinks b r x hxr hx
      rw [extractAll_of_found b r x hxr hx]
      exact ih r.length (by omega) r rfl

/-- Settles O10, by induction on the length of the first part. -/
theorem splitInvariance : Obligations.SplitInvariance := by
  intro b c
  induction hn : b.length using Nat.strong_induction_on generalizing b with
  | _ n ih =>
    obtain ⟨x, r, hxr⟩ : ∃ x r, extract b = (x, r) := ⟨_, _, rfl⟩
    by_cases hx : x = .needMore
    · subst hx
      have hsame : extractAll (b ++ c) = extractAll (r ++ c) := by
        obtain ⟨y, r', hy⟩ : ∃ y r', extract (r ++ c) = (y, r') := ⟨_, _, rfl⟩
        have hy' : extract (b ++ c) = (y, r') := (extract_append_of_needMore b c r hxr).trans hy
        by_cases hmore : y = .needMore
        · subst hmore
          rw [extractAll_of_needMore _ r' hy, extractAll_of_needMore _ r' hy']
        · rw [extractAll_of_found _ r' y hy hmore, extractAll_of_found _ r' y hy' hmore]
      rw [hsame, extractAll_of_needMore b r hxr]
      rfl
    · have hshrink := extract_shrinks b r x hxr hx
      rw [extractAll_of_found _ _ x (extract_append b c r x hxr hx) hx, extractAll_of_found b r x hxr hx,
        ih r.length (by omega) r rfl]
      rfl

/-! ## What the line path does not see -/

/-- What stands around the line path in a state: the fields that it neither reads nor writes, and the outputs
before its own. -/
structure Surround where
  fbuf : List Byte → List Byte
  out : List Output
  stage : Staging
  latch : Option Latch
  offers : List Offer

/-- The state in other surroundings. -/
def Surround.place (c : Surround) (s : State) : State :=
  { s with fbuf := c.fbuf s.fbuf, out := c.out ++ s.out, stage := c.stage, latch := c.latch, offers := c.offers }

/-- `f` on the next state of a result. -/
def onNext (f : State → State) (r : Result) : Result := andThen r (fun t => .next (f t))

@[simp] theorem onNext_next (f : State → State) (s : State) : onNext f (.next s) = .next (f s) := rfl
@[simp] theorem onNext_fault (f : State → State) (x : Fault) : onNext f (.fault x) = .fault x := rfl
@[simp] theorem onNext_refused (f : State → State) (x : Refusal) : onNext f (.refused x) = .refused x := rfl

theorem onNext_andThen (f : State → State) (r : Result) (k : State → Result) :
    onNext f (andThen r k) = andThen r (fun t => onNext f (k t)) := andThen_assoc r k _

theorem andThen_onNext (f : State → State) (r : Result) (k : State → Result) :
    andThen (onNext f r) k = andThen r (fun t => k (f t)) := andThen_assoc r _ k

section
variable (c : Surround) (s : State)

theorem place_emit (o : Output) : (c.place s).emit o = c.place (s.emit o) := by
  simp [Surround.place, State.emit]

theorem place_raise (e : Event) : (c.place s).raise e = c.place (s.raise e) := place_emit c s _

theorem place_evictOldest : (c.place s).evictOldest = c.place s.evictOldest := by
  rcases evictOldest_cases s with ⟨hroom, he⟩ | ⟨victim, rest, hfull, hs, he⟩ | ⟨h0, hs, he⟩ <;> rw [he]
  · exact if_neg (Nat.not_lt.2 hroom)
  · rw [State.evictOldest, if_pos (show windowSize (c.place s).cfg < (c.place s).slots.length + 1 from hfull)]
    simp only [Surround.place, hs, State.raise, State.emit, evicted, List.append_assoc]
  · rw [State.evictOldest]
    simp [Surround.place, hs]

theorem place_alloc (fid : FrameId) (now : Time) :
    (c.place s).alloc fid now = ((s.alloc fid now).1, c.place (s.alloc fid now).2) := by
  rw [State.alloc, place_evictOldest]
  rfl

theorem place_emitRows (p : Nat) (ls : List Nat) : emitRows (c.place s) p ls = emitRows s p ls := by
  induction ls with
  | nil => rfl
  | cons l ls ih =>
    rw [emitRows, emitRows, ih]
    rfl

theorem place_emitFrame (e : Slot) : emitFrame e (c.place s) = onNext c.place (emitFrame e s) := by
  have hleft : ∀ rows, emitted e rows (c.place s) = c.place (emitted e rows s) := fun rows =>
    place_emit c { s with slots := s.slots.filter (fun x => x.fid != e.fid), mem := s.mem.freeRows e.phys } _
  rw [emitFrame, emitFrame, place_emitRows]
  split
  · rfl
  · exact congrArg _ (hleft _)

theorem insertLine_of_outside {item : LineItem} {row : List Byte} {now : Time} {e : Slot} {s : State}
    (hhas : e.has item.lid.toNat = false) (hout : lbSize s.cfg < lbAddr e.phys item.lid.toNat 0 + row.length) :
    insertLine item row now e s = .fault .lineBufferAddress := by
  rw [insertLine, hhas, memWrite, if_neg (Nat.not_le.2 hout)]
  rfl

theorem insertLine_of_inside {item : LineItem} {row : List Byte} {now : Time} {e : Slot} {s : State}
    (hhas : e.has item.lid.toNat = false) (hin : lbAddr e.phys item.lid.toNat 0 + row.length ≤ lbSize s.cfg) :
    insertLine item row now e s =
      if (e.insert item now).complete then emitFrame (e.insert item now) (inserted item row now e s)
      else .next (inserted item row now e s) := by
  rw [insertLine, hhas, memWrite, if_pos hin]
  rfl

theorem place_insertLine (item : LineItem) (row : List Byte) (now : Time) (e : Slot) :
    insertLine item row now e (c.place s) = onNext c.place (insertLine item row now e s) := by
  have hins : inserted item row now e (c.place s) = c.place (inserted item row now e s) := rfl
  rcases insertLine_cases item row now e s with
      ⟨hhas, hn⟩ | ⟨hhas, hn, hout⟩ | ⟨hhas, hin, hc, hn⟩ | ⟨hhas, hin, hc, hn⟩ <;>
    rw [hn]
  · rw [insertLine_of_present _ _ _ _ _ hhas, place_raise]
    rfl
  · exact insertLine_of_outside hhas hout
  · rw [insertLine_of_inside (s := c.place s) hhas hin, hc, hins]
    rfl
  · rw [insertLine_of_inside (s := c.place s) hhas hin, hc, hins]
    exact place_emitFrame c (inserted item row now e s) _

theorem place_submit (item : LineItem) (row : List Byte) (now : Time) :
    submit item row now (c.place s) = onNext c.place (submit item row now s) := by
  have hfind : (c.place s).findSlot item.fid = s.findSlot item.fid := rfl
  rw [submit, submit, hfind]
  split
  · exact congrArg _ (place_raise c s _)
  · split
    · exact place_insertLine c s item row now _
    · rw [place_alloc]
      exact place_insertLine c _ item row now _

/-- The line path does the same in any surroundings. -/
theorem place_lineStep (item : LineItem) (now : Time) :
    lineStep item now (c.place s) = onNext c.place (lineStep item now s) := by
  unfold lineStep
  split
  · exact congrArg _ (place_raise c s _)
  · exact place_submit c s item _ now

theorem place_sweep (now : Time) : sweep now (c.place s) = c.place (sweep now s) := by
  cases hen : cfgStallEn s.cfg with
  | false => rw [sweep_off now s hen, sweep_off now (c.place s) hen]
  | true =>
    rw [sweep_on now s hen, sweep_on now (c.place s) hen]
    simp only [Surround.place, List.append_assoc]

end

/-! ## DRAIN -/

/-- The surroundings of a state with another framer buffer. -/
def otherFbuf (s : State) (b : List Byte) : Surround := ⟨fun _ => b, [], s.stage, s.latch, s.offers⟩

theorem otherFbuf_place {s t : State} (b : List Byte) (h : SameFrame s t) :
    (otherFbuf s b).place t = { t with fbuf := b } := by
  simp only [otherFbuf, Surround.place, ← h.stage, ← h.latch, ← h.offers, List.nil_append]

/-- LINE never reads the framer buffer. -/
theorem lineStep_setFbuf (item : LineItem) (now : Time) (s : State) (b : List Byte) :
    lineStep item now { s with fbuf := b } = onNext (fun t => { t with fbuf := b }) (lineStep item now s) := by
  rw [← otherFbuf_place b (SameFrame.refl s), place_lineStep]
  cases hr : lineStep item now s with
  | next t => exact congrArg _ (otherFbuf_place b (lineStep_sameFrame item now s t hr).1)
  | fault x => rfl
  | refused x => rfl

theorem sweep_setFbuf (now : Time) (s : State) (b : List Byte) :
    sweep now { s with fbuf := b } = { sweep now s with fbuf := b } := by
  rw [← otherFbuf_place b (SameFrame.refl s), place_sweep, otherFbuf_place b (sweep_sameFrame now s).1]

theorem applyExtract_setFbuf (now : Time) (x : ExtractResult) (s : State) (b : List Byte) :
    applyExtract now x { s with fbuf := b } = onNext (fun t => { t with fbuf := b }) (applyExtract now x s) := by
  cases x with
  | needMore => rfl
  | retry len => rfl
  | packet item => exact lineStep_setFbuf item now s b

theorem applyExtract_fbuf {now : Time} {x : ExtractResult} {s t : State} (h : applyExtract now x s = .next t) :
    t.fbuf = s.fbuf := by
  cases x with
  | needMore => cases h; rfl
  | retry len => cases h; rfl
  | packet item => exact (lineStep_sameFrame item now s t h).2

theorem drain_of_needMore (now : Time) (k : Nat) (s : State) (r : List Byte)
    (h : extract s.fbuf = (.needMore, r)) : drain now (k + 1) s = .next { s with fbuf := r } := by
  rw [drain_succ, h]

theorem drain_of_found (now : Time) (k : Nat) (s : State) (r : List Byte) (x : ExtractResult)
    (h : extract s.fbuf = (x, r)) (hx : x ≠ .needMore) :
    drain now (k + 1) s = andThen (applyExtract now x { s with fbuf := r }) (drain now k) := by
  cases x with
  | needMore => exact absurd rfl hx
  | retry len => rw [drain_succ, h]
  | packet item => rw [drain_succ, h]

/-- DRAIN is the line path over what as many calls of EXTRACT find, on the buffer that they leave (R108). -/
theorem drain_eq (now : Time) (k : Nat) (s : State) :
    drain now k s = applyExtracts now (extractUpTo k s.fbuf).1 { s with fbuf := (extractUpTo k s.fbuf).2 } := by
  induction k generalizing s with
  | zero => rfl
  | succ k ih =>
    obtain ⟨x, r, hxr⟩ : ∃ x r, extract s.fbuf = (x, r) := ⟨_, _, rfl⟩
    by_cases hx : x = .needMore
    · subst hx
      rw [drain_of_needMore now k s r hxr, extractUpTo_of_needMore k _ r hxr]
      rfl
    · have hlater : ∀ t, applyExtract now x { s with fbuf := r } = .next t →
          drain now k t = applyExtracts now (extractUpTo k r).1 { t with fbuf := (extractUpTo k r).2 } := by
        intro t ht
        rw [ih t, applyExtract_fbuf ht]
      have hfirst := applyExtract_setFbuf now x { s with fbuf := r } (extractUpTo k r).2
      dsimp only at hfirst
      rw [drain_of_found now k s r x hxr hx, extractUpTo_of_found k _ r x hxr hx, applyExtracts, hfirst,
        andThen_onNext]
      cases hr : applyExtract now x { s with fbuf := r } with
      | next t => exact hlater t hr
      | fault f => rfl
      | refused f => rfl

/-- Settles O11: the calls that DRAIN makes are enough for all that EXTRACT finds. -/
theorem drainAppliesEveryOutcome : Obligations.DrainAppliesEveryOutcome := by
  intro now s
  exact ⟨drain_eq now _ s, extractAll_drained s.fbuf⟩

/-! ## One byte after a drained buffer -/

/-- A buffer that needs more has a header of a packet of which bytes are missing, or no whole header (R106). -/
theorem headView_snoc (r : List Byte) (b : Byte) (h8 : 8 ≤ r.length) (hr : headView r = .needMore)
    (hx : headView (r ++ [b]) ≠ .needMore) : ∃ item, headView (r ++ [b]) = .packet item ∧ item.n = r.length - 7 := by
  obtain ⟨m0, m1, f0, f1, l0, l1, n0, n1, rest, rfl⟩ := eight_bytes r h8
  simp only [List.cons_append, headView_long] at hr hx ⊢
  by_cases hok : headerOk (u16le n0 n1) = true
  · by_cases hshort : rest.length < payloadLen (u16le n0 n1)
    · by_cases hshort' : (rest ++ [b]).length < payloadLen (u16le n0 n1)
      · exact absurd (by rw [if_pos hok, if_pos hshort']) hx
      · refine ⟨_, by rw [if_pos hok, if_neg hshort'], ?_⟩
        simp only [List.length_append, List.length_singleton] at hshort'
        simp only [LineItem.n, List.length_take, List.length_append, List.length_cons, List.length_nil]
        omega
    · rw [if_pos hok, if_neg hshort] at hr
      cases hr
  · rw [if_neg hok] at hr
    cases hr

/-- One byte after a buffer that needs more leaves less than a header behind what it completes (R106). -/
theorem rest_of_completed (r r' : List Byte) (b : Byte) (x : ExtractResult) (hr : extract r = (.needMore, r))
    (h : extract (r ++ [b]) = (x, r')) (hx : x ≠ .needMore) : r'.length < 8 := by
  obtain ⟨hview, hscan⟩ := (extract_needMore_iff r r).1 hr
  rw [← hscan] at hview
  have hshrink := extract_shrinks _ r' x h hx
  rw [List.length_append, List.length_singleton] at hshrink
  by_cases h8 : 8 ≤ r.length
  · have hmagic : startsMagic r = true := by
      rcases scan_cases r with hm | hm | hm
      · rwa [← hscan] at hm
      · rw [hscan, hm] at h8
        exact absurd h8 (by decide)
      · rw [hscan, hm] at h8
        exact absurd h8 (by decide)
    have hkeep : scan (r ++ [b]) = r ++ [b] := by
      obtain ⟨rest, rfl⟩ := (startsMagic_iff r).1 hmagic
      exact scan_of_startsMagic _ ((startsMagic_iff _).2 ⟨rest ++ [b], rfl⟩)
    have hmore : headView (r ++ [b]) ≠ .needMore := fun hv =>
      hx (congrArg Prod.fst (h.symm.trans (extract_of_needMore _ (hkeep.symm ▸ hv))))
    obtain ⟨item, hitem, hn⟩ := headView_snoc r b h8 hview hmore
    rw [extract_of_packet _ item (hkeep.symm ▸ hitem), hkeep] at h
    cases h
    rw [List.length_drop, List.length_append, List.length_singleton]
    omega
  · omega

/-- One byte after a drained buffer completes at most one packet or corrupt header, and less than a header stays
behind it (R106). -/
theorem extractAll_snoc (r : List Byte) (b : Byte) (hr : extract r = (.needMore, r)) :
    (∃ r', extract (r ++ [b]) = (.needMore, r') ∧ extractAll (r ++ [b]) = ([], r')) ∨
      ∃ x r', extract (r ++ [b]) = (x, r') ∧ x ≠ .needMore ∧ extractAll (r ++ [b]) = ([x], scan r') := by
  obtain ⟨x, r', h⟩ : ∃ x r', extract (r ++ [b]) = (x, r') := ⟨_, _, rfl⟩
  by_cases hx : x = .needMore
  · subst hx
    exact .inl ⟨r', h, extractAll_of_needMore _ r' h⟩
  · have hshort := (scan_length_le r').trans_lt (rest_of_completed r r' b x hr h hx)
    have hlast : extractAll r' = ([], scan r') :=
      extractAll_of_needMore _ _ (extract_of_needMore r' (headView_short _ hshort))
    refine .inr ⟨x, r', h, hx, ?_⟩
    rw [extractAll_of_found _ r' x h hx, hlast]

end Sys2Proof.Machine
end

