-- ==== Sys2Proof/Proofs/Transactions.lean ====
section
/-! The four port transactions (43_transactions.md): what each leaves in the framer buffer, what it puts out, and
that nothing but the block's own state crosses it. -/

namespace Sys2Proof.Machine

/-! ## The sweep of a transaction -/

theorem withSweep_first (now : Time) (s : State) (body : State → Result) (hp : s.params.sweepAfter = false) :
    withSweep now s body = body (sweep now s.beginTxn) := by
  simp [withSweep, hp]

theorem withSweep_last (now : Time) (s : State) (body : State → Result) (hp : s.params.sweepAfter = true) :
    withSweep now s body = onNext (sweep now) (body s.beginTxn) := by
  simp [withSweep, hp, onNext]

theorem exec_byte (b : Byte) (now : Time) (s : State) (hmode : cfgMode s.cfg = .byteStream) :
    exec (.byte b now) s = withSweep now s (byteBody b now) := by
  rw [exec, execByte, hmode]

theorem exec_dgram (d : List Byte) (now : Time) (s : State) (hmode : cfgMode s.cfg = .datagram) :
    exec (.dgram d now) s = withSweep now s (dgramBody d now) := by
  rw [exec, execDgram, hmode]

/-! ## BYTE as the line path over what the byte completes -/

/-- BYTE's body is the line path over all that EXTRACT finds in the buffer with the byte (R108, R200). -/
theorem byteBody_eq (b : Byte) (now : Time) (s : State) :
    byteBody b now s =
      applyExtracts now (extractAll (s.fbuf ++ [b])).1 { s with fbuf := (extractAll (s.fbuf ++ [b])).2 } :=
  drain_eq now _ { s with fbuf := s.fbuf ++ [b] }

theorem byteBody_of_none (b : Byte) (now : Time) (s : State) (r : List Byte)
    (h : extractAll (s.fbuf ++ [b]) = ([], r)) : byteBody b now s = .next { s with fbuf := r } := by
  rw [byteBody_eq, h]
  rfl

theorem byteBody_of_one (b : Byte) (now : Time) (s : State) (x : ExtractResult) (r : List Byte)
    (h : extractAll (s.fbuf ++ [b]) = ([x], r)) :
    byteBody b now s = applyExtract now x { s with fbuf := r } := by
  rw [byteBody_eq, h]
  dsimp only [applyExtracts]
  cases applyExtract now x { s with fbuf := r } <;> rfl

theorem sweep_beginTxn_fbuf (now : Time) (s : State) : (sweep now s.beginTxn).fbuf = s.fbuf :=
  (sweep_sameFrame now s.beginTxn).2

/-- Settles O34: EXTRACT finds nothing, and the sweep does not see the framer buffer. -/
theorem byteThatCompletesNothing : Obligations.ByteThatCompletesNothing := by
  intro b now r s hmode hextract
  have hall := extractAll_of_needMore _ _ hextract
  cases hp : s.params.sweepAfter with
  | false =>
    rw [exec_byte b now s hmode, withSweep_first now s _ hp,
      byteBody_of_none b now _ r (by rw [sweep_beginTxn_fbuf, hall])]
    rfl
  | true =>
    rw [exec_byte b now s hmode, withSweep_last now s _ hp,
      byteBody_of_none b now s.beginTxn r hall, onNext_next, sweep_setFbuf]
    rfl

/-- A whole packet is found and nothing is left over (R107). -/
theorem extractAll_packetBytes (item : LineItem) (h1 : 1 ≤ item.n) (h128 : item.n ≤ 128) :
    extractAll (packetBytes item) = ([.packet item], []) := by
  have hfound : extract (packetBytes item) = (.packet item, []) := by
    simpa using garbageThenPacket [] item [] (by simp [magicAt]) h1 h128
  rw [extractAll_of_found _ _ _ hfound (by simp)]
  rfl

/-- The class of a packet takes the packet's bytes and hands its line to LINE (R107, R201). -/
theorem exec_instrOfItem (item : LineItem) (now : Time) (s : State) (h : s.fbuf = packetBytes item) :
    exec (instrOfItem item now) s = lineStep item now { s with fbuf := [] } := by
  have hrest : s.fbuf.drop (8 + item.n) = [] := by rw [h, ← packetBytes_length, List.drop_length]
  obtain ⟨fid, lid, rle, p⟩ := item
  rw [← hrest]
  cases rle <;> rfl

/-- Settles O35: the packet is all that EXTRACT finds. -/
theorem byteThatCompletesAPacket : Obligations.ByteThatCompletesAPacket := by
  intro b now item s hmode h1 h128 hbytes
  have hall := extractAll_packetBytes item h1 h128
  rw [← hbytes] at hall
  constructor
  · intro hp
    rw [exec_byte b now s hmode, withSweep_first now s _ hp,
      byteBody_of_one b now _ _ _ (by rw [sweep_beginTxn_fbuf, hall]),
      exec_instrOfItem item now _ hbytes]
    rfl
  · intro hp
    rw [exec_byte b now s hmode, withSweep_last now s _ hp, byteBody_of_one b now s.beginTxn _ _ hall,
      exec_instrOfItem item now _ hbytes]
    rfl

/-- A corrupt header is found, and the scan of its last six bytes is left over (R105). -/
theorem extractAll_corruptHeader (fid : FrameId) (lid len : U16) (h : headerOk len = false) :
    extractAll (bsHeader fid lid len) =
      ([.retry len], scan [loByte fid, hiByte fid, loByte lid, hiByte lid, loByte len, hiByte len]) := by
  have hfound := extract_corruptHeader fid lid len [] h
  rw [List.append_nil, List.append_nil] at hfound
  have hsix := (scan_length_le ((bsHeader fid lid len).drop 2)).trans_lt (by decide : 6 < 8)
  rw [extractAll_of_found _ _ _ hfound (by simp),
    extractAll_of_needMore _ _ (extract_of_needMore _ (headView_short _ hsix))]
  rfl

/-- Settles O36: the corrupt header is all that EXTRACT finds. -/
theorem byteThatMakesACorruptHeader : Obligations.ByteThatMakesACorruptHeader := by
  intro b now fid lid len s hmode hlen hbytes
  have hall := extractAll_corruptHeader fid lid len ((headerOk_eq_false_iff len).2 hlen)
  rw [← hbytes] at hall
  constructor
  · intro hp
    rw [exec_byte b now s hmode, withSweep_first now s _ hp,
      byteBody_of_one b now _ _ _ (by rw [sweep_beginTxn_fbuf, hall])]
    rfl
  · intro hp
    rw [exec_byte b now s hmode, withSweep_last now s _ hp, byteBody_of_one b now s.beginTxn _ _ hall]
    rfl

/-! ## DGRAM as its class -/

/-- A datagram that passes every check carries an RLE8 line (R75, R113). -/
theorem rle_of_parseDgram {exact : Bool} {d : List Byte} {item : LineItem} (h : parseDgram exact d = .ok item) :
    item.rle = true := by
  unfold parseDgram at h
  simp only at h
  repeat' split at h
  all_goals cases h
  rfl

/-- DGRAM's body does what the datagram's class does (R202). -/
theorem dgramBody_eq (d : List Byte) (now : Time) (s : State) :
    dgramBody d now s = exec (decodeDgram s.params.udpLenExact d now) s := by
  rw [decodeDgram]
  rcases dgramBody_cases d now s with ⟨cause, hparse, hn⟩ | ⟨item, hparse, hn⟩ <;> rw [hn, hparse]
  · rfl
  · have hrle := rle_of_parseDgram hparse
    obtain ⟨fid, lid, rle, p⟩ := item
    subst hrle
    rfl

/-- Settles O38: the class runs before or after the sweep, which leaves the parameters. -/
theorem dgramRunsItsClass : Obligations.DgramRunsItsClass := by
  intro d now s hmode
  constructor
  · intro hp
    rw [exec_dgram d now s hmode, withSweep_first now s _ hp, dgramBody_eq,
      (sweep_sameFrame now s.beginTxn).1.params]
    rfl
  · intro hp
    rw [exec_dgram d now s hmode, withSweep_last now s _ hp, dgramBody_eq]
    rfl

/-! ## What a transaction leaves of the transient fields and the framer buffer -/

/-- A transaction leaves nothing staged and nothing held (R20). -/
theorem exec_transient {i : Instr} {s t : State} (hi : IsTransaction i) (h : exec i s = .next t) :
    t.stage = Staging.idle ∧ t.latch = none := by
  have hbegin : SameFrame s.beginTxn t → t.stage = Staging.idle ∧ t.latch = none := fun hs => ⟨hs.stage, hs.latch⟩
  cases i with
  | byte b now => exact hbegin (execByte_sameFrame b now s t h)
  | dgram d now => exact hbegin (execDgram_sameFrame d now s t h)
  | tick now =>
    cases h
    exact hbegin (sweep_sameFrame now s.beginTxn).1
  | reset c =>
    rcases execReset_cases c s with ⟨_, hn⟩ | ⟨_, hn⟩ <;> rw [exec, hn] at h <;> cases h
    exact ⟨rfl, rfl⟩
  | _ => cases hi

theorem applyExtracts_fbuf {now : Time} {xs : List ExtractResult} {s t : State}
    (h : applyExtracts now xs s = .next t) : t.fbuf = s.fbuf := by
  induction xs generalizing s with
  | nil =>
    cases h
    rfl
  | cons x xs ih =>
    obtain ⟨u, hu, hrest⟩ := (andThen_eq_next _ _ _).1 h
    rw [ih hrest, applyExtract_fbuf hu]

theorem byteBody_fbuf {b : Byte} {now : Time} {s t : State} (h : byteBody b now s = .next t) :
    t.fbuf = (extractAll (s.fbuf ++ [b])).2 := by
  rw [byteBody_eq] at h
  exact applyExtracts_fbuf h

theorem dgramBody_fbuf {d : List Byte} {now : Time} {s t : State} (h : dgramBody d now s = .next t) :
    t.fbuf = s.fbuf := by
  rcases dgramBody_cases d now s with ⟨cause, _, hn⟩ | ⟨item, _, hn⟩ <;> rw [hn] at h
  · cases h
    rfl
  · exact (lineStep_sameFrame item now s t h).2

/-- The sweep of a transaction leaves the framer buffer to its body (R203). -/
theorem withSweep_fbuf {now : Time} {s t : State} {body : State → Result} {f : List Byte → List Byte}
    (hbody : ∀ u v, body u = .next v → v.fbuf = f u.fbuf) (h : withSweep now s body = .next t) :
    t.fbuf = f s.fbuf := by
  cases hp : s.params.sweepAfter with
  | false =>
    rw [withSweep_first now s body hp] at h
    rw [hbody _ _ h, sweep_beginTxn_fbuf]
  | true =>
    rw [withSweep_last now s body hp] at h
    obtain ⟨u, hu, hsweep⟩ := (andThen_eq_next _ _ _).1 h
    cases hsweep
    rw [(sweep_sameFrame now u).2, hbody _ _ hu]
    rfl

/-- The framer buffer after an instruction: BYTE appends and drains, the packet classes take their bytes, RESET
empties it, and nothing else touches it (R53, R200, R202, R260). -/
def fbufNext : Instr → State → List Byte
  | .byte b _, s => (extractAll (s.fbuf ++ [b])).2
  | .reset _, _ => []
  | i, s => fbufAfter i s

theorem exec_fbuf {i : Instr} {s t : State} (h : exec i s = .next t) : t.fbuf = fbufNext i s := by
  cases i with
  | bsRaw fid lid p now => exact (lineStep_sameFrame _ _ _ _ h).2
  | bsRle fid lid p now => exact (lineStep_sameFrame _ _ _ _ h).2
  | bsCorrupt fid lid len =>
    cases h
    rfl
  | udpRle8 fid lid p now => exact (lineStep_sameFrame _ _ _ _ h).2
  | udpReject d cause =>
    cases h
    rfl
  | rlePair count value =>
    cases h
    unfold stagePair
    split <;> rfl
  | rlePairZero value =>
    cases h
    rfl
  | byte b now =>
    have hmode : cfgMode s.cfg = .byteStream := enabled_of_exec h
    rw [exec_byte b now s hmode] at h
    exact withSweep_fbuf (f := fun f => (extractAll (f ++ [b])).2) (fun u v => byteBody_fbuf) h
  | dgram d now =>
    have hmode : cfgMode s.cfg = .datagram := enabled_of_exec h
    rw [exec_dgram d now s hmode] at h
    exact withSweep_fbuf (f := id) (fun u v => dgramBody_fbuf) h
  | tick now =>
    cases h
    exact sweep_beginTxn_fbuf now s
  | reset c =>
    rcases execReset_cases c s with ⟨_, hn⟩ | ⟨_, hn⟩ <;> rw [exec, hn] at h <;> cases h
    rfl

/-- Settles O54: none of these six takes a byte from the framer buffer. -/
theorem onlyTheByteStreamTouchesFbuf : Obligations.OnlyTheByteStreamTouchesFbuf := by
  intro s t now
  exact ⟨fun _ h => exec_fbuf h, fun h => exec_fbuf h, fun _ _ _ h => exec_fbuf h, fun _ _ h => exec_fbuf h,
    fun _ _ h => exec_fbuf h, fun _ h => exec_fbuf h⟩

/-- Settles O37: BYTE completes, and one byte after a drained buffer completes at most one packet. -/
theorem byteLeavesADrainedBuffer : Obligations.ByteLeavesADrainedBuffer := by
  intro b now s h hmode
  obtain ⟨t, ht, _⟩ := exec_sound (i := .byte b now) h.assembler hmode
  have hfbuf : t.fbuf = (extractAll (s.fbuf ++ [b])).2 := exec_fbuf ht
  refine ⟨t, ht, hfbuf, ?_, ?_⟩
  · rw [hfbuf]
    exact (needMoreIsBoundedAndStable _ _ (extractAll_drained _)).1
  · rcases extractAll_snoc s.fbuf b h.framer.drained with ⟨r, _, hall⟩ | ⟨x, r, _, _, hall⟩ <;> rw [hall]
    · exact Nat.zero_le _
    · exact Nat.le_refl _

/-! ## The invariant of the block -/

/-- A transaction keeps the framer's invariant: BYTE drains the buffer, RESET empties it, and the other two leave
it as it is (R26, R106). -/
theorem exec_framerInv {i : Instr} {s t : State} (hi : IsTransaction i) (hs : FramerInv s)
    (h : exec i s = .next t) : FramerInv t := by
  have hfbuf := exec_fbuf h
  have hcfg : t.cfg = cfgAfter i s := (exec_inputs i s t h).cfg
  have hkept : t.fbuf = s.fbuf → t.cfg = s.cfg → FramerInv t := fun hf hc =>
    ⟨hf ▸ hs.drained, fun hm => hf.trans (hs.datagram (hc ▸ hm))⟩
  cases i with
  | byte b now =>
    have hmode : cfgMode s.cfg = .byteStream := enabled_of_exec h
    refine ⟨hfbuf ▸ extractAll_drained _, fun hm => ?_⟩
    rw [hcfg] at hm
    exact absurd (hmode.symm.trans hm) (by decide)
  | dgram d now => exact hkept hfbuf hcfg
  | tick now => exact hkept hfbuf hcfg
  | reset c => exact ⟨hfbuf ▸ rfl, fun _ => hfbuf⟩
  | _ => cases hi

theorem exec_blockInv {i : Instr} {s t : State} (hi : IsTransaction i) (hs : BlockInv s) (h : exec i s = .next t) :
    BlockInv t :=
  have htransient := exec_transient hi h
  ⟨assemblerInvariantIsKept i s t hs.assembler h, exec_framerInv hi hs.framer h, htransient.1, htransient.2⟩

/-- What a port offers decodes to a transaction (R81). -/
theorem isTransaction_of_decodePort {o : Offer} {i : Instr} (h : decodePort o = .ok i) : IsTransaction i := by
  cases o with
  | byte b now =>
    cases h
    trivial
  | dgram d now =>
    cases h
    trivial
  | tick now =>
    cases h
    trivial
  | reset c =>
    rw [decodePort] at h
    split at h <;> cases h
    trivial

/-- Settles O56: a step between transactions idles or runs the transaction that is offered next. -/
theorem blockInvariantIsKept : Obligations.BlockInvariantIsKept := by
  intro s t hs h
  rw [step] at h
  cases ho : s.offers with
  | nil =>
    rw [fetch_idle s hs.latch ho] at h
    cases h
    exact hs
  | cons o rest =>
    rw [fetch_offer s o rest hs.latch ho] at h
    dsimp only [decode] at h
    have hs' : BlockInv { s with offers := rest } :=
      ⟨hs.assembler.congr rfl rfl rfl, ⟨hs.framer.drained, hs.framer.datagram⟩, hs.stage, hs.latch⟩
    split at h
    · rename_i i hi
      exact exec_blockInv (isTransaction_of_decodePort hi) hs' h
    · cases h

/-- Settles O57: at reset there is no slot, no byte held and nothing buffered. -/
theorem blockInvariantAtReset : Obligations.BlockInvariantAtReset :=
  ⟨.of_empty (by decide) rfl rfl, ⟨rfl, fun _ => rfl⟩, rfl, rfl⟩

/-- Settles O53: the bounds are those of the block's invariant. -/
theorem statusOutputsAreBounded : Obligations.StatusOutputsAreBounded := by
  intro s h
  refine ⟨rfl, h.assembler.window, rfl, (needMoreIsBoundedAndStable _ _ h.framer.drained).1, fun hm => ?_⟩
  rw [State.stFbuf, h.framer.datagram hm]
  rfl

/-! ## The outputs of a transaction -/

/-- A state follows another with at most one record more, which is no stall event (R205). -/
def OneRecord (s t : State) : Prop :=
  ∃ rest : List Output, t.out = s.out ++ rest ∧ rest.length ≤ 1 ∧ ∀ o ∈ rest, o.isStall = false

theorem OneRecord.none {s t : State} (h : t.out = s.out) : OneRecord s t :=
  ⟨[], by rw [h, List.append_nil], Nat.zero_le _, by simp⟩

theorem OneRecord.one {s t : State} (o : Output) (h : t.out = s.out ++ [o]) (ho : o.isStall = false) :
    OneRecord s t :=
  ⟨[o], h, Nat.le_refl _, by simpa using ho⟩

/-- A line puts out at most one record: a first line is not also its frame's last (R205). -/
theorem LineEffect.oneRecord {s t : State} {item : LineItem} {now : Time} (h : AssemblerInv s)
    (heff : LineEffect item now s t) : OneRecord s t := by
  cases heff with
  | invalid reason hdec => exact .one _ rfl rfl
  | outOfRange row hdec hlid => exact .one _ rfl rfl
  | duplicate row e hdec hlid hslot hhas => exact .one _ rfl rfl
  | stored row e hdec hlid hslot hhas hn => exact .none rfl
  | completed row e hdec hlid hslot hhas hn => exact .one _ rfl rfl
  | allocated row hdec hlid hnone =>
    rcases evictOldest_of_inv h.store with ⟨_, he⟩ | ⟨victim, rest, _, _, he⟩
    · exact .none (show s.evictOldest.out = s.out by rw [he])
    · exact .one _ (show s.evictOldest.out = s.out ++ [_] by rw [he]; rfl) rfl

theorem lineStep_oneRecord {item : LineItem} {now : Time} {s t : State} (h : AssemblerInv s)
    (hstep : lineStep item now s = .next t) : OneRecord s t := (LineEffect.of_lineStep h hstep).oneRecord h

theorem applyExtract_oneRecord {now : Time} {x : ExtractResult} {s t : State} (h : AssemblerInv s)
    (hstep : applyExtract now x s = .next t) : OneRecord s t := by
  cases x with
  | needMore =>
    cases hstep
    exact .none rfl
  | retry len =>
    cases hstep
    exact .one _ rfl rfl
  | packet item => exact lineStep_oneRecord h hstep

theorem byteBody_oneRecord {b : Byte} {now : Time} {s t : State} (h : AssemblerInv s)
    (hdrained : extract s.fbuf = (.needMore, s.fbuf)) (hstep : byteBody b now s = .next t) : OneRecord s t := by
  rcases extractAll_snoc s.fbuf b hdrained with ⟨r, _, hall⟩ | ⟨x, r, _, _, hall⟩
  · rw [byteBody_of_none b now s r hall] at hstep
    cases hstep
    exact .none rfl
  · rw [byteBody_of_one b now s x _ hall] at hstep
    exact applyExtract_oneRecord (s := { s with fbuf := scan r }) (h.setFbuf _) hstep

theorem dgramBody_oneRecord {d : List Byte} {now : Time} {s t : State} (h : AssemblerInv s)
    (hstep : dgramBody d now s = .next t) : OneRecord s t := by
  rcases dgramBody_cases d now s with ⟨cause, _, hn⟩ | ⟨item, _, hn⟩ <;> rw [hn] at hstep
  · cases hstep
    exact .one _ rfl rfl
  · exact lineStep_oneRecord h hstep

/-- A sweep puts out at most one stall event for each slot (R170). -/
theorem sweep_out (now : Time) (s : State) (h : AssemblerInv s) :
    ∃ stalls : List Output, (sweep now s).out = s.out ++ stalls ∧ stalls.length ≤ windowSize s.cfg ∧
      ∀ o ∈ stalls, o.isStall = true := by
  cases hen : cfgStallEn s.cfg with
  | false =>
    rw [sweep_off now s hen]
    exact ⟨[], (List.append_nil _).symm, Nat.zero_le _, by simp⟩
  | true =>
    rw [sweep_on now s hen]
    refine ⟨_, rfl, ?_, fun o ho => ?_⟩
    · rw [List.length_map]
      exact (List.length_filter_le _ _).trans h.window
    · obtain ⟨e, _, rfl⟩ := List.mem_map.1 ho
      rfl

/-- The stall events of a transaction and the record of its body, in the order of its sweep (R203, R205). -/
theorem withSweep_outputs {now : Time} {s t : State} {body : State → Result} (hs : AssemblerInv s)
    (hframe : ∀ u v, body u = .next v → SameFrame u v)
    (hsound : ∀ u, AssemblerInv u → Sound (body u))
    (hone : ∀ u v, AssemblerInv u → u.fbuf = s.fbuf → body u = .next v → OneRecord u v)
    (h : withSweep now s body = .next t) :
    ∃ stalls rest : List Output,
      t.out = s.out ++ (if s.params.sweepAfter then rest ++ stalls else stalls ++ rest) ∧
      stalls.length ≤ windowSize s.cfg ∧ rest.length ≤ 1 ∧
      (∀ o ∈ stalls, o.isStall = true) ∧ (∀ o ∈ rest, o.isStall = false) := by
  cases hp : s.params.sweepAfter with
  | false =>
    rw [withSweep_first now s body hp] at h
    obtain ⟨stalls, hstalls, hlen, hstall⟩ := sweep_out now s.beginTxn hs.beginTxn
    obtain ⟨rest, hrest, hlen1, hother⟩ := hone _ _ (hs.beginTxn.sweep now) (sweep_beginTxn_fbuf now s) h
    refine ⟨stalls, rest, ?_, hlen, hlen1, hstall, hother⟩
    rw [hrest, hstalls, List.append_assoc]
    rfl
  | true =>
    rw [withSweep_last now s body hp] at h
    obtain ⟨u, hu, hsweep⟩ := (andThen_eq_next _ _ _).1 h
    cases hsweep
    have huinv : AssemblerInv u := by
      obtain ⟨u', hu', hinv⟩ := hsound _ hs.beginTxn
      rw [hu'] at hu
      cases hu
      exact hinv
    obtain ⟨stalls, hstalls, hlen, hstall⟩ := sweep_out now u huinv
    obtain ⟨rest, hrest, hlen1, hother⟩ := hone _ _ hs.beginTxn rfl hu
    rw [(hframe _ _ hu).cfg] at hlen
    refine ⟨stalls, rest, ?_, hlen, hlen1, hstall, hother⟩
    rw [hstalls, hrest, List.append_assoc]
    rfl

/-- Settles O58: the sweep gives the stall events and the body at most one record. -/
theorem outputsOfATransaction : Obligations.OutputsOfATransaction := by
  intro i s t hs hi h
  cases i with
  | byte b now =>
    rw [exec_byte b now s (enabled_of_exec h)] at h
    refine withSweep_outputs hs.assembler (byteBody_sameFrame b now) (fun u hu => byteBody_sound hu b now)
      (fun u v hu hf => byteBody_oneRecord hu ?_) h
    rw [hf]
    exact hs.framer.drained
  | dgram d now =>
    rw [exec_dgram d now s (enabled_of_exec h)] at h
    exact withSweep_outputs hs.assembler (dgramBody_sameFrame d now) (fun u hu => dgramBody_sound hu d now)
      (fun u v hu _ => dgramBody_oneRecord hu) h
  | tick now =>
    cases h
    obtain ⟨stalls, hstalls, hlen, hstall⟩ := sweep_out now s.beginTxn hs.assembler.beginTxn
    refine ⟨stalls, [], ?_, hlen, Nat.zero_le _, hstall, by simp⟩
    simpa using hstalls
  | reset c =>
    rcases execReset_cases c s with ⟨_, hn⟩ | ⟨_, hn⟩ <;> rw [exec, hn] at h <;> cases h
    exact ⟨[], [], by simp, Nat.zero_le _, Nat.zero_le _, by simp, by simp⟩
  | _ => cases hi

end Sys2Proof.Machine
end

