-- ==== Sys2Proof/Proofs/Steps.lean ====
section
/-! The machine around its instructions: refusals (43_transactions.md R207), reset (70_reset_and_hazards.md R260),
the step and the fetch before it (R208), and what does not cross a transaction (10_state.md R20). -/

namespace Sys2Proof.Machine

/-! ## Instructions with one effect -/

/-- Settles O40: UDP_REJECT is one event. -/
theorem rejectedDatagramGivesOneEvent : Obligations.RejectedDatagramGivesOneEvent := by
  intro d cause s
  rfl

/-- Settles O43: a well-formed word is the branch of RESET that empties everything. -/
theorem resetValues : Obligations.ResetValues := by
  intro c s hwf
  have hreset : exec (.reset c) s =
      .next { s with cfg := c, fbuf := [], slots := [], mem := [], stage := Staging.idle, latch := none } := by
    rw [exec, execReset, if_pos hwf]
    rfl
  refine ⟨hreset, fun t ht => ?_⟩
  rw [hreset] at ht
  cases ht
  exact ⟨Memory.read_nil, rfl, rfl⟩

/-- Settles O44: the configuration word of `State.reset` is well-formed, and everything else is empty. -/
theorem resetStateIsAReset : Obligations.ResetStateIsAReset := by
  refine ⟨?_, by decide, by decide, rfl⟩
  exact (resetValues 0x0000000007D00010 State.reset (by decide)).1

/-- Settles O46, by the tables of codes. -/
theorem eventCodes : Obligations.EventCodes := by
  intro a b x y n t
  exact ⟨rfl, rfl, rfl, rfl, rfl, rfl, rfl, fun _ => rfl, rfl, rfl, rfl, rfl, rfl, rfl, rfl, rfl, rfl⟩

/-- Settles O52, by what each instruction leaves of the inputs. -/
theorem parametersAndOffersAreKept : Obligations.ParametersAndOffersAreKept := by
  intro i s t h
  obtain ⟨_, hoffers, hparams⟩ := exec_inputs i s t h
  exact ⟨hparams, hoffers⟩

/-! ## Refusals -/

theorem withSweep_ne_refused {now : Time} {s : State} {body : State → Result}
    (hbody : ∀ u r, body u ≠ .refused r) (r : Refusal) : withSweep now s body ≠ .refused r := by
  cases hp : s.params.sweepAfter with
  | false =>
    rw [withSweep_first now s body hp]
    exact hbody _ r
  | true =>
    rw [withSweep_last now s body hp]
    cases hr : body s.beginTxn with
    | next t => simp
    | fault f => simp
    | refused r' => exact absurd hr (hbody _ r')

theorem byteBody_ne_refused (b : Byte) (now : Time) (s : State) (r : Refusal) : byteBody b now s ≠ .refused r :=
  drain_ne_refused now _ _ r

theorem dgramBody_ne_refused (d : List Byte) (now : Time) (s : State) (r : Refusal) :
    dgramBody d now s ≠ .refused r := by
  rcases dgramBody_cases d now s with ⟨cause, _, hn⟩ | ⟨item, _, hn⟩ <;> rw [hn]
  · simp
  · exact lineStep_ne_refused item now s r

/-- Settles O41: the mode decides between the refusal and the transaction, which refuses nothing. -/
theorem mismatchedPortHasNoStep : Obligations.MismatchedPortHasNoStep := by
  intro s b d now
  refine ⟨fun hm => ?_, fun hm => ?_, fun hm r => ?_, fun hm r => ?_⟩
  · rw [exec, execByte, hm]
  · rw [exec, execDgram, hm]
  · rw [exec_byte b now s hm]
    exact withSweep_ne_refused (byteBody_ne_refused b now) r
  · rw [exec_dgram d now s hm]
    exact withSweep_ne_refused (dgramBody_ne_refused d now) r

/-- What an instruction refuses: a port that is not ready, and a malformed configuration word. -/
theorem exec_refused {i : Instr} {s : State} {r : Refusal} (h : exec i s = .refused r) :
    r = .portNotReady ∨ r = .malformedConfig := by
  have hports := mismatchedPortHasNoStep s
  cases i with
  | bsRaw fid lid p now => exact absurd h (lineStep_ne_refused _ _ _ _)
  | bsRle fid lid p now => exact absurd h (lineStep_ne_refused _ _ _ _)
  | bsCorrupt fid lid len => cases h
  | udpRle8 fid lid p now => exact absurd h (lineStep_ne_refused _ _ _ _)
  | udpReject d cause => cases h
  | rlePair count value => cases h
  | rlePairZero value => cases h
  | byte b now =>
    cases hm : cfgMode s.cfg with
    | datagram =>
      rw [(hports b [] now).1 hm] at h
      cases h
      exact .inl rfl
    | byteStream => exact absurd h ((hports b [] now).2.2.1 hm r)
  | dgram d now =>
    cases hm : cfgMode s.cfg with
    | byteStream =>
      rw [(hports 0 d now).2.1 hm] at h
      cases h
      exact .inl rfl
    | datagram => exact absurd h ((hports 0 d now).2.2.2 hm r)
  | tick now => cases h
  | reset c =>
    rcases execReset_cases c s with ⟨_, hn⟩ | ⟨_, hn⟩ <;> rw [exec, hn] at h <;> cases h
    exact .inr rfl

/-! ## The step -/

theorem step_of_fetch {s t : State} {f : Fetch} {i : Instr} (hf : fetch s = (some f, t))
    (hd : decode t.params.udpLenExact f = .ok i) : step s = exec i t := by
  rw [step, hf]
  dsimp only
  rw [hd]

theorem step_of_reject {s t : State} {f : Fetch} {r : Reject} (hf : fetch s = (some f, t))
    (hd : decode t.params.udpLenExact f = .error r) : step s = .refused (refusalOf r) := by
  rw [step, hf]
  dsimp only
  rw [hd]

theorem step_of_none {s t : State} (hf : fetch s = (none, t)) : step s = .next t := by
  rw [step, hf]

/-- A draining framer fetches what it decodes (R108). -/
theorem fetch_of_framer {s : State} {now : Time} (hl : s.latch = some (.framer now))
    (hview : headView (scan s.fbuf) ≠ .needMore) :
    fetch s = (some (.framer (scan s.fbuf) now), { s with fbuf := scan s.fbuf }) := by
  rw [fetch_framer s now hl, if_neg hview]

theorem view_of_decodePacket {b : List Byte} {now : Time} {i : Instr} (h : decodePacket b now = .ok i) :
    startsMagic b = true ∧ headView b ≠ .needMore := by
  rw [decodePacket] at h
  split at h
  · rename_i hm
    refine ⟨hm, fun hv => ?_⟩
    rw [hv] at h
    cases h
  · cases h

/-- Settles O47, by the latch and the offers. -/
theorem stepRunsTheDecodedInstruction : Obligations.StepRunsTheDecodedInstruction := by
  intro s i
  refine ⟨fun o rest hl ho hd => ?_, fun d now hl hd => ?_, fun c v hl hd => ?_, fun now hl hd => ?_,
    fun now hl hv => ?_, fun hl ho => ?_, fun o rest r hl ho hd => ?_⟩
  · exact step_of_fetch (fetch_offer s o rest hl ho) hd
  · exact step_of_fetch (fetch_parser s d now hl) hd
  · exact step_of_fetch (fetch_codec s c v hl) hd
  · exact step_of_fetch (fetch_of_framer hl (view_of_decodePacket hd).2) hd
  · exact step_of_none (by rw [fetch_framer s now hl, if_pos hv])
  · exact step_of_none (fetch_idle s hl ho)
  · exact step_of_reject (fetch_offer s o rest hl ho) hd

/-- What a draining framer fetches decodes (R108). -/
theorem decodePacket_of_view {b : List Byte} (now : Time) (hm : startsMagic b = true) (hv : headView b ≠ .needMore) :
    ∃ i, decodePacket b now = .ok i := by
  rw [decodePacket, if_pos hm]
  cases h : headView b with
  | needMore => exact absurd h hv
  | corrupt fid lid len => exact ⟨_, rfl⟩
  | packet item => exact ⟨_, rfl⟩

/-- Of what a step fetches, only a malformed configuration word is no instruction. -/
theorem reject_of_fetch {s t : State} {f : Fetch} {r : Reject} (exact : Bool) (hf : fetch s = (some f, t))
    (hd : decode exact f = .error r) : r = .malformedConfig := by
  cases hl : s.latch with
  | none =>
    cases ho : s.offers with
    | nil =>
      rw [fetch_idle s hl ho] at hf
      cases hf
    | cons o rest =>
      rw [fetch_offer s o rest hl ho] at hf
      cases hf
      rw [decode] at hd
      cases o with
      | reset c =>
        rw [decodePort] at hd
        split at hd <;> cases hd
        rfl
      | _ => cases hd
  | some item =>
    cases item with
    | framer now =>
      by_cases hv : headView (scan s.fbuf) = .needMore
      · rw [fetch_framer s now hl, if_pos hv] at hf
        cases hf
      · rw [fetch_of_framer hl hv] at hf
        cases hf
        obtain ⟨i, hi⟩ := decodePacket_of_view now (startsMagic_of_view _ hv) hv
        rw [decode, hi] at hd
        cases hd
    | parser d now =>
      rw [fetch_parser s d now hl] at hf
      cases hf
      cases hd
    | codec count value =>
      rw [fetch_codec s count value hl] at hf
      cases hf
      cases hd

/-- Settles O48: neither the fetch nor any instruction refuses with undecodable bits. -/
theorem stepNeverMeetsUndecodableBits : Obligations.StepNeverMeetsUndecodableBits := by
  intro s why h
  obtain ⟨f, t, hf⟩ : ∃ f t, fetch s = (f, t) := ⟨_, _, rfl⟩
  cases f with
  | none =>
    rw [step_of_none hf] at h
    cases h
  | some f =>
    cases hd : decode t.params.udpLenExact f with
    | ok i =>
      rw [step_of_fetch hf hd] at h
      rcases exec_refused h with hr | hr <;> cases hr
    | error r =>
      rw [step_of_reject hf hd, reject_of_fetch _ hf hd] at h
      cases h

/-! ## A word placed for the next fetch -/

theorem cfgMode_cfgWithMode (m : Mode) (c : CfgWord) : cfgMode (cfgWithMode m c) = m := by
  cases m <;> simp [cfgMode, cfgWithMode]

/-- What runs from `s` is `i` in a state `u` where it is enabled and that differs from `s` only in the mode bit,
the framer buffer and the latch (log entry 12). -/
structure PlacedRun (i : Instr) (s u : State) : Prop where
  slots : u.slots = s.slots
  mem : u.mem = s.mem
  out : u.out = s.out
  stage : u.stage = s.stage
  offers : u.offers = s.offers
  params : u.params = s.params
  physHints : u.physHints = s.physHints
  cfg : u.cfg = s.cfg ∨ u.cfg = cfgWithMode .byteStream s.cfg ∨ u.cfg = cfgWithMode .datagram s.cfg
  enabled : Enabled i u

/-- The classes of the units inside a transaction need no port. -/
theorem enabled_of_decodePacket {b : List Byte} {now : Time} {i : Instr} (h : decodePacket b now = .ok i)
    (u : State) : Enabled i u := by
  rw [decodePacket] at h
  split at h
  · split at h <;> cases h
    · trivial
    · rw [instrOfItem]
      split <;> trivial
  · cases h

theorem enabled_of_decodePort {o : Offer} {i : Instr} (h : decodePort o = .ok i) (c : CfgWord) (u : State)
    (hu : u.cfg = modeForPort o c) : Enabled i u := by
  cases o with
  | byte b now =>
    cases h
    exact (congrArg cfgMode hu).trans (cfgMode_cfgWithMode .byteStream c)
  | dgram d now =>
    cases h
    exact (congrArg cfgMode hu).trans (cfgMode_cfgWithMode .datagram c)
  | tick now =>
    cases h
    trivial
  | reset w =>
    rw [decodePort] at h
    split at h <;> cases h
    assumption

/-- Bits placed for the next fetch are run by the next step (log entry 12). -/
theorem step_placeFetch (s : State) (f : Fetch) (i : Instr) (hd : decode s.params.udpLenExact f = .ok i) :
    ∃ u, step (placeFetch f s) = exec i u ∧ PlacedRun i s u := by
  cases f with
  | port o =>
    refine ⟨{ s with cfg := modeForPort o s.cfg, latch := none }, step_of_fetch rfl hd,
      rfl, rfl, rfl, rfl, rfl, rfl, rfl, ?_, enabled_of_decodePort hd s.cfg _ rfl⟩
    cases o with
    | byte b now => exact .inr (.inl rfl)
    | dgram d now => exact .inr (.inr rfl)
    | tick now => exact .inl rfl
    | reset c => exact .inl rfl
  | framer b now =>
    obtain ⟨hm, hv⟩ := view_of_decodePacket hd
    have hscan := scan_of_startsMagic b hm
    have hf : fetch (placeFetch (.framer b now) s) =
        (some (.framer b now), placeFetch (.framer b now) s) := by
      rw [fetch_of_framer (now := now) rfl (show headView (scan b) ≠ .needMore by rwa [hscan])]
      show (some (Fetch.framer (scan b) now), { placeFetch (.framer b now) s with fbuf := scan b }) = _
      rw [hscan]
      rfl
    exact ⟨_, step_of_fetch hf hd, rfl, rfl, rfl, rfl, rfl, rfl, rfl, .inr (.inl rfl), enabled_of_decodePacket hd _⟩
  | parser d now =>
    refine ⟨{ s with cfg := cfgWithMode .datagram s.cfg, latch := none }, step_of_fetch rfl hd,
      rfl, rfl, rfl, rfl, rfl, rfl, rfl, .inr (.inr rfl), ?_⟩
    cases hd
    rw [decodeDgram]
    split <;> trivial
  | codec bytes =>
    match bytes, hd with
    | count :: value :: rest, hd =>
      refine ⟨{ s with latch := none }, step_of_fetch (f := .codec [count, value]) rfl hd,
        rfl, rfl, rfl, rfl, rfl, rfl, rfl, .inl rfl, ?_⟩
      cases hd
      split <;> trivial

/-- Settles O49: a table word is placed as the bits it stands for. -/
theorem tableWordIsRunNext : Obligations.TableWordIsRunNext := by
  intro s nbits w i hd
  obtain ⟨u, hstep, h⟩ := step_placeFetch s (tableFetch nbits w) i hd
  exact ⟨u, hstep, h.slots, h.mem, h.out, h.stage, h.offers, h.params, h.physHints, h.cfg, h.enabled⟩

/-! ## What does not cross a transaction -/

section
variable (c : Surround)

theorem place_applyExtract (s : State) (now : Time) (x : ExtractResult) :
    applyExtract now x (c.place s) = onNext c.place (applyExtract now x s) := by
  cases x with
  | needMore => rfl
  | retry len => exact congrArg _ (place_raise c s _)
  | packet item => exact place_lineStep c s item now

theorem place_applyExtracts (s : State) (now : Time) (xs : List ExtractResult) :
    applyExtracts now xs (c.place s) = onNext c.place (applyExtracts now xs s) := by
  induction xs generalizing s with
  | nil => rfl
  | cons x xs ih =>
    rw [applyExtracts, place_applyExtract, andThen_onNext, applyExtracts, onNext_andThen]
    exact congrArg _ (funext ih)

/-- Surroundings with the framer buffer as it is, nothing staged and nothing held: those between transactions. -/
structure Surround.Between : Prop where
  fbuf : c.fbuf = id
  stage : c.stage = Staging.idle
  latch : c.latch = none

variable {c} (hc : c.Between)
include hc

theorem place_beginTxn (s : State) : (c.place s).beginTxn = c.place s.beginTxn := by
  simp [Surround.place, State.beginTxn, hc.stage, hc.latch]

theorem place_byteBody (b : Byte) (now : Time) (s : State) :
    byteBody b now (c.place s) = onNext c.place (byteBody b now s) := by
  have hfbuf : ∀ u : State, (c.place u).fbuf = u.fbuf := fun u => congrFun hc.fbuf u.fbuf
  have hset : ∀ r, { c.place s with fbuf := r } = c.place { s with fbuf := r } := fun r => by
    simp only [Surround.place, hc.fbuf, id]
  rw [byteBody_eq, byteBody_eq, hfbuf, hset, place_applyExtracts]

omit hc in
theorem place_dgramBody (d : List Byte) (now : Time) (s : State) :
    dgramBody d now (c.place s) = onNext c.place (dgramBody d now s) := by
  have hparams : (c.place s).params = s.params := rfl
  rw [dgramBody, dgramBody, hparams]
  split
  · exact congrArg _ (place_raise c s _)
  · exact place_lineStep c s _ now

theorem place_withSweep (now : Time) (s : State) (body : State → Result)
    (hbody : ∀ u, body (c.place u) = onNext c.place (body u)) :
    withSweep now (c.place s) body = onNext c.place (withSweep now s body) := by
  cases hp : s.params.sweepAfter with
  | false =>
    rw [withSweep_first now s body hp, withSweep_first now (c.place s) body hp, place_beginTxn hc, place_sweep, hbody]
  | true =>
    rw [withSweep_last now s body hp, withSweep_last now (c.place s) body hp, place_beginTxn hc, hbody]
    cases body s.beginTxn with
    | next t => exact congrArg _ (place_sweep c t now)
    | fault f => rfl
    | refused r => rfl

/-- A transaction does the same in any surroundings between transactions. -/
theorem place_exec {i : Instr} (hi : IsTransaction i) (s : State) :
    exec i (c.place s) = onNext c.place (exec i s) := by
  have hcfg : (c.place s).cfg = s.cfg := rfl
  cases i with
  | byte b now =>
    rw [exec, exec, execByte, execByte, hcfg]
    split
    · rfl
    · exact place_withSweep hc now s _ (place_byteBody hc b now)
  | dgram d now =>
    rw [exec, exec, execDgram, execDgram, hcfg]
    split
    · rfl
    · exact place_withSweep hc now s _ (place_dgramBody d now)
  | tick now =>
    rw [exec, exec, execTick, execTick, place_beginTxn hc, place_sweep]
    rfl
  | reset w =>
    rw [exec, exec, execReset, execReset]
    split
    · rw [place_beginTxn hc]
      simp only [Surround.place, hc.fbuf, id, onNext_next]
    · rfl
  | _ => cases hi

end

/-- The surroundings of a state as its transaction begins. -/
def txnSurround (s : State) : Surround := ⟨id, s.out, Staging.idle, none, s.offers⟩

/-- The block's own state, with nothing else. -/
def ownState (s : State) : State := { s with out := [], stage := Staging.idle, latch := none, offers := [] }

theorem txnSurround_place (s : State) : (txnSurround s).place (ownState s) = s.beginTxn := by
  simp [txnSurround, ownState, Surround.place, State.beginTxn]

/-- A transaction is what it does on the block's own state, in the surroundings it begins in. -/
theorem exec_eq_ownState {i : Instr} (hi : IsTransaction i) (s : State) :
    exec i s = onNext (txnSurround s).place (exec i (ownState s)) := by
  have hbegin : exec i s.beginTxn = exec i s := by
    cases i with
    | byte b now => rfl
    | dgram d now => rfl
    | tick now => rfl
    | reset c => rfl
    | _ => cases hi
  rw [← hbegin, ← txnSurround_place, place_exec ⟨rfl, rfl, rfl⟩ hi]

/-- Settles O59: both states have the same own state, on which the transaction runs. -/
theorem stagingDoesNotSurvive : Obligations.StagingDoesNotSurvive := by
  intro i s s' t hi hcfg hfbuf hslots hmem hhints hparams h
  obtain ⟨hstage, hlatch⟩ := exec_transient hi h
  refine ⟨hstage, hlatch, ?_⟩
  have hown : ownState s' = ownState s := by simp only [ownState, hcfg, hfbuf, hslots, hmem, hhints, hparams]
  rw [exec_eq_ownState hi s] at h
  obtain ⟨u, hu, ht⟩ := (andThen_eq_next _ _ _).1 h
  cases ht
  have h' : exec i s' = .next ((txnSurround s').place u) := by
    rw [exec_eq_ownState hi s', hown, hu]
    rfl
  exact ⟨_, u.out, h', rfl, rfl, rfl, rfl, rfl, rfl, rfl, rfl, rfl⟩

end Sys2Proof.Machine
end

