-- ==== Sys2Proof/Proofs/Frames.lean ====
section
/-! The assembler without physical places (10_state.md R27, 20_memory.md R58): a slot as the frame it collects, LINE
and SWEEP on lists of such frames, and that the block's state does what they do. Where a slot stands is then
invisible. -/

namespace Sys2Proof.Machine

/-! ## A slot as the frame it collects -/

/-- The frame that a slot collects: the slot without its physical place, with its rows. -/
structure Frame where
  fid : FrameId
  present : BitVec Config.lines
  nLines : BitVec 9
  byteCount : U16
  rleLineCount : BitVec 9
  tLast : Time
  rows : Nat → Option (List Byte)

def Frame.has (f : Frame) (l : Nat) : Bool := f.present.getLsbD l

/-- The frame of a slot: the rows of its present lines as the line buffer holds them. -/
def frameOf (s : State) (e : Slot) : Frame :=
  ⟨e.fid, e.present, e.nLines, e.byteCount, e.rleLineCount, e.tLast,
    fun l => if e.has l then s.mem.row e.phys l else none⟩

/-- The frames in flight, oldest first. -/
def framesOf (s : State) : List Frame := s.slots.map (frameOf s)

theorem lt_of_has {e : Slot} {l : Nat} (h : e.has l = true) : l < 342 := by
  by_contra hl
  rw [Slot.has, BitVec.getLsbD_of_ge _ _ (by rw [Config.lines_val]; omega)] at h
  cases h

/-- A frame is what `slotView` shows of its slot. -/
theorem frameOf_eq_iff (s t : State) (e f : Slot) : frameOf t f = frameOf s e ↔ slotView t f = slotView s e := by
  have hrows : (∀ l < 342, (frameOf t f).rows l = (frameOf s e).rows l) ↔ (frameOf t f).rows = (frameOf s e).rows := by
    refine ⟨fun h => funext fun l => ?_, fun h l _ => congrFun h l⟩
    by_cases hl : l < 342
    · exact h l hl
    · have hnone : ∀ (u : State) (x : Slot), (frameOf u x).rows l = none := fun u x =>
        if_neg fun hx => hl (lt_of_has hx)
      rw [hnone, hnone]
  rw [Frame.mk.injEq, ← hrows]
  simp only [slotView, Prod.mk.injEq, List.map_inj_left, List.mem_range, Config.lines_val, Config.rowBytes_val]
  rfl

theorem framesOf_eq_iff (s t : State) :
    framesOf t = framesOf s ↔ t.slots.map (slotView t) = s.slots.map (slotView s) := by
  rw [← List.forall₂_eq_eq_eq, ← List.forall₂_eq_eq_eq]
  simp only [framesOf, List.forall₂_map_left_iff, List.forall₂_map_right_iff, frameOf_eq_iff]

/-- The frame of a frame_id is that of its slot (R162). -/
theorem find_framesOf (s : State) (fid : FrameId) :
    (framesOf s).find? (fun f => f.fid == fid) = (s.findSlot fid).map (frameOf s) := by
  rw [framesOf, List.find?_map]
  rfl

/-! ## The operations of the assembler on frames -/

/-- A frame with one more line (R165). -/
def Frame.insert (f : Frame) (item : LineItem) (row : List Byte) (now : Time) : Frame :=
  { f with
    present := presentWith f.present item.lid.toNat
    nLines := f.nLines + 1
    byteCount := f.byteCount + BitVec.ofNat 16 item.n
    rleLineCount := f.rleLineCount + rleCount item.rle
    tLast := now
    rows := Function.update f.rows item.lid.toNat (some row) }

/-- A frame as it is allocated (R163). -/
def Frame.empty (fid : FrameId) (now : Time) : Frame := ⟨fid, 0, 0, 0, 0, now, fun _ => none⟩

/-- The record of a frame that leaves (R167). -/
def Frame.record (c : CfgWord) (f : Frame) : Output :=
  .frame f.fid ((List.range 342).flatMap (fun l => rowOut c ((f.rows l).getD []))) f.byteCount
    (f.rleLineCount.setWidth 16)

/-- The event of a frame that the window evicts (R164). -/
def Frame.windowEvent (f : Frame) : Output := .event (.evictWindow f.fid (f.nLines.setWidth 16))

/-- Whether a frame is stale (R170). -/
def Frame.stale (c : CfgWord) (now : Time) (f : Frame) : Bool := (cfgStallWindow c).ult (now - f.tLast)

/-- The event of a frame that the sweep evicts (R170). -/
def Frame.stallEvent (now : Time) (f : Frame) : Output :=
  .event (.evictStall f.fid (f.nLines.setWidth 16) (now - f.tLast))

/-- SUBMIT of the first line of a frame on the frames in flight, with the window eviction (R163, R164). -/
def submitFirst (c : CfgWord) (f : Frame) (fs : List Frame) : List Frame × List Output :=
  if fs.length < windowSize c then (fs ++ [f], []) else (fs.tail ++ [f], fs.head?.toList.map Frame.windowEvent)

/-- SUBMIT on the frames in flight: those that follow, and what is put out (R160 to R167). -/
def submitFrames (c : CfgWord) (item : LineItem) (row : List Byte) (now : Time) (fs : List Frame) :
    List Frame × List Output :=
  if 342 ≤ item.lid.toNat then (fs, [.event (.lineRange item.fid item.lid)])
  else
    match fs.find? (fun f => f.fid == item.fid) with
    | none => submitFirst c ((Frame.empty item.fid now).insert item row now) fs
    | some f =>
      if f.has item.lid.toNat then (fs, [.event (.lineDup item.fid item.lid)])
      else if f.nLines.toNat = 341 then
        (fs.filter (fun x => x.fid != item.fid), [(f.insert item row now).record c])
      else (fs.map (fun x => if x.fid = item.fid then x.insert item row now else x), [])

/-- LINE on the frames in flight (R130, R201). -/
def lineFrames (c : CfgWord) (item : LineItem) (now : Time) (fs : List Frame) : List Frame × List Output :=
  match decodeLine item with
  | .invalid reason => (fs, [.event (.lineInvalid item.fid item.lid reason)])
  | .row row => submitFrames c item row now fs

/-- SWEEP on the frames in flight (R170). -/
def sweepFrames (c : CfgWord) (now : Time) (fs : List Frame) : List Frame × List Output :=
  if cfgStallEn c then (fs.filter (fun f => !f.stale c now), (fs.filter (Frame.stale c now)).map (Frame.stallEvent now))
  else (fs, [])

/-! ## The state does what its frames do -/

theorem frameOf_congr {s t : State} {e : Slot} (h : ∀ a, physOf a = e.phys → t.mem.read a = s.mem.read a) :
    frameOf t e = frameOf s e := by
  have hrows : ∀ l, (frameOf t e).rows l = (frameOf s e).rows l := by
    intro l
    by_cases hhas : e.has l = true
    · exact (if_pos hhas).trans ((Memory.row_congr l (lt_of_has hhas) h).trans (if_pos hhas).symm)
    · exact (if_neg hhas).trans (if_neg hhas).symm
  rw [Frame.mk.injEq]
  exact ⟨rfl, rfl, rfl, rfl, rfl, rfl, funext hrows⟩

theorem framesOf_congr {s t : State} (hslots : t.slots = s.slots) (hmem : t.mem = s.mem) :
    framesOf t = framesOf s := by
  rw [framesOf, hslots]
  exact List.map_congr_left fun e _ => frameOf_congr fun a _ => by rw [hmem]

theorem frameOf_inserted_self {s : State} {e : Slot} {item : LineItem} {row : List Byte}
    (hlid : item.lid.toNat < 342) (hrow : row.length = 64) (now : Time) :
    frameOf (inserted item row now e s) (e.insert item now) = (frameOf s e).insert item row now := by
  have hrows : ∀ l, (frameOf (inserted item row now e s) (e.insert item now)).rows l =
      ((frameOf s e).insert item row now).rows l := by
    intro l
    show (if (e.insert item now).has l then Memory.row (s.mem.writeBytes _ row) e.phys l else none) =
      Function.update (frameOf s e).rows item.lid.toNat (some row) l
    rw [insert_has e item now hlid]
    by_cases hl : l = item.lid.toNat
    · subst hl
      rw [decide_eq_true rfl, Bool.true_or, if_pos rfl, Memory.row_writeBytes_same _ _ _ _ hrow,
        Function.update_self]
    · rw [decide_eq_false hl, Bool.false_or, Function.update_of_ne hl]
      by_cases hhas : e.has l = true
      · rw [if_pos hhas, Memory.row_writeBytes_other _ _ _ _ _ _ hrow hlid (lt_of_has hhas) fun hp => hl hp.2]
        exact (if_pos hhas).symm
      · rw [if_neg hhas]
        exact (if_neg hhas).symm
  rw [Frame.mk.injEq]
  exact ⟨rfl, rfl, rfl, rfl, rfl, rfl, funext hrows⟩

/-- A line inserted in a slot is a line inserted in its frame (R165). -/
theorem framesOf_inserted {s : State} {e : Slot} {item : LineItem} {row : List Byte} (h : StoreInv s)
    (he : e ∈ s.slots) (hlid : item.lid.toNat < 342) (hrow : row.length = 64) (now : Time) :
    framesOf (inserted item row now e s) =
      (framesOf s).map (fun f => if f.fid = e.fid then f.insert item row now else f) := by
  show (replaceSlot (e.insert item now) s.slots).map _ = _
  rw [framesOf, replaceSlot, List.map_map, List.map_map]
  refine List.map_congr_left fun x hx => ?_
  simp only [Function.comp_apply, insert_fid, beq_iff_eq]
  by_cases hfid : x.fid = e.fid
  · obtain rfl := eq_of_fid_eq h.fids hx he hfid
    rw [if_pos rfl, frameOf_inserted_self hlid hrow]
    exact (if_pos rfl).symm
  · rw [if_neg hfid]
    refine (frameOf_congr fun a ha => ?_).trans (if_neg hfid).symm
    refine Memory.read_writeRow_outside _ _ _ _ _ hrow fun hin => hfid ?_
    rw [inRow_iff _ _ _ hlid, ha] at hin
    rw [eq_of_phys_eq h.physes hx he hin.1]

/-- Removing slots removes their frames and leaves the others. -/
theorem framesOf_dropSlots {s : State} (h : StoreInv s) (dead : Slot → Bool) (deadFrame : Frame → Bool)
    (hdead : ∀ e, deadFrame (frameOf s e) = dead e) :
    framesOf (dropSlots dead s) = (framesOf s).filter (fun f => !deadFrame f) := by
  have hfilter : (framesOf s).filter (fun f => !deadFrame f) =
      (s.slots.filter (fun e => !dead e)).map (frameOf s) := by
    rw [framesOf, List.filter_map]
    simp only [Function.comp_def, hdead]
  rw [hfilter]
  refine List.map_congr_left fun e he => frameOf_congr fun a ha => ?_
  obtain ⟨he, hkept⟩ := mem_dropSlots_slots.1 he
  exact read_dropSlots_kept h he hkept ha

theorem framesOf_dropFrame {s : State} (h : StoreInv s) (fid : FrameId) :
    framesOf (dropSlots (ofFrame fid) s) = (framesOf s).filter (fun f => f.fid != fid) :=
  framesOf_dropSlots h _ (fun f => f.fid == fid) fun _ => rfl

/-- A removed victim is the first of the frames (R164). -/
theorem framesOf_evicted {s : State} {victim : Slot} {rest : List Slot} (h : StoreInv s)
    (hs : s.slots = victim :: rest) :
    framesOf (evicted s victim rest) = (framesOf s).tail ∧
      (framesOf s).head?.toList.map Frame.windowEvent =
        [.event (.evictWindow victim.fid (victim.nLines.setWidth 16))] := by
  have hframes : framesOf s = frameOf s victim :: rest.map (frameOf s) := by rw [framesOf, hs, List.map_cons]
  refine ⟨?_, by rw [hframes]; rfl⟩
  have hdrop : framesOf (evicted s victim rest) = framesOf (dropSlots (ofFrame victim.fid) s) := by
    rw [evicted_eq h hs]
    exact framesOf_congr rfl rfl
  have hfids := h.fids
  rw [hs, List.map_cons, List.nodup_cons] at hfids
  rw [hdrop, framesOf_dropFrame h, hframes, List.filter_cons_of_neg (by simp [frameOf]), List.tail_cons,
    List.filter_eq_self]
  intro f hf
  obtain ⟨e, he, rfl⟩ := List.mem_map.1 hf
  have hne : e.fid ≠ victim.fid := fun hfid => hfids.1 (hfid ▸ List.mem_map_of_mem he)
  simpa [frameOf] using hne

/-- The first line of a frame, in a slot allocated for it (R163, R164). -/
theorem framesOf_allocated {s : State} {item : LineItem} {row : List Byte} (h : StoreInv s)
    (hlid : item.lid.toNat < 342) (hrow : row.length = 64) (hnone : s.findSlot item.fid = none) (now : Time) :
    framesOf (inserted item row now (s.alloc item.fid now).1 (s.alloc item.fid now).2) =
      framesOf s.evictOldest ++ [(Frame.empty item.fid now).insert item row now] := by
  have hnew : frameOf (s.alloc item.fid now).2 (newSlot item.fid now s.evictOldest.choosePhys) =
      Frame.empty item.fid now := by
    rw [Frame.mk.injEq]
    exact ⟨rfl, rfl, rfl, rfl, rfl, rfl, funext fun l => if_neg (by rw [newSlot_has]; exact Bool.false_ne_true)⟩
  have hold : s.evictOldest.slots.map (frameOf (s.alloc item.fid now).2) = framesOf s.evictOldest :=
    List.map_congr_left fun e _ => frameOf_congr fun _ _ => rfl
  have hkept : (framesOf s.evictOldest).map
      (fun f => if f.fid = item.fid then f.insert item row now else f) = framesOf s.evictOldest := by
    refine (List.map_congr_left fun f hf => ?_).trans (List.map_id _)
    obtain ⟨e, he, rfl⟩ := List.mem_map.1 hf
    exact if_neg ((findSlot_eq_none_iff s item.fid).1 hnone e (evictOldest_slots_subset h he))
  rw [framesOf_inserted (h.alloc item.fid now hnone) (by simp) hlid hrow, framesOf, alloc_slots, List.map_append,
    List.map_append, hold, List.map_singleton, hnew, alloc_fst, newSlot_fid, hkept, List.map_singleton]
  exact congrArg (fun f => _ ++ [f]) (if_pos rfl)

/-- What a list holds beside a key does not change with the elements of that key. -/
theorem filter_ne_map_ite {α β : Type} [DecidableEq β] (key : α → β) (c : β) (g : α → α)
    (hg : ∀ x, key x = c → key (g x) = c) (xs : List α) :
    (xs.map (fun x => if key x = c then g x else x)).filter (fun x => key x != c) =
      xs.filter (fun x => key x != c) := by
  induction xs with
  | nil => rfl
  | cons x xs ih =>
    rw [List.map_cons]
    by_cases hx : key x = c
    · rw [if_pos hx, List.filter_cons_of_neg (by simpa using hg x hx), List.filter_cons_of_neg (by simpa using hx), ih]
    · rw [if_neg hx, List.filter_cons_of_pos (by simpa using hx), List.filter_cons_of_pos (by simpa using hx), ih]

/-- A frame that leaves is gone; the others are as they were before its last line (R167). -/
theorem framesOf_frameLeft {s : State} {e : Slot} {item : LineItem} {row : List Byte} (h : StoreInv s)
    (he : e ∈ s.slots) (hlid : item.lid.toNat < 342) (hrow : row.length = 64) (now : Time) :
    framesOf (frameLeft (e.insert item now) (inserted item row now e s)) =
      (framesOf s).filter (fun f => f.fid != e.fid) := by
  have hins := h.inserted he hlid hrow now
  have hdrop : framesOf (frameLeft (e.insert item now) (inserted item row now e s)) =
      framesOf (dropSlots (ofFrame e.fid) (inserted item row now e s)) := by
    rw [frameLeft, emitted_eq hins (mem_replaceSlot_self he rfl)]
    exact framesOf_congr rfl rfl
  rw [hdrop, framesOf_dropFrame hins, framesOf_inserted h he hlid hrow]
  exact filter_ne_map_ite Frame.fid e.fid (fun f => f.insert item row now) (fun _ hfid => hfid) _

/-- The record of a complete frame holds its stored rows (R167). -/
theorem record_frameOf {s : State} {e : Slot} (hfull : ∀ l < 342, e.has l = true) :
    (frameOf s e).record s.cfg = .frame e.fid (frameRows s e.phys) e.byteCount (e.rleLineCount.setWidth 16) := by
  have hrows : (List.range 342).flatMap (fun l => rowOut s.cfg (((frameOf s e).rows l).getD [])) =
      frameRows s e.phys := by
    refine List.flatMap_congr fun l hl => ?_
    rw [storedRow_eq, show (frameOf s e).rows l = s.mem.row e.phys l from if_pos (hfull l (List.mem_range.1 hl))]
  rw [Frame.record, hrows]
  rfl

/-- LINE on a sound state is LINE on its frames. -/
theorem LineEffect.frames {s t : State} {item : LineItem} {now : Time} (h : AssemblerInv s)
    (heff : LineEffect item now s t) :
    framesOf t = (lineFrames s.cfg item now (framesOf s)).1 ∧
      t.out = s.out ++ (lineFrames s.cfg item now (framesOf s)).2 := by
  have hfind := find_framesOf s item.fid
  cases heff with
  | invalid reason hdec => simp only [lineFrames, hdec]; exact ⟨framesOf_congr rfl rfl, rfl⟩
  | outOfRange row hdec hlid =>
    simp only [lineFrames, hdec, submitFrames, hlid, if_true]
    exact ⟨framesOf_congr rfl rfl, rfl⟩
  | duplicate row e hdec hlid hslot hhas =>
    rw [hslot, Option.map_some] at hfind
    have hhas' : (frameOf s e).has item.lid.toNat = true := hhas
    simp only [lineFrames, hdec, submitFrames, Nat.not_le.2 hlid, if_false, hfind, hhas', if_true]
    exact ⟨framesOf_congr rfl rfl, rfl⟩
  | stored row e hdec hlid hslot hhas hn =>
    rw [hslot, Option.map_some] at hfind
    have hhas' : (frameOf s e).has item.lid.toNat = false := hhas
    have hn' : (frameOf s e).nLines.toNat ≠ 341 := hn
    simp only [lineFrames, hdec, submitFrames, Nat.not_le.2 hlid, if_false, hfind, hhas', hn', Bool.false_eq_true]
    rw [framesOf_inserted h.store (mem_of_findSlot hslot) hlid (decodeLine_row item row hdec).1,
      fid_of_findSlot hslot]
    exact ⟨rfl, (List.append_nil _).symm⟩
  | completed row e hdec hlid hslot hhas hn =>
    have he := mem_of_findSlot hslot
    have hfid := fid_of_findSlot hslot
    have hrow := (decodeLine_row item row hdec).1
    rw [hslot, Option.map_some] at hfind
    have hhas' : (frameOf s e).has item.lid.toNat = false := hhas
    have hn' : (frameOf s e).nLines.toNat = 341 := hn
    simp only [lineFrames, hdec, submitFrames, Nat.not_le.2 hlid, if_false, hfind, hhas', hn', if_true,
      Bool.false_eq_true]
    have hrecord := record_frameOf (s := inserted item row now e s)
      (insert_full (h.slots e he).counts hdec hlid hhas hn now)
    rw [frameOf_inserted_self hlid hrow] at hrecord
    refine ⟨?_, congrArg (fun o => s.out ++ [o]) hrecord.symm⟩
    rw [framesOf_frameLeft h.store he hlid hrow, hfid]
  | allocated row hdec hlid hnone =>
    have hrow := (decodeLine_row item row hdec).1
    rw [hnone, Option.map_none] at hfind
    simp only [lineFrames, hdec, submitFrames, Nat.not_le.2 hlid, if_false, hfind, submitFirst]
    have hlen : (framesOf s).length = s.slots.length := List.length_map _
    rw [framesOf_allocated h.store hlid hrow hnone, hlen]
    show _ ∧ s.evictOldest.out = _
    rcases evictOldest_of_inv h.store with ⟨hroom, he⟩ | ⟨victim, rest, hfull, hs, he⟩ <;> rw [he]
    · rw [if_pos hroom]
      exact ⟨rfl, (List.append_nil _).symm⟩
    · obtain ⟨htail, hevent⟩ := framesOf_evicted h.store hs
      rw [if_neg (Nat.not_lt.2 hfull.ge), htail, hevent]
      exact ⟨rfl, rfl⟩

theorem lineStep_frames {s : State} (h : AssemblerInv s) (item : LineItem) (now : Time) :
    ∃ t, lineStep item now s = .next t ∧ AssemblerInv t ∧
      framesOf t = (lineFrames s.cfg item now (framesOf s)).1 ∧
      t.out = s.out ++ (lineFrames s.cfg item now (framesOf s)).2 := by
  obtain ⟨t, ht, heff⟩ := lineStep_completes h item now
  exact ⟨t, ht, heff.keepsInv h, heff.frames h⟩

/-- SWEEP on a sound state is SWEEP on its frames. -/
theorem sweep_frames {s : State} (h : AssemblerInv s) (now : Time) :
    framesOf (sweep now s) = (sweepFrames s.cfg now (framesOf s)).1 ∧
      (sweep now s).out = s.out ++ (sweepFrames s.cfg now (framesOf s)).2 := by
  cases hen : cfgStallEn s.cfg with
  | false =>
    rw [sweep_off now s hen, sweepFrames, hen]
    exact ⟨rfl, (List.append_nil _).symm⟩
  | true =>
    have hevents : ((framesOf s).filter (Frame.stale s.cfg now)).map (Frame.stallEvent now) =
        (s.slots.filter (Slot.stale s.cfg now)).map (stallEvent now) := by
      rw [framesOf, List.filter_map, List.map_map]
      rfl
    rw [sweep_eq now s hen, sweepFrames, hen, if_pos rfl, hevents]
    refine ⟨?_, rfl⟩
    rw [← framesOf_dropSlots h.store (Slot.stale s.cfg now) (Frame.stale s.cfg now) fun _ => rfl]
    exact framesOf_congr rfl rfl

/-! ## Physical places are invisible -/

/-- Two sound states with the same view: they differ at most in physical places and free values. -/
structure Twins (s t : State) : Prop where
  left : AssemblerInv s
  right : AssemblerInv t
  frame : SameFrame s t
  fbuf : t.fbuf = s.fbuf
  out : t.out = s.out
  frames : framesOf t = framesOf s

theorem Twins.sameView {s t : State} (h : Twins s t) : SameView s t :=
  ⟨h.frame, h.fbuf, h.out, (framesOf_eq_iff s t).1 h.frames⟩

theorem twins_of_sameView {s t : State} (hs : AssemblerInv s) (ht : AssemblerInv t) (h : SameView s t) : Twins s t :=
  ⟨hs, ht, h.frame, h.fbuf, h.out, (framesOf_eq_iff s t).2 h.slots⟩

/-- Two results that are next states with the same view. -/
def TwinResults (r r' : Result) : Prop := ∃ s t, r = .next s ∧ r' = .next t ∧ Twins s t

theorem Twins.next {s t : State} (h : Twins s t) : TwinResults (.next s) (.next t) := ⟨s, t, rfl, rfl, h⟩

theorem TwinResults.andThen {r r' : Result} {f : State → Result} (h : TwinResults r r')
    (hf : ∀ s t, Twins s t → TwinResults (f s) (f t)) : TwinResults (andThen r f) (andThen r' f) := by
  obtain ⟨s, t, rfl, rfl, hst⟩ := h
  exact hf s t hst

section
variable {s t : State} (h : Twins s t)
include h

theorem Twins.setFbuf (b : List Byte) : Twins { s with fbuf := b } { t with fbuf := b } := by
  obtain ⟨hcfg, hstage, hlatch, hoffers, hparams⟩ := h.frame
  exact ⟨h.left.setFbuf b, h.right.setFbuf b, ⟨hcfg, hstage, hlatch, hoffers, hparams⟩, rfl, h.out, h.frames⟩

theorem Twins.setStage (st : Staging) : Twins { s with stage := st } { t with stage := st } := by
  obtain ⟨hcfg, _, hlatch, hoffers, hparams⟩ := h.frame
  exact ⟨h.left.congr rfl rfl rfl, h.right.congr rfl rfl rfl, ⟨hcfg, rfl, hlatch, hoffers, hparams⟩, h.fbuf, h.out,
    h.frames⟩

theorem Twins.beginTxn : Twins s.beginTxn t.beginTxn := by
  obtain ⟨hcfg, _, _, hoffers, hparams⟩ := h.frame
  exact ⟨h.left.beginTxn, h.right.beginTxn, ⟨hcfg, rfl, rfl, hoffers, hparams⟩, h.fbuf, h.out, h.frames⟩

theorem Twins.raise (ev : Event) : Twins (s.raise ev) (t.raise ev) := by
  obtain ⟨hcfg, hstage, hlatch, hoffers, hparams⟩ := h.frame
  exact ⟨h.left.raise ev, h.right.raise ev, ⟨hcfg, hstage, hlatch, hoffers, hparams⟩, h.fbuf,
    congrArg (· ++ [Output.event ev]) h.out, h.frames⟩

/-- Steps of the assembler that do the same to the frames keep the same view. -/
theorem Twins.step {s' t' : State} (hs : AssemblerInv s') (ht : AssemblerInv t') (hfs : SameFrame s s')
    (hft : SameFrame t t') (hbs : s'.fbuf = s.fbuf) (hbt : t'.fbuf = t.fbuf) (hframes : framesOf t' = framesOf s')
    {new : List Output} (hos : s'.out = s.out ++ new) (hot : t'.out = t.out ++ new) : Twins s' t' := by
  obtain ⟨hcfg, hstage, hlatch, hoffers, hparams⟩ := h.frame.trans hft
  refine ⟨hs, ht, ⟨?_, ?_, ?_, ?_, ?_⟩, ?_, ?_, hframes⟩
  · rw [hcfg, hfs.cfg]
  · rw [hstage, hfs.stage]
  · rw [hlatch, hfs.latch]
  · rw [hoffers, hfs.offers]
  · rw [hparams, hfs.params]
  · rw [hbt, h.fbuf, hbs]
  · rw [hot, hos, h.out]

theorem Twins.lineStep (item : LineItem) (now : Time) : TwinResults (lineStep item now s) (lineStep item now t) := by
  obtain ⟨s', hs', hsinv, hsframes, hsout⟩ := lineStep_frames h.left item now
  obtain ⟨t', ht', htinv, htframes, htout⟩ := lineStep_frames h.right item now
  rw [h.frame.cfg, h.frames] at htframes htout
  obtain ⟨hfs, hbs⟩ := lineStep_sameFrame item now s s' hs'
  obtain ⟨hft, hbt⟩ := lineStep_sameFrame item now t t' ht'
  exact ⟨s', t', hs', ht', h.step hsinv htinv hfs hft hbs hbt (htframes.trans hsframes.symm) hsout htout⟩

theorem Twins.sweep (now : Time) : Twins (sweep now s) (sweep now t) := by
  obtain ⟨hsframes, hsout⟩ := sweep_frames h.left now
  obtain ⟨htframes, htout⟩ := sweep_frames h.right now
  rw [h.frame.cfg, h.frames] at htframes htout
  obtain ⟨hfs, hbs⟩ := sweep_sameFrame now s
  obtain ⟨hft, hbt⟩ := sweep_sameFrame now t
  exact h.step (h.left.sweep now) (h.right.sweep now) hfs hft hbs hbt (htframes.trans hsframes.symm) hsout htout

theorem Twins.takePacket (item : LineItem) (now : Time) :
    TwinResults (takePacket item now s) (takePacket item now t) := by
  rw [Machine.takePacket, Machine.takePacket, h.fbuf]
  exact (h.setFbuf _).lineStep item now

theorem Twins.applyExtract (now : Time) (x : ExtractResult) :
    TwinResults (applyExtract now x s) (applyExtract now x t) := by
  cases x with
  | needMore => exact h.next
  | retry len => exact (h.raise _).next
  | packet item => exact h.lineStep item now

theorem Twins.dropStaged (reason : InvalidReason) : Twins (dropStaged reason s) (dropStaged reason t) := by
  rw [Machine.dropStaged, Machine.dropStaged, h.frame.stage]
  exact (h.setStage _).raise _

theorem Twins.stagePair (count value : Byte) : Twins (stagePair count value s) (stagePair count value t) := by
  rw [Machine.stagePair, Machine.stagePair, h.frame.stage]
  split
  · exact h.setStage _
  · exact h.dropStaged _

end

theorem Twins.applyExtracts {s t : State} (h : Twins s t) (now : Time) (xs : List ExtractResult) :
    TwinResults (applyExtracts now xs s) (applyExtracts now xs t) := by
  induction xs generalizing s t with
  | nil => exact h.next
  | cons x xs ih => exact (h.applyExtract now x).andThen fun _ _ hst => ih hst

theorem Twins.byteBody {s t : State} (h : Twins s t) (b : Byte) (now : Time) :
    TwinResults (byteBody b now s) (byteBody b now t) := by
  rw [byteBody_eq, byteBody_eq, h.fbuf]
  exact (h.setFbuf _).applyExtracts now _

theorem Twins.dgramBody {s t : State} (h : Twins s t) (d : List Byte) (now : Time) :
    TwinResults (dgramBody d now s) (dgramBody d now t) := by
  rw [Machine.dgramBody, Machine.dgramBody, h.frame.params]
  split
  · exact (h.raise _).next
  · exact h.lineStep _ now

theorem Twins.withSweep {s t : State} (h : Twins s t) (now : Time) (body : State → Result)
    (hbody : ∀ u v, Twins u v → TwinResults (body u) (body v)) :
    TwinResults (withSweep now s body) (withSweep now t body) := by
  rw [Machine.withSweep, Machine.withSweep, h.frame.params]
  split
  · exact (hbody _ _ h.beginTxn).andThen fun _ _ hst => (hst.sweep now).next
  · exact hbody _ _ (h.beginTxn.sweep now)

/-- Every enabled instruction does the same to two states with the same view. -/
theorem Twins.exec {s t : State} (h : Twins s t) {i : Instr} (hen : Enabled i s) :
    TwinResults (exec i s) (exec i t) := by
  cases i with
  | bsRaw fid lid p now => exact h.takePacket _ now
  | bsRle fid lid p now => exact h.takePacket _ now
  | bsCorrupt fid lid len =>
    have hdrop := (h.setFbuf (s.fbuf.drop 2)).raise (.hdrCorrupt len)
    rw [exec_bsCorrupt, exec_bsCorrupt, h.fbuf]
    exact hdrop.next
  | udpRle8 fid lid p now => exact h.lineStep _ now
  | udpReject d cause => exact (h.raise _).next
  | rlePair count value => exact (h.stagePair count value).next
  | rlePairZero value => exact (h.dropStaged _).next
  | byte b now =>
    have hmode : cfgMode s.cfg = .byteStream := hen
    rw [exec_byte b now s hmode, exec_byte b now t (by rw [h.frame.cfg, hmode])]
    exact h.withSweep now _ fun _ _ hst => hst.byteBody b now
  | dgram d now =>
    have hmode : cfgMode s.cfg = .datagram := hen
    rw [exec_dgram d now s hmode, exec_dgram d now t (by rw [h.frame.cfg, hmode])]
    exact h.withSweep now _ fun _ _ hst => hst.dgramBody d now
  | tick now => exact (h.beginTxn.sweep now).next
  | reset c =>
    have hwf : cfgWellFormed c = true := hen
    rw [(resetValues c s hwf).1, (resetValues c t hwf).1]
    exact Twins.next ⟨.of_empty hwf rfl rfl, .of_empty hwf rfl rfl,
      ⟨rfl, rfl, rfl, h.frame.offers, h.frame.params⟩, rfl, h.out, rfl⟩

/-- Settles O60: LINE and SWEEP are functions of the frames, which have no physical place. -/
theorem physicalSlotsAreInvisible : Obligations.PhysicalSlotsAreInvisible := by
  intro i s t s' hs ht hview hexec
  obtain ⟨u, t', hu, ht', htwins⟩ := (twins_of_sameView hs ht hview).exec (enabled_of_exec hexec)
  rw [hexec] at hu
  cases hu
  exact ⟨t', ht', htwins.sameView⟩

end Sys2Proof.Machine
end

