-- ==== Sys2Proof/Proofs/Pairs.lean ====
section
/-! RLE8 payloads as lists of pairs (41_codec.md R132 to R138): which are rows, why others are none, and the pair
instructions on the staging row. -/

namespace Sys2Proof.Machine

/-! ## Payloads as pairs -/

/-- A payload of even length is the bytes of a list of pairs (R76). -/
theorem exists_pairs (p : List Byte) (h : p.length % 2 = 0) : ∃ ps, p = pairBytes ps := by
  match p, h with
  | [], _ => exact ⟨[], rfl⟩
  | count :: value :: rest, h =>
    obtain ⟨ps, hps⟩ := exists_pairs rest (by simp only [List.length_cons] at h; omega)
    exact ⟨(count, value) :: ps, by rw [pairBytes_cons, ← hps]⟩

theorem pairExpansion_length (ps : List (Byte × Byte)) :
    (pairExpansion ps).length = (ps.map (fun q => q.1.toNat)).sum := by
  induction ps with
  | nil => rfl
  | cons q ps ih => simp [ih]

theorem pairBytes_append (ps qs : List (Byte × Byte)) : pairBytes (ps ++ qs) = pairBytes ps ++ pairBytes qs :=
  List.flatMap_append

theorem toNat_pos_iff (count : Byte) : 1 ≤ count.toNat ↔ count ≠ 0 := by
  rw [ne_eq, ← BitVec.toNat_inj]
  exact Nat.one_le_iff_ne_zero

/-- Pairs that decode to a row, from what is staged: each has a count of at least 1, and their expansion completes
the row (R137). -/
theorem pairs_of_decodePairs (ps : List (Byte × Byte)) (stage row : List Byte)
    (h : decodePairs (pairBytes ps) stage = .row row) :
    (∀ q ∈ ps, 1 ≤ q.1.toNat) ∧ row = stage ++ pairExpansion ps := by
  induction ps generalizing stage with
  | nil =>
    rw [pairBytes_nil, decodePairs] at h
    split at h <;> cases h
    simp
  | cons q ps ih =>
    rw [pairBytes_cons, decodePairs] at h
    rcases codecPair_cases stage q.1 q.2 with ⟨_, he⟩ | ⟨_, _, he⟩ | ⟨hne, _, he⟩ <;> rw [he] at h
    · cases h
    · cases h
    · obtain ⟨hcounts, hrow⟩ := ih _ h
      refine ⟨List.forall_mem_cons.2 ⟨(toNat_pos_iff q.1).2 hne, hcounts⟩, ?_⟩
      rw [hrow, pairExpansion_cons, List.append_assoc]

/-- The payload of a list of pairs decodes to a row exactly when the counts are at least 1 and the expansion has 64
bytes (R137). -/
theorem decodeRle_pairBytes_iff (ps : List (Byte × Byte)) (row : List Byte) :
    decodeRle (pairBytes ps) = .row row ↔
      (∀ q ∈ ps, 1 ≤ q.1.toNat) ∧ (pairExpansion ps).length = 64 ∧ row = pairExpansion ps := by
  constructor
  · intro h
    rw [decodeRle_pairBytes] at h
    obtain ⟨hcounts, hrow⟩ := pairs_of_decodePairs ps [] row h
    rw [List.nil_append] at hrow
    exact ⟨hcounts, hrow ▸ (decodePairs_row _ [] row (by simp) h).1, hrow⟩
  · rintro ⟨hcounts, hfill, rfl⟩
    exact decodeRle_of_fills ps hcounts hfill

/-- Settles O12: a payload that decodes has an even length, so it is a list of pairs. -/
theorem rleRowIffPairsFill : Obligations.RleRowIffPairsFill := by
  intro p row
  constructor
  · intro h
    have heven : p.length % 2 = 0 := by
      by_contra hodd
      rw [decodeRle, if_pos (by omega)] at h
      cases h
    obtain ⟨ps, rfl⟩ := exists_pairs p heven
    obtain ⟨hcounts, hfill, hrow⟩ := (decodeRle_pairBytes_iff ps row).1 h
    exact ⟨ps, rfl, hcounts, (pairExpansion_length ps).symm.trans hfill, hrow⟩
  · rintro ⟨ps, rfl, hcounts, hsum, rfl⟩
    exact decodeRle_of_fills ps hcounts ((pairExpansion_length ps).trans hsum)

/-! ## The reason of an invalid payload -/

theorem codecPair_zero (stage : List Byte) (value : Byte) : codecPair stage 0 value = .error .rleZero := rfl

theorem codecPair_over (stage : List Byte) (count value : Byte) (h1 : 1 ≤ count.toNat)
    (hover : 64 < stage.length + count.toNat) : codecPair stage count value = .error .rleOver := by
  rw [codecPair, if_neg ((toNat_pos_iff count).1 h1), Config.rowBytes_val, if_pos hover]

/-- After pairs that fit, the answer is that of the pairs that follow, from the row staged so far (R132). -/
theorem decodeRle_append_of_fits (ps rest : List (Byte × Byte)) (hcounts : ∀ q ∈ ps, 1 ≤ q.1.toNat)
    (hfit : (pairExpansion ps).length ≤ 64) :
    decodeRle (pairBytes (ps ++ rest)) = decodePairs (pairBytes rest) (pairExpansion ps) := by
  rw [decodeRle_pairBytes, pairBytes_append, decodePairs_append_of_fits ps _ [] hcounts (by simpa using hfit),
    List.nil_append]

/-- Settles O13: the pairs before the failing one fit, and it is the first to fail. -/
theorem rleReasonIsFirstFailure : Obligations.RleReasonIsFirstFailure := by
  refine ⟨fun p hodd => if_pos hodd, fun ps hcounts hfit => ⟨fun v rest => ?_, fun c v rest h1 hover => ?_,
    fun hshort => ?_⟩⟩
  · rw [decodeRle_append_of_fits ps _ hcounts hfit, pairBytes_cons, decodePairs, codecPair_zero]
  · rw [decodeRle_append_of_fits ps _ hcounts hfit, pairBytes_cons, decodePairs, codecPair_over _ c v h1 hover]
  · have hend := decodeRle_append_of_fits ps [] hcounts hfit
    rw [List.append_nil] at hend
    rw [hend, pairBytes_nil, decodePairs, Config.rowBytes_val, if_neg (by omega)]

/-! ## The pair instructions -/

/-- Settles O18: the pair fits beside the staging row. -/
theorem pairAppendsItsRun : Obligations.PairAppendsItsRun := by
  intro count value s h1 hfit
  rw [exec, execRlePair, stagePair, codecPair_of_fits s.stage.row count value h1 hfit]

/-- Settles O19: the pair that overflows fails in `codecPair`, and RLE_PAIR_ZERO drops the line as it stands. -/
theorem badPairDropsTheLine : Obligations.BadPairDropsTheLine := by
  intro s
  refine ⟨fun count value h1 hover => ?_, fun value => rfl⟩
  rw [exec, execRlePair, stagePair, codecPair_over s.stage.row count value h1 hover]
  rfl

/-- Pairs that fit beside the staging row append their expansion, one instruction at a time (R132, R138). -/
theorem execAll_pairs (ps : List (Byte × Byte)) (s : State) (hcounts : ∀ q ∈ ps, 1 ≤ q.1.toNat)
    (hfit : s.stage.row.length + (pairExpansion ps).length ≤ 64) :
    execAll (ps.map pairInstr) s =
      .next { s with stage := { s.stage with row := s.stage.row ++ pairExpansion ps } } := by
  induction ps generalizing s with
  | nil =>
    simp only [List.map_nil, pairExpansion_nil, List.append_nil]
    rfl
  | cons q ps ih =>
    obtain ⟨hq, hps⟩ := List.forall_mem_cons.1 hcounts
    rw [pairExpansion_cons, List.length_append, List.length_replicate] at hfit
    have hinstr : pairInstr q = .rlePair q.1 q.2 := if_neg ((toNat_pos_iff q.1).1 hq)
    rw [List.map_cons, execAll, hinstr, pairAppendsItsRun q.1 q.2 s hq (by omega), andThen_next,
      ih _ hps (by simp only [List.length_append, List.length_replicate]; omega), pairExpansion_cons,
      List.append_assoc]

/-- Settles O17: the pairs of a payload that decodes fit, and their expansion is the row. -/
theorem pairByPairDecoding : Obligations.PairByPairDecoding := by
  intro ps row s hempty hdec
  obtain ⟨hcounts, hfill, hrow⟩ := (decodeRle_pairBytes_iff ps row).1 hdec
  rw [execAll_pairs ps s hcounts (by rw [hempty, hfill]; exact Nat.le_refl _), hempty, List.nil_append, hrow]

end Sys2Proof.Machine
end

