-- ==== Sys2Proof/Proofs/LineEffects.lean ====
section
/-! The line instructions, the sweep and the datagram path on slots and bytes (42_assembler.md R161 to R170): what
each changes and what it leaves. -/

namespace Sys2Proof.Machine

/-! ## A line instruction is LINE on the state with its bytes taken -/

/-- The state as a line instruction hands it to LINE (R107). -/
def bytesTaken (i : Instr) (s : State) : State := { s with fbuf := fbufAfter i s }

theorem exec_line {i : Instr} {item : LineItem} {now : Time} (hi : CarriesLine i item now) (s : State) :
    exec i s = lineStep item now (bytesTaken i s) := exec_of_carriesLine hi s

theorem bytesTaken_inv {s : State} (h : AssemblerInv s) (i : Instr) : AssemblerInv (bytesTaken i s) := h.setFbuf _

/-- Settles O20: the codec's answer ends the line. -/
theorem invalidLineIsDropped : Obligations.InvalidLineIsDropped := by
  intro i item now reason s hi hdec
  rw [exec_line hi, lineStep, hdec]
  rfl

/-! ## A line inserted in a slot -/

/-- The line `item` with row `row` is in the slot `e'`, which was `e`, and nothing else of the slots, the line
buffer and the outputs has changed (R165). -/
structure LineInserted (item : LineItem) (row : List Byte) (now : Time) (e e' : Slot) (s t : State) : Prop where
  phys : e'.phys = e.phys
  fid : e'.fid = e.fid
  has : ∀ l < 342, e'.has l = (decide (l = item.lid.toNat) || e.has l)
  nLines : e'.nLines.toNat = e.nLines.toNat + 1
  byteCount : e'.byteCount.toNat = e.byteCount.toNat + item.n
  rleLineCount : e'.rleLineCount.toNat = e.rleLineCount.toNat + item.rle.toNat
  tLast : e'.tLast = now
  row : t.mem.readBytes (lbAddr e.phys item.lid.toNat 0) 64 = some row
  others : ∀ a, ¬inRow e.phys item.lid.toNat a → t.mem.read a = s.mem.read a
  out : t.out = s.out
  physHints : t.physHints = s.physHints

theorem inserted_lineInserted {item : LineItem} {row : List Byte} {e : Slot} (s : State) (he : SlotCounts e)
    (hn : e.nLines.toNat < 342) (hdec : decodeLine item = .row row) (hlid : item.lid.toNat < 342) (now : Time) :
    LineInserted item row now e (e.insert item now) s (inserted item row now e s) := by
  obtain ⟨hrow, _, h128⟩ := decodeLine_row item row hdec
  exact ⟨rfl, rfl, fun l _ => insert_has e item now hlid l, insert_nLines e item now hn,
    insert_byteCount e item now he hn h128, insert_rleLineCount e item now he hn, rfl,
    Memory.row_writeBytes_same _ _ _ _ hrow, fun a ha => Memory.read_writeRow_outside _ _ _ _ _ hrow ha, rfl, rfl⟩

/-- LINE inserts a new line of a frame in flight that it does not complete (R165). -/
theorem lineStep_stored {item : LineItem} {row : List Byte} {e : Slot} {s : State} (h : AssemblerInv s)
    (hdec : decodeLine item = .row row) (hlid : item.lid.toNat < 342) (hslot : s.findSlot item.fid = some e)
    (hhas : e.has item.lid.toNat = false) (hn : e.nLines.toNat ≠ 341) (now : Time) :
    lineStep item now s = .next (inserted item row now e s) ∧
      LineInserted item row now e (e.insert item now) s (inserted item row now e s) := by
  have he := mem_of_findSlot hslot
  have hlt : e.nLines.toNat < 342 := (h.slots e he).incomplete
  refine ⟨?_, inserted_lineInserted s (h.slots e he).counts hlt hdec hlid now⟩
  rw [lineStep_of_row hdec, submit_of_inFlight item row now e s hlid hslot]
  exact insertLine_of_incomplete h.store he hdec hlid hhas (by omega) now

theorem inserted_slots {item : LineItem} {row : List Byte} {now : Time} {e : Slot} {s : State}
    (hfid : e.fid = item.fid) : (inserted item row now e s).slots =
      s.slots.map (fun x => if x.fid = item.fid then e.insert item now else x) :=
  List.map_congr_left fun x _ => by simp only [insert_fid, hfid, beq_iff_eq]

/-- Settles O23: LINE inserts the line in the slot that it finds. -/
theorem newLineIsInserted : Obligations.NewLineIsInserted := by
  intro i item now row e s h hi hdec hlid hslot hhas hn
  have hinv := bytesTaken_inv h i
  have hslot' : (bytesTaken i s).findSlot item.fid = some e := hslot
  obtain ⟨hstep, hline⟩ := lineStep_stored hinv hdec hlid hslot' hhas hn now
  have hfind : (inserted item row now e (bytesTaken i s)).findSlot item.fid = some (e.insert item now) := by
    have hstore := hinv.store.inserted (mem_of_findSlot hslot') hlid (decodeLine_row item row hdec).1 now
    exact (findSlot_eq_some_iff hstore.fids _ _).2
      ⟨mem_replaceSlot_self (mem_of_findSlot hslot') rfl, (fid_of_findSlot hslot :)⟩
  obtain ⟨hframe, hfbuf⟩ := lineStep_sameFrame item now _ _ hstep
  exact ⟨_, _, (exec_line hi s).trans hstep, hfind, hline.phys, hline.fid, hline.has, hline.nLines, hline.byteCount,
    hline.rleLineCount, hline.tLast, inserted_slots (fid_of_findSlot hslot), hline.row, hline.others, hfbuf, hline.out,
    hline.physHints, hframe.cfg, hframe.stage, hframe.latch, hframe.offers, hframe.params⟩

/-- The sweep does not see the transient fields. -/
theorem sweep_beginTxn (now : Time) (s : State) : sweep now s.beginTxn = (sweep now s).beginTxn := by
  cases hen : cfgStallEn s.cfg with
  | false => rw [sweep_off now s hen, sweep_off now s.beginTxn hen]
  | true =>
    rw [sweep_on now s hen, sweep_on now s.beginTxn hen]
    rfl

/-- Settles O39: the swept state is sound, and LINE inserts the datagram's line in it. -/
theorem acceptedDatagramInserts : Obligations.AcceptedDatagramInserts := by
  intro d now item row e s h hmode hp hparse hdec hlid hslot hhas hn
  have hinv : AssemblerInv (sweep now s).beginTxn := (h.sweep now).beginTxn
  have hslot' : (sweep now s).beginTxn.findSlot item.fid = some e := hslot
  obtain ⟨hstep, hline⟩ := lineStep_stored hinv hdec hlid hslot' hhas hn now
  obtain ⟨hsweep, hsweepfbuf⟩ := sweep_sameFrame now s
  have hbody : dgramBody d now (sweep now s).beginTxn = lineStep item now (sweep now s).beginTxn := by
    rw [dgramBody, beginTxn_params, hsweep.params, hparse]
  have hexec : exec (.dgram d now) s = .next (inserted item row now e (sweep now s).beginTxn) := by
    rw [exec_dgram d now s hmode, withSweep_first now s _ hp, sweep_beginTxn, hbody, hstep]
  have hrle : e.rleLineCount.toNat + item.rle.toNat = e.rleLineCount.toNat + 1 := by
    rw [rle_of_parseDgram hparse]
    rfl
  exact ⟨_, _, hexec, inserted_slots (fid_of_findSlot hslot), hline.phys, hline.fid, hline.has, hline.nLines,
    hline.byteCount, hline.rleLineCount.trans hrle, hline.tLast, hline.row, hline.others, hline.out, hsweepfbuf,
    hsweep.cfg, rfl, rfl, hsweep.offers, hsweep.params, hline.physHints.trans (sweep_physHints now s)⟩

/-! ## The first line of a frame -/

/-- Replacing the newest slot of a list that has its frame_id once. -/
theorem replaceSlot_append (e x : Slot) (slots : List Slot) (hx : x.fid = e.fid)
    (hother : ∀ y ∈ slots, y.fid ≠ e.fid) : replaceSlot e (slots ++ [x]) = slots ++ [e] := by
  have hsame : slots.map (fun y => if y.fid == e.fid then e else y) = slots :=
    (List.map_congr_left fun y hy => if_neg (by simpa using hother y hy)).trans (List.map_id _)
  rw [replaceSlot, List.map_append, hsame, List.map_singleton, if_pos (beq_iff_eq.2 hx)]

/-- LINE inserts the first line of a frame in the slot it allocates, newest of all (R163, R164). -/
theorem lineStep_first {item : LineItem} {row : List Byte} {s : State} (h : AssemblerInv s)
    (hdec : decodeLine item = .row row) (hlid : item.lid.toNat < 342) (hnone : s.findSlot item.fid = none)
    (now : Time) : ∃ t e', lineStep item now s = .next t ∧ t.slots = s.evictOldest.slots ++ [e'] ∧
      LineInserted item row now (newSlot item.fid now s.evictOldest.choosePhys) e' (s.alloc item.fid now).2 t := by
  have hother : ∀ y ∈ s.evictOldest.slots, y.fid ≠ item.fid := fun y hy =>
    (findSlot_eq_none_iff s item.fid).1 hnone y (evictOldest_slots_subset h.store hy)
  have hnew : (s.alloc item.fid now).1 ∈ (s.alloc item.fid now).2.slots := by simp
  have hline := inserted_lineInserted (s.alloc item.fid now).2 (newSlot_counts item.fid now _)
    ((newSlot_incomplete item.fid now s.evictOldest.choosePhys).trans (by decide)) hdec hlid now
  have hslots := replaceSlot_append ((newSlot item.fid now s.evictOldest.choosePhys).insert item now)
    (newSlot item.fid now s.evictOldest.choosePhys) _ rfl hother
  refine ⟨_, _, ?_, hslots, hline⟩
  rw [lineStep_of_row hdec]
  rcases submit_cases item row now s with ⟨hge, _⟩ | ⟨e, _, he, _⟩ | ⟨_, _, hm⟩
  · omega
  · rw [hnone] at he
    cases he
  · rw [hm]
    exact insertLine_of_incomplete (h.store.alloc item.fid now hnone) hnew hdec hlid (newSlot_has _ _ _ _)
      (newSlot_incomplete _ _ _) now

/-- What a new slot holds after its first line (R163, R165). -/
theorem LineInserted.ofNew {item : LineItem} {row : List Byte} {now : Time} {p : Nat} {e' : Slot} {s t : State}
    (h : LineInserted item row now (newSlot item.fid now p) e' s t) :
    e'.fid = item.fid ∧ (∀ l < 342, e'.has l = decide (l = item.lid.toNat)) ∧ e'.nLines = 1 ∧
      e'.byteCount.toNat = item.n ∧ e'.rleLineCount.toNat = item.rle.toNat ∧ e'.tLast = now := by
  refine ⟨h.fid, fun l hl => ?_, BitVec.eq_of_toNat_eq h.nLines, ?_, ?_, h.tLast⟩
  · rw [h.has l hl, newSlot_has, Bool.or_false]
  · rw [h.byteCount]
    exact Nat.zero_add _
  · rw [h.rleLineCount]
    exact Nat.zero_add _

/-- Settles O24: with room in the window nothing is evicted, and the chosen physical slot is free. -/
theorem firstLineAllocates : Obligations.FirstLineAllocates := by
  intro i item now row s h hi hdec hlid hnone hroom
  have hinv := bytesTaken_inv h i
  have hnone' : (bytesTaken i s).findSlot item.fid = none := hnone
  obtain ⟨t, e', hstep, hslots, hline⟩ := lineStep_first hinv hdec hlid hnone' now
  obtain ⟨hphys, hfree⟩ := choosePhys_of_inv hinv.store
  have hkeep : (bytesTaken i s).evictOldest = bytesTaken i s := by
    rcases evictOldest_of_inv hinv.store with ⟨_, he⟩ | ⟨_, _, hfull, _, _⟩
    · exact he
    · exact absurd hfull hroom.ne
  rw [hkeep] at hslots hphys hfree
  obtain ⟨hfid, hhas, hn, hbytes, hrle, htime⟩ := hline.ofNew
  obtain ⟨hframe, hfbuf⟩ := lineStep_sameFrame item now _ _ hstep
  have hp : e'.phys = (bytesTaken i s).choosePhys := hline.phys.trans (by rw [newSlot_phys, hkeep])
  have hp' : (newSlot item.fid now (bytesTaken i s).evictOldest.choosePhys).phys = e'.phys := hline.phys.symm
  have hrow := hline.row
  have hothers := hline.others
  have hout := hline.out
  have hhints := hline.physHints
  rw [hp'] at hrow hothers
  rw [alloc_mem, hkeep] at hothers
  rw [alloc_out, hkeep] at hout
  rw [show ((bytesTaken i s).alloc item.fid now).2.physHints = (bytesTaken i s).evictOldest.physHints.tail from rfl,
    hkeep] at hhints
  exact ⟨t, e', (exec_line hi s).trans hstep, hslots, hfid, hhas, hn, hbytes, hrle, htime, hp ▸ hphys, hp ▸ hfree,
    hrow, hothers, hfbuf, hout, hhints, hframe.cfg, hframe.stage, hframe.latch, hframe.offers, hframe.params⟩

/-- With the window full every physical slot is taken (R52). -/
theorem mem_physes_of_full {s : State} (h : StoreInv s) (hfull : s.slots.length = windowSize s.cfg) {p : Nat}
    (hp : p < windowSize s.cfg) : p ∈ s.slots.map Slot.phys := by
  have hsub : s.slots.map Slot.phys ⊆ List.range (windowSize s.cfg) := by
    intro q hq
    obtain ⟨e, he, rfl⟩ := List.mem_map.1 hq
    exact List.mem_range.2 (h.physBound e he)
  have hperm := (h.physes.subperm hsub).perm_of_length_le (by simp [hfull])
  exact hperm.mem_iff.2 (List.mem_range.2 hp)

/-- Settles O25: the oldest slot goes, and its physical place is the only free one. -/
theorem fullWindowEvictsOldest : Obligations.FullWindowEvictsOldest := by
  intro i item now row victim rest s h hi hdec hlid hnone hfull hs
  have hinv := bytesTaken_inv h i
  have hnone' : (bytesTaken i s).findSlot item.fid = none := hnone
  have hs' : (bytesTaken i s).slots = victim :: rest := hs
  obtain ⟨t, e', hstep, hslots, hline⟩ := lineStep_first hinv hdec hlid hnone' now
  obtain ⟨hphys, hfree⟩ := choosePhys_of_inv hinv.store
  have hevict : (bytesTaken i s).evictOldest = evicted (bytesTaken i s) victim rest := by
    rcases evictOldest_of_inv hinv.store with ⟨hroom, _⟩ | ⟨v, r, _, hvr, he⟩
    · exact absurd hfull hroom.ne
    · rw [hs'] at hvr
      cases hvr
      exact he
  have hchosen : (bytesTaken i s).evictOldest.choosePhys = victim.phys := by
    have hmem := mem_physes_of_full hinv.store hfull hphys
    rw [hs', List.map_cons] at hmem
    rcases List.mem_cons.1 hmem with hp | hp
    · exact hp
    · obtain ⟨x, hx, hp⟩ := List.mem_map.1 hp
      exact absurd hp (hfree x (by rw [hevict]; exact hx))
  obtain ⟨hfid, hhas, hn, hbytes, hrle, htime⟩ := hline.ofNew
  obtain ⟨hframe, hfbuf⟩ := lineStep_sameFrame item now _ _ hstep
  have hp : e'.phys = victim.phys := hline.phys.trans hchosen
  have hrow := hline.row
  have hothers := hline.others
  rw [newSlot_phys, hchosen, ← hp] at hrow hothers
  have hread : ∀ a, ((bytesTaken i s).alloc item.fid now).2.mem.read a =
      if physOf a = victim.phys then none else s.mem.read a := by
    intro a
    rw [alloc_mem, hevict]
    exact Memory.read_freeRows s.mem victim.phys a
  have hout : t.out = s.out ++ [.event (.evictWindow victim.fid (victim.nLines.setWidth 16))] := by
    rw [hline.out, alloc_out, hevict]
    rfl
  have hhints : t.physHints = s.physHints.tail :=
    hline.physHints.trans (show (bytesTaken i s).evictOldest.physHints.tail = _ by rw [hevict]; rfl)
  refine ⟨t, e', (exec_line hi s).trans hstep, by rw [hslots, hevict]; rfl, hfid, hhas, hn, hbytes, hrle, htime, hp,
    hout, hrow, fun a ha => ?_, fun a ha hout => ?_, hfbuf, hhints,
    hframe.cfg, hframe.stage, hframe.latch, hframe.offers, hframe.params⟩
  · have hnot : ¬inRow e'.phys item.lid.toNat a := fun hin => ha (hp ▸ ((inRow_iff _ _ _ hlid).1 hin).1)
    rw [hothers a hnot, hread, if_neg ha]
  · rw [hothers a hout, hread, if_pos ha]

/-! ## The line that completes a frame -/

theorem storedRow_inserted {s : State} {e : Slot} {item : LineItem} {row : List Byte} (hlid : item.lid.toNat < 342)
    (hrow : row.length = 64) (now : Time) (l : Nat) (hl : l < 342) :
    storedRow (inserted item row now e s) e.phys l = if l = item.lid.toNat then row else storedRow s e.phys l := by
  rw [storedRow_eq, storedRow_eq]
  split
  · rename_i heq
    rw [heq, inserted, Memory.row_writeBytes_same _ _ _ _ hrow, Option.getD_some]
  · rename_i hne
    rw [inserted, Memory.row_writeBytes_other _ _ _ _ _ _ hrow hlid hl fun hp => hne hp.2]

/-- LINE emits the frame that a line completes (R167). -/
theorem lineStep_last {item : LineItem} {row : List Byte} {e : Slot} {s : State} (h : AssemblerInv s)
    (hdec : decodeLine item = .row row) (hlid : item.lid.toNat < 342) (hslot : s.findSlot item.fid = some e)
    (hhas : e.has item.lid.toNat = false) (hn : e.nLines.toNat = 341) (now : Time) :
    lineStep item now s = .next (frameLeft (e.insert item now) (inserted item row now e s)) := by
  have he := mem_of_findSlot hslot
  rw [lineStep_of_row hdec, submit_of_inFlight item row now e s hlid hslot]
  exact insertLine_of_last h.store he hdec hlid hhas (h.slots e he).counts hn now

/-- Settles O26: the frame leaves with the stored rows and the new one, and its slot's rows are freed. -/
theorem lastLineEmitsTheFrame : Obligations.LastLineEmitsTheFrame := by
  intro i item now row e s h hi hdec hlid hslot hhas hn
  have hinv := bytesTaken_inv h i
  have hslot' : (bytesTaken i s).findSlot item.fid = some e := hslot
  have he := mem_of_findSlot hslot
  have hfid := fid_of_findSlot hslot
  have hrow := (decodeLine_row item row hdec).1
  have hstep := lineStep_last hinv hdec hlid hslot' hhas hn now
  obtain ⟨hframe, hfbuf⟩ := lineStep_sameFrame item now _ _ hstep
  have hrows : frameRows (inserted item row now e (bytesTaken i s)) e.phys =
      (List.range 342).flatMap (fun l =>
        let r := if l = item.lid.toNat then row else storedRow s e.phys l
        if cfgPixelOut s.cfg then expand (cfgPolarity s.cfg) r else r) :=
    List.flatMap_congr fun l hl => by rw [storedRow_inserted hlid hrow now l (List.mem_range.1 hl)]; rfl
  have hcount : (e.insert item now).rleLineCount.setWidth 16 =
      BitVec.ofNat 16 (e.rleLineCount.toNat + item.rle.toNat) := by
    rw [← insert_rleLineCount e item now (h.slots e he).counts (h.slots e he).incomplete, BitVec.ofNat_toNat]
  have hslots : (inserted item row now e (bytesTaken i s)).slots.filter (fun x => x.fid != e.fid) =
      s.slots.filter (fun x => x.fid != item.fid) := by
    rw [inserted_slots hfid, hfid]
    exact filter_ne_map_ite Slot.fid item.fid (fun _ => e.insert item now) (fun _ _ => hfid) _
  refine ⟨_, (exec_line hi s).trans hstep, ?_,
    hslots.trans (by simp only [bne, decide_not, beq_eq_decide]), ?_, ?_, ?_, hfbuf, rfl,
    hframe.cfg, hframe.stage, hframe.latch, hframe.offers, hframe.params⟩
  · rw [← hfid, ← hrows, ← hcount]
    rfl
  · rw [findSlot_eq_none_iff]
    intro x hx
    have hx : x ∈ s.slots.filter (fun x => x.fid != item.fid) := hslots ▸ hx
    simpa using (List.mem_filter.1 hx).2
  · intro a ha
    exact (Memory.read_freeRows _ _ a).trans (if_pos ha)
  · intro a ha
    refine (Memory.read_freeRows _ _ a).trans ((if_neg ha).trans ?_)
    exact Memory.read_writeRow_outside _ _ _ _ _ hrow fun hin => ha ((inRow_iff _ _ _ hlid).1 hin).1

/-! ## Rows that are stored stay -/

/-- A slot after some steps has the place, the present bits and the rows that it had before (R29, R31). -/
structure SlotKept (s t : State) (e e' : Slot) : Prop where
  phys : e'.phys = e.phys
  has : ∀ l < 342, e.has l = true → e'.has l = true
  rows : ∀ l < 342, e.has l = true → t.mem.row e'.phys l = s.mem.row e.phys l

/-- A slot is kept where no address of its physical place has changed. -/
theorem SlotKept.of_read {s t : State} {e : Slot} (h : ∀ a, physOf a = e.phys → t.mem.read a = s.mem.read a) :
    SlotKept s t e e :=
  ⟨rfl, fun _ _ hhas => hhas, fun l hl _ => Memory.row_congr l hl h⟩

/-- Inserting a line leaves the bytes of every other slot (R165). -/
theorem read_inserted_other {s : State} {x e : Slot} {item : LineItem} {row : List Byte} (h : StoreInv s)
    (hx : x ∈ s.slots) (he : e ∈ s.slots) (hfid : x.fid ≠ e.fid) (hlid : item.lid.toNat < 342)
    (hrow : row.length = 64) (now : Time) (a : Nat) (ha : physOf a = x.phys) :
    (inserted item row now e s).mem.read a = s.mem.read a := by
  refine Memory.read_writeRow_outside _ _ _ _ _ hrow fun hin => hfid ?_
  rw [inRow_iff _ _ _ hlid, ha] at hin
  rw [eq_of_phys_eq h.physes hx he hin.1]

/-- Inserting a new line keeps the slot it is inserted in: its row was not stored (R165). -/
theorem SlotKept.inserted {s : State} {e : Slot} {item : LineItem} {row : List Byte} (hlid : item.lid.toNat < 342)
    (hrow : row.length = 64) (hnew : e.has item.lid.toNat = false) (now : Time) :
    SlotKept s (inserted item row now e s) e (e.insert item now) := by
  refine ⟨rfl, fun l _ hhas => ?_, fun l hl hhas => ?_⟩
  · rw [insert_has e item now hlid, hhas, Bool.or_true]
  · refine Memory.row_writeBytes_other _ _ _ _ _ _ hrow hlid hl fun hp => ?_
    rw [hp.2, hnew] at hhas
    cases hhas

/-- The window eviction leaves the bytes of the slots that stay (R164). -/
theorem read_evictOldest {s : State} (h : StoreInv s) {e : Slot} (he : e ∈ s.evictOldest.slots) (a : Nat)
    (ha : physOf a = e.phys) : s.evictOldest.mem.read a = s.mem.read a := by
  rcases evictOldest_of_inv h with ⟨_, hev⟩ | ⟨victim, rest, _, hs, hev⟩ <;> rw [hev] at he ⊢
  rw [evicted_eq h hs] at he ⊢
  obtain ⟨he, hkept⟩ := mem_dropSlots_slots.1 he
  exact read_dropSlots_kept h he hkept ha

/-- LINE keeps every slot that is in flight before and after it (R166). -/
theorem LineEffect.slotKept {s t : State} {item : LineItem} {now : Time} (h : AssemblerInv s)
    (heff : LineEffect item now s t) {e e' : Slot} (he : e ∈ s.slots) (he' : e' ∈ t.slots) (hfid : e'.fid = e.fid) :
    SlotKept s t e e' := by
  have hsame : e' ∈ s.slots → e' = e := fun hmem => eq_of_fid_eq h.fids hmem he hfid
  have hraise : ∀ ev, e' ∈ (s.raise ev).slots → SlotKept s (s.raise ev) e e' := fun ev hmem => by
    rw [hsame hmem]
    exact .of_read fun _ _ => rfl
  cases heff with
  | invalid reason hdec => exact hraise _ he'
  | outOfRange row hdec hlid => exact hraise _ he'
  | duplicate row x hdec hlid hslot hhas => exact hraise _ he'
  | stored row x hdec hlid hslot hhas hn =>
    have hx := mem_of_findSlot hslot
    have hrow := (decodeLine_row item row hdec).1
    rcases mem_replaceSlot he' with rfl | ⟨hmem, hne⟩
    · obtain rfl := eq_of_fid_eq h.fids hx he hfid
      exact .inserted hlid hrow hhas now
    · obtain rfl := hsame hmem
      exact .of_read (read_inserted_other h.store hmem hx hne hlid hrow now)
  | completed row x hdec hlid hslot hhas hn =>
    have hx := mem_of_findSlot hslot
    have hrow := (decodeLine_row item row hdec).1
    have hins := h.store.inserted hx hlid hrow now
    rw [frameLeft, emitted_eq hins (mem_replaceSlot_self hx rfl)] at he' ⊢
    obtain ⟨hmem', hkept⟩ := mem_dropSlots_slots.1 he'
    have hne : e'.fid ≠ x.fid := by simpa [ofFrame] using hkept
    rcases mem_replaceSlot hmem' with rfl | ⟨hmem, _⟩
    · exact absurd rfl hne
    · obtain rfl := hsame hmem
      exact .of_read fun a ha => (read_dropSlots_kept hins hmem' hkept ha).trans
        (read_inserted_other h.store hmem hx hne hlid hrow now a ha)
  | allocated row hdec hlid hnone =>
    have hrow := (decodeLine_row item row hdec).1
    have halloc := h.store.alloc item.fid now hnone
    have hnew : (s.alloc item.fid now).1 ∈ (s.alloc item.fid now).2.slots := by simp
    rcases mem_replaceSlot he' with rfl | ⟨hmem', hne⟩
    · exact absurd hfid.symm ((findSlot_eq_none_iff s item.fid).1 hnone e he)
    · have hold : e' ∈ s.evictOldest.slots := by
        rw [alloc_slots] at hmem'
        rcases List.mem_append.1 hmem' with hmem | hmem
        · exact hmem
        · exact absurd (congrArg Slot.fid (List.mem_singleton.1 hmem)) hne
      obtain rfl := hsame (evictOldest_slots_subset h.store hold)
      exact .of_read fun a ha => (read_inserted_other halloc hmem' hnew hne hlid hrow now a ha).trans
        (read_evictOldest h.store hold a ha)

/-- Settles O28, by the ways a line can end. -/
theorem storedRowsAreKept : Obligations.StoredRowsAreKept := by
  intro i item now s t e e' h hi hexec he he' hfid
  rw [exec_line hi] at hexec
  have hkept := (LineEffect.of_lineStep (bytesTaken_inv h i) hexec).slotKept (bytesTaken_inv h i) he he' hfid
  refine ⟨hkept.phys, fun l hl hhas => ⟨hkept.has l hl hhas, ?_⟩⟩
  rw [storedRow_eq, storedRow_eq, hkept.rows l hl hhas]
  rfl

/-! ## Frame records are whole -/

/-- The outputs that follow a state are appended to its own, and their frame records are whole (R33). -/
def AppendsWhole (s t : State) : Prop :=
  t.cfg = s.cfg ∧ ∃ new : List Output, t.out = s.out ++ new ∧
    ∀ (fid : FrameId) (rows : List Byte) (bc rc : U16), Output.frame fid rows bc rc ∈ new →
      rows.length = if cfgPixelOut s.cfg then 175104 else 21888

theorem AppendsWhole.none {s t : State} (hcfg : t.cfg = s.cfg) (hout : t.out = s.out) : AppendsWhole s t :=
  ⟨hcfg, [], by rw [hout, List.append_nil], by simp⟩

/-- Events are no frame records. -/
theorem AppendsWhole.events {s t : State} (evs : List Event) (hcfg : t.cfg = s.cfg)
    (hout : t.out = s.out ++ evs.map Output.event) : AppendsWhole s t :=
  ⟨hcfg, _, hout, by simp⟩

theorem AppendsWhole.trans {s t u : State} (h : AppendsWhole s t) (k : AppendsWhole t u) : AppendsWhole s u := by
  obtain ⟨hcfg, new, hout, hwhole⟩ := h
  obtain ⟨hcfg', new', hout', hwhole'⟩ := k
  refine ⟨hcfg'.trans hcfg, new ++ new', by rw [hout', hout, List.append_assoc], fun fid rows bc rc hmem => ?_⟩
  rcases List.mem_append.1 hmem with hmem | hmem
  · exact hwhole fid rows bc rc hmem
  · rw [hwhole' fid rows bc rc hmem, hcfg]

/-- A row leaves as its 64 bytes or as its 512 pixels (R142). -/
theorem rowOut_length (c : CfgWord) (row : List Byte) (h : row.length = 64) :
    (rowOut c row).length = if cfgPixelOut c then 512 else 64 := by
  rw [rowOut]
  split
  · rw [expand_length, h]
  · exact h

/-- EMIT reads 342 whole rows (R33, R167). -/
theorem emitFrame_whole {e : Slot} {s t : State} (h : emitFrame e s = .next t) : AppendsWhole s t := by
  rcases emitFrame_cases e s with ⟨rows, hrows, hn⟩ | ⟨f, _, hn⟩ <;> rw [hn] at h <;> cases h
  obtain ⟨f, hread, rfl⟩ := emitRows_inv s e.phys _ rows hrows
  have hlen : ∀ l ∈ List.range 342, (rowOut s.cfg (f l)).length = if cfgPixelOut s.cfg then 512 else 64 := by
    intro l hl
    refine rowOut_length s.cfg (f l) ?_
    have hok : memRead s (lbAddr e.phys l 0) 64 = .ok (f l) := hread l hl
    rcases memRead_cases s (lbAddr e.phys l 0) 64 with ⟨vs, _, hvs, heq⟩ | ⟨_, _, heq⟩ | ⟨_, heq⟩ <;> rw [heq] at hok
    · cases hok
      exact Memory.row_length hvs
    · cases hok
    · cases hok
  refine ⟨rfl, _, rfl, fun fid rows bc rc hmem => ?_⟩
  rw [List.mem_singleton, Output.frame.injEq] at hmem
  rw [hmem.2.1, List.length_flatMap, List.map_congr_left hlen, List.map_const', List.sum_replicate,
    List.length_range]
  split <;> rfl

theorem lineStep_whole {item : LineItem} {now : Time} {s t : State} (h : lineStep item now s = .next t) :
    AppendsWhole s t := by
  have hinsert : ∀ row e u, insertLine item row now e u = .next t → AppendsWhole u t := by
    intro row e u hu
    rcases insertLine_cases item row now e u with ⟨_, hn⟩ | ⟨_, hn, _⟩ | ⟨_, _, _, hn⟩ | ⟨_, _, _, hn⟩ <;> rw [hn] at hu
    · cases hu
      exact .events [_] rfl rfl
    · cases hu
    · cases hu
      exact .none rfl rfl
    · exact (AppendsWhole.none (s := u) (t := inserted item row now e u) rfl rfl).trans (emitFrame_whole hu)
  have halloc : AppendsWhole s (s.alloc item.fid now).2 := by
    rcases evictOldest_cases s with ⟨_, he⟩ | ⟨victim, rest, _, _, he⟩ | ⟨_, _, he⟩
    · exact .none (alloc_cfg s item.fid now) (by rw [alloc_out, he])
    · exact .events [_] (alloc_cfg s item.fid now) (by rw [alloc_out, he]; rfl)
    · exact .none (alloc_cfg s item.fid now) (by rw [alloc_out, he])
  rcases lineStep_cases item now s with ⟨reason, _, hn⟩ | ⟨row, _, hn⟩ <;> rw [hn] at h
  · cases h
    exact .events [_] rfl rfl
  · rcases submit_cases item row now s with ⟨_, hm⟩ | ⟨e, _, _, hm⟩ | ⟨_, _, hm⟩ <;> rw [hm] at h
    · cases h
      exact .events [_] rfl rfl
    · exact hinsert row e s h
    · exact halloc.trans (hinsert row _ _ h)

theorem applyExtracts_whole {now : Time} {xs : List ExtractResult} {s t : State}
    (h : applyExtracts now xs s = .next t) : AppendsWhole s t := by
  induction xs generalizing s with
  | nil =>
    cases h
    exact .none rfl rfl
  | cons x xs ih =>
    obtain ⟨u, hu, hrest⟩ := (andThen_eq_next _ _ _).1 h
    refine AppendsWhole.trans ?_ (ih hrest)
    cases x with
    | needMore =>
      cases hu
      exact .none rfl rfl
    | retry len =>
      cases hu
      exact .events [_] rfl rfl
    | packet item => exact lineStep_whole hu

theorem sweep_whole (now : Time) (s : State) : AppendsWhole s (sweep now s) := by
  cases hen : cfgStallEn s.cfg with
  | false =>
    rw [sweep_off now s hen]
    exact .none rfl rfl
  | true =>
    rw [sweep_on now s hen]
    refine .events ((s.slots.filter (Slot.stale s.cfg now)).map
      (fun e => .evictStall e.fid (e.nLines.setWidth 16) (slotAge now e))) rfl ?_
    rw [List.map_map]
    rfl

theorem withSweep_whole {now : Time} {s t : State} {body : State → Result}
    (hbody : ∀ u v, body u = .next v → AppendsWhole u v) (h : withSweep now s body = .next t) : AppendsWhole s t := by
  have hbegin : AppendsWhole s s.beginTxn := .none rfl rfl
  cases hp : s.params.sweepAfter with
  | false =>
    rw [withSweep_first now s body hp] at h
    exact (hbegin.trans (sweep_whole now _)).trans (hbody _ _ h)
  | true =>
    rw [withSweep_last now s body hp] at h
    obtain ⟨u, hu, hsweep⟩ := (andThen_eq_next _ _ _).1 h
    cases hsweep
    exact (hbegin.trans (hbody _ _ hu)).trans (sweep_whole now u)

theorem byteBody_whole {b : Byte} {now : Time} {s t : State} (h : byteBody b now s = .next t) :
    AppendsWhole s t := by
  rw [byteBody_eq] at h
  exact AppendsWhole.trans (t := { s with fbuf := (extractAll (s.fbuf ++ [b])).2 }) (.none rfl rfl)
    (applyExtracts_whole h)

theorem dgramBody_whole {d : List Byte} {now : Time} {s t : State} (h : dgramBody d now s = .next t) :
    AppendsWhole s t := by
  rcases dgramBody_cases d now s with ⟨cause, _, hn⟩ | ⟨item, _, hn⟩ <;> rw [hn] at h
  · cases h
    exact .events [_] rfl rfl
  · exact lineStep_whole h

theorem takePacket_whole {item : LineItem} {now : Time} {s t : State} (h : takePacket item now s = .next t) :
    AppendsWhole s t :=
  AppendsWhole.trans (t := { s with fbuf := s.fbuf.drop (Config.bsHdr + item.n) }) (.none rfl rfl) (lineStep_whole h)

theorem stagePair_whole (count value : Byte) (s : State) : AppendsWhole s (stagePair count value s) := by
  unfold stagePair
  split
  · exact .none rfl rfl
  · exact .events [_] rfl rfl

/-- Settles O27: only EMIT puts out a frame record, and every other output is an event. -/
theorem frameRecordsAreWhole : Obligations.FrameRecordsAreWhole := by
  intro i s t _ h
  have hwhole : (∀ c, i ≠ .reset c) → AppendsWhole s t := by
    intro hne
    cases i with
    | bsRaw fid lid p now => exact takePacket_whole h
    | bsRle fid lid p now => exact takePacket_whole h
    | bsCorrupt fid lid len =>
      cases h
      exact .events [_] rfl rfl
    | udpRle8 fid lid p now => exact lineStep_whole h
    | udpReject d cause =>
      cases h
      exact .events [_] rfl rfl
    | rlePair count value =>
      cases h
      exact stagePair_whole count value s
    | rlePairZero value =>
      cases h
      exact .events [_] rfl rfl
    | byte b now =>
      rw [exec_byte b now s (enabled_of_exec h)] at h
      exact withSweep_whole (fun _ _ => byteBody_whole) h
    | dgram d now =>
      rw [exec_dgram d now s (enabled_of_exec h)] at h
      exact withSweep_whole (fun _ _ => dgramBody_whole) h
    | tick now =>
      cases h
      exact AppendsWhole.trans (.none rfl rfl) (sweep_whole now s.beginTxn)
    | reset c => exact absurd rfl (hne c)
  by_cases hreset : ∃ c, i = .reset c
  · obtain ⟨c, rfl⟩ := hreset
    rcases execReset_cases c s with ⟨_, hn⟩ | ⟨_, hn⟩ <;> rw [exec, hn] at h <;> cases h
    exact ⟨[], (List.append_nil _).symm, by simp⟩
  · exact (hwhole fun c hc => hreset ⟨c, hc⟩).2

/-! ## TICK -/

/-- Settles O31: SWEEP removes exactly the stale slots with their rows. -/
theorem tickSweepsStaleSlots : Obligations.TickSweepsStaleSlots := by
  intro now s stale
  have hstale : Slot.stale s.cfg now = stale := by
    funext e
    rw [Bool.eq_iff_iff, stale_iff, decide_eq_true_eq]
    rfl
  constructor
  · intro hen
    rw [exec, execTick, sweep_off now s.beginTxn hen]
    rfl
  · intro hen
    refine ⟨_, congrArg Host.Outcome.next (sweep_eq now s.beginTxn hen), ?_, ?_, fun a hgone => ?_, fun a hkept => ?_,
      rfl, rfl, rfl, rfl, rfl, rfl, rfl⟩
    · exact congrArg (fun f => s.slots.filter (fun e => !f e)) hstale
    · exact congrArg (fun f => s.out ++ (s.slots.filter f).map (stallEvent now)) hstale
    · obtain ⟨e, he, hdead, ha⟩ := hgone
      exact read_dropSlots_dead (s := s.beginTxn) he ((congrFun hstale e).trans hdead) ha
    · exact read_dropSlots_other (s := s.beginTxn) fun e he hdead =>
        hkept e he ((congrFun hstale e).symm.trans hdead)

end Sys2Proof.Machine
end

