-- ==== Sys2Proof/Proofs/FrameRuns.lean ====
section
/-! Runs of lines (42_assembler.md R166, R173): which lines a frame in flight has collected, that it stays in flight
while few other frames are allocated, and that it leaves once, on its last line, with the first copy of each. -/

namespace Sys2Proof.Machine

/-! ## What one line does to the frames in flight -/

def Absent (fid : FrameId) (fs : List Frame) : Prop := ∀ f ∈ fs, f.fid ≠ fid

/-- The six ways in which LINE ends on the frames in flight (R130, R160 to R167). -/
inductive FramesEffect (c : CfgWord) (item : LineItem) (now : Time) (fs : List Frame) :
    List Frame → List Output → Prop where
  | untaken (ev : Event) (ht : taken item = false) : FramesEffect c item now fs fs [.event ev]
  | duplicate (row : List Byte) (f : Frame) (hdec : decodeLine item = .row row) (hlid : item.lid.toNat < 342)
      (hf : f ∈ fs) (hfid : f.fid = item.fid) (hhas : f.has item.lid.toNat = true) :
      FramesEffect c item now fs fs [.event (.lineDup item.fid item.lid)]
  | stored (row : List Byte) (f : Frame) (hdec : decodeLine item = .row row) (hlid : item.lid.toNat < 342)
      (hf : f ∈ fs) (hfid : f.fid = item.fid) (hhas : f.has item.lid.toNat = false) (hn : f.nLines.toNat ≠ 341) :
      FramesEffect c item now fs (fs.map (fun x => if x.fid = item.fid then x.insert item row now else x)) []
  | completed (row : List Byte) (f : Frame) (hdec : decodeLine item = .row row) (hlid : item.lid.toNat < 342)
      (hf : f ∈ fs) (hfid : f.fid = item.fid) (hhas : f.has item.lid.toNat = false) (hn : f.nLines.toNat = 341) :
      FramesEffect c item now fs (fs.filter (fun x => x.fid != item.fid)) [(f.insert item row now).record c]
  | allocated (row : List Byte) (hdec : decodeLine item = .row row) (hlid : item.lid.toNat < 342)
      (hnone : Absent item.fid fs) (hroom : fs.length < windowSize c) :
      FramesEffect c item now fs (fs ++ [(Frame.empty item.fid now).insert item row now]) []
  | evicted (row : List Byte) (hdec : decodeLine item = .row row) (hlid : item.lid.toNat < 342)
      (hnone : Absent item.fid fs) (hfull : windowSize c ≤ fs.length) :
      FramesEffect c item now fs (fs.tail ++ [(Frame.empty item.fid now).insert item row now])
        (fs.head?.toList.map Frame.windowEvent)

/-- A line is taken where its payload decodes and its line_id is in range (R130, R160). -/
theorem taken_eq_true_iff (item : LineItem) :
    taken item = true ↔ item.lid.toNat < 342 ∧ ∃ row, decodeLine item = .row row := by
  rw [taken, Bool.and_eq_true, decide_eq_true_eq, Config.lines_val]
  cases decodeLine item <;> simp

theorem taken_of_row {item : LineItem} {row : List Byte} (hdec : decodeLine item = .row row)
    (hlid : item.lid.toNat < 342) : taken item = true := (taken_eq_true_iff item).2 ⟨hlid, row, hdec⟩

theorem lineFrames_effect (c : CfgWord) (item : LineItem) (now : Time) (fs : List Frame) :
    FramesEffect c item now fs (lineFrames c item now fs).1 (lineFrames c item now fs).2 := by
  unfold lineFrames
  split
  · rename_i reason hdec
    exact .untaken _ (Bool.eq_false_iff.2 fun ht => by
      obtain ⟨_, row, hrow⟩ := (taken_eq_true_iff item).1 ht
      rw [hdec] at hrow
      cases hrow)
  · rename_i row hdec
    unfold submitFrames
    split
    · rename_i hlid
      exact .untaken _ (Bool.eq_false_iff.2 fun ht => Nat.not_lt.2 hlid ((taken_eq_true_iff item).1 ht).1)
    · rename_i hlid
      have hlid : item.lid.toNat < 342 := Nat.not_le.1 hlid
      split
      · rename_i hfind
        have hnone : Absent item.fid fs := fun f hf => by simpa using List.find?_eq_none.1 hfind f hf
        unfold submitFirst
        split
        · exact .allocated row hdec hlid hnone (by assumption)
        · exact .evicted row hdec hlid hnone (Nat.not_lt.1 (by assumption))
      · rename_i f hfind
        have hf := List.mem_of_find?_eq_some hfind
        have hfid : f.fid = item.fid := by simpa using List.find?_some hfind
        split
        · exact .duplicate row f hdec hlid hf hfid (by assumption)
        · rename_i hhas
          split
          · exact .completed row f hdec hlid hf hfid (Bool.eq_false_iff.2 hhas) (by assumption)
          · exact .stored row f hdec hlid hf hfid (Bool.eq_false_iff.2 hhas) (by assumption)

/-- A line's present bit is set in its frame, and no other changes (R165). -/
theorem Frame.insert_has (f : Frame) {item : LineItem} (row : List Byte) (now : Time) (hlid : item.lid.toNat < 342)
    (l : Nat) : (f.insert item row now).has l = (decide (l = item.lid.toNat) || f.has l) := by
  rw [Frame.has, Frame.insert, getLsbD_presentWith, decide_eq_true hlid, Bool.true_and, Bool.or_comm, Frame.has,
    decide_eq_decide.2 eq_comm]

@[simp] theorem Frame.insert_fid (f : Frame) (item : LineItem) (row : List Byte) (now : Time) :
    (f.insert item row now).fid = f.fid := rfl

@[simp] theorem Frame.empty_has (fid : FrameId) (now : Time) (l : Nat) : (Frame.empty fid now).has l = false := by
  simp [Frame.has, Frame.empty]

/-- A frame's line counter counts its present bits (R29). -/
def Frame.Counted (f : Frame) : Prop := f.nLines.toNat = presentCount f.present

theorem Frame.insert_full {f : Frame} {item : LineItem} {row : List Byte} {now : Time} (hf : f.Counted)
    (hlid : item.lid.toNat < 342) (hhas : f.has item.lid.toNat = false) (hn : f.nLines.toNat = 341) :
    ∀ l < 342, (f.insert item row now).has l = true := by
  refine all_of_presentCount _ ?_
  rw [Frame.insert, presentCount_presentWith _ _ hlid hhas, ← hf, hn]

/-- The facts about the frames in flight that a sound state gives. -/
structure FramesOk (c : CfgWord) (fs : List Frame) : Prop where
  window : fs.length ≤ windowSize c
  fids : (fs.map Frame.fid).Nodup
  counted : ∀ f ∈ fs, f.Counted

theorem framesOk_of_inv {s : State} (h : AssemblerInv s) : FramesOk s.cfg (framesOf s) := by
  refine ⟨(List.length_map _).trans_le h.window, ?_, fun f hf => ?_⟩
  · rw [framesOf, List.map_map]
    exact h.fids
  · obtain ⟨e, he, rfl⟩ := List.mem_map.1 hf
    exact (h.slots e he).count

theorem absent_iff (s : State) (fid : FrameId) : Absent fid (framesOf s) ↔ s.findSlot fid = none := by
  rw [findSlot_eq_none_iff]
  exact List.forall_mem_map

/-! ## First copies -/

/-- A line is a copy of line `l` of frame `fid` that SUBMIT takes (R166). -/
def isCopy (fid : FrameId) (l : Nat) (item : LineItem) : Bool :=
  item.fid == fid && item.lid.toNat == l && taken item

theorem isCopy_iff (fid : FrameId) (l : Nat) (item : LineItem) :
    isCopy fid l item = true ↔ item.fid = fid ∧ item.lid.toNat = l ∧ taken item = true := by
  simp [isCopy, and_assoc]

theorem firstCopy_nil (fid : FrameId) (l : Nat) : firstCopy fid l [] = none := rfl

theorem firstCopy_append (fid : FrameId) (l : Nat) (p q : List (LineItem × Time)) :
    firstCopy fid l (p ++ q) = (firstCopy fid l p).or (firstCopy fid l q) := by
  simp only [firstCopy, List.map_append, List.find?_append]

theorem firstCopy_singleton (fid : FrameId) (l : Nat) (x : LineItem × Time) :
    firstCopy fid l [x] = if isCopy fid l x.1 then some x.1 else none := by
  rw [firstCopy, List.map_singleton, List.find?_singleton]
  rfl

theorem firstCopy_isSome_append {fid : FrameId} {l : Nat} {p : List (LineItem × Time)}
    (h : (firstCopy fid l p).isSome = true) (q : List (LineItem × Time)) :
    (firstCopy fid l (p ++ q)).isSome = true := by
  rw [firstCopy_append, Option.isSome_or, h, Bool.true_or]

theorem firstCopy_none_of_prefix {fid : FrameId} {l : Nat} {p q : List (LineItem × Time)} (hpq : p <+: q)
    (h : firstCopy fid l q = none) : firstCopy fid l p = none := by
  obtain ⟨r, rfl⟩ := hpq
  rw [firstCopy_append, Option.or_eq_none_iff] at h
  exact h.1

/-- A line that is no first copy leaves the first copies as they are. -/
theorem firstCopy_snoc_same {fid : FrameId} {p : List (LineItem × Time)} {x : LineItem × Time}
    (h : x.1.fid = fid → taken x.1 = true → (firstCopy fid x.1.lid.toNat p).isSome = true) (l : Nat) :
    firstCopy fid l (p ++ [x]) = firstCopy fid l p := by
  rw [firstCopy_append, firstCopy_singleton]
  by_cases hcopy : isCopy fid l x.1 = true
  · obtain ⟨hfid, rfl, ht⟩ := (isCopy_iff _ _ _).1 hcopy
    rw [Option.or_of_isSome (h hfid ht)]
  · rw [if_neg hcopy, Option.or_none]

/-- A first copy is added to the first copies. -/
theorem firstCopy_snoc_new {fid : FrameId} {p : List (LineItem × Time)} {x : LineItem × Time} (hfid : x.1.fid = fid)
    (ht : taken x.1 = true) (hnone : firstCopy fid x.1.lid.toNat p = none) :
    (fun l => firstCopy fid l (p ++ [x])) =
      Function.update (fun l => firstCopy fid l p) x.1.lid.toNat (some x.1) := by
  funext l
  rw [firstCopy_append, firstCopy_singleton]
  by_cases hl : l = x.1.lid.toNat
  · subst hl
    rw [hnone, Option.none_or, if_pos ((isCopy_iff _ _ _).2 ⟨hfid, rfl, ht⟩), Function.update_self]
  · rw [if_neg fun hcopy => hl ((isCopy_iff _ _ _).1 hcopy).2.1.symm, Option.or_none, Function.update_of_ne hl]

/-! ## No frame leaves before it has every line -/

/-- A frame in flight has only lines that have come (R31). -/
def Within (fid : FrameId) (p : List (LineItem × Time)) (fs : List Frame) : Prop :=
  ∀ f ∈ fs, f.fid = fid → ∀ l, f.has l = true → (firstCopy fid l p).isSome = true

theorem Within.of_absent {fid : FrameId} {fs : List Frame} (h : Absent fid fs) (p : List (LineItem × Time)) :
    Within fid p fs := fun f hf hfid => absurd hfid (h f hf)

/-- The lines of a frame with one more line have come when that line has. -/
theorem Within.insert {fid : FrameId} {p : List (LineItem × Time)} {x : LineItem × Time} {row : List Byte} {f : Frame}
    (hf : f.fid = fid → ∀ l, f.has l = true → (firstCopy fid l p).isSome = true) (hdec : decodeLine x.1 = .row row)
    (hlid : x.1.lid.toNat < 342) (hx : f.fid = x.1.fid) (hfid : f.fid = fid) (l : Nat)
    (hhas : (f.insert x.1 row x.2).has l = true) : (firstCopy fid l (p ++ [x])).isSome = true := by
  rw [Frame.insert_has f row x.2 hlid, Bool.or_eq_true, decide_eq_true_eq] at hhas
  rcases hhas with rfl | hhas
  · have hcopy := (isCopy_iff fid x.1.lid.toNat x.1).2 ⟨hx.symm.trans hfid, rfl, taken_of_row hdec hlid⟩
    rw [firstCopy_append, firstCopy_singleton, if_pos hcopy, Option.isSome_or, Option.isSome_some, Bool.or_true]
  · exact firstCopy_isSome_append (hf hfid l hhas) _

theorem FramesEffect.within {c : CfgWord} {fid : FrameId} {p : List (LineItem × Time)} {x : LineItem × Time}
    {fs fs' : List Frame} {out : List Output} (heff : FramesEffect c x.1 x.2 fs fs' out) (h : Within fid p fs) :
    Within fid (p ++ [x]) fs' := by
  have hold : ∀ f ∈ fs, f.fid = fid → ∀ l, f.has l = true → (firstCopy fid l (p ++ [x])).isSome = true :=
    fun f hf hfid l hhas => firstCopy_isSome_append (h f hf hfid l hhas) _
  have hempty : ∀ row, decodeLine x.1 = .row row → x.1.lid.toNat < 342 →
      ∀ f, f ∈ [(Frame.empty x.1.fid x.2).insert x.1 row x.2] → f.fid = fid →
        ∀ l, f.has l = true → (firstCopy fid l (p ++ [x])).isSome = true := by
    intro row hdec hlid f hf hfid
    rw [List.mem_singleton.1 hf] at hfid ⊢
    exact Within.insert (fun _ l hl => by simp at hl) hdec hlid rfl hfid
  cases heff with
  | untaken ev ht => exact hold
  | duplicate row f hdec hlid hf hfid hhas => exact hold
  | stored row f hdec hlid hf hfid hhas hn =>
    intro g hg
    obtain ⟨f', hf', rfl⟩ := List.mem_map.1 hg
    split
    · exact fun hfid l hl => Within.insert (h f' hf') hdec hlid (by assumption) hfid l hl
    · exact hold f' hf'
  | completed row f hdec hlid hf hfid hhas hn => exact fun g hg => hold g (List.mem_filter.1 hg).1
  | allocated row hdec hlid hnone hroom =>
    intro g hg
    rcases List.mem_append.1 hg with hg | hg
    · exact hold g hg
    · exact hempty row hdec hlid g hg
  | evicted row hdec hlid hnone hfull =>
    intro g hg
    rcases List.mem_append.1 hg with hg | hg
    · exact hold g (List.mem_of_mem_tail hg)
    · exact hempty row hdec hlid g hg

/-- A frame record that a line puts out is that of a frame in flight, of the line's frame_id, which it completes. -/
theorem FramesEffect.record {c : CfgWord} {item : LineItem} {now : Time} {fs fs' : List Frame} {out : List Output}
    (heff : FramesEffect c item now fs fs' out) {fid : FrameId} {rows : List Byte} {bc rc : U16}
    (hmem : Output.frame fid rows bc rc ∈ out) :
    ∃ row f, decodeLine item = .row row ∧ item.lid.toNat < 342 ∧ f ∈ fs ∧ f.fid = item.fid ∧
      f.has item.lid.toNat = false ∧ f.nLines.toNat = 341 ∧ fid = item.fid := by
  cases heff with
  | untaken ev ht => simp at hmem
  | duplicate row f hdec hlid hf hfid hhas => simp at hmem
  | stored row f hdec hlid hf hfid hhas hn => simp at hmem
  | completed row f hdec hlid hf hfid hhas hn =>
    rw [List.mem_singleton, Frame.record, Output.frame.injEq] at hmem
    exact ⟨row, f, hdec, hlid, hf, hfid, hhas, hn, hmem.1.trans hfid⟩
  | allocated row hdec hlid hnone hroom => simp at hmem
  | evicted row hdec hlid hnone hfull =>
    obtain ⟨f, _, hf⟩ := List.mem_map.1 hmem
    cases hf

/-- While a line of a frame has not come, the frame does not leave (R167, R173). -/
theorem FramesEffect.no_record {c : CfgWord} {fid : FrameId} {p : List (LineItem × Time)} {x : LineItem × Time}
    {fs fs' : List Frame} {out : List Output} (heff : FramesEffect c x.1 x.2 fs fs' out) (hok : FramesOk c fs)
    (h : Within fid p fs) {l : Nat} (hl : l < 342) (hopen : firstCopy fid l (p ++ [x]) = none)
    (rows : List Byte) (bc rc : U16) : Output.frame fid rows bc rc ∉ out := by
  intro hmem
  obtain ⟨row, f, hdec, hlid, hf, hfid, hhas, hn, rfl⟩ := heff.record hmem
  have hfull := Frame.insert_full (row := row) (now := x.2) (hok.counted f hf) hlid hhas hn l hl
  have hsome := Within.insert (h f hf) hdec hlid hfid hfid l hfull
  rw [hopen] at hsome
  cases hsome

end Sys2Proof.Machine
end

