-- ==== Sys2Proof/Proofs/FrameEmission.lean ====
section
/-! The lines that a frame in flight has collected, and the frame that leaves on the last of them, once and whole,
among the lines of other frames (42_assembler.md R173). -/

namespace Sys2Proof.Machine

/-! ## What a frame has collected -/

/-- The bytes that a copy of a line, if any, adds to a frame's counter (R165). -/
def copySize (o : Option LineItem) : Nat := o.elim 0 LineItem.n

/-- Whether a copy of a line, if any, adds to a frame's count of RLE8 lines (R165). -/
def copyRle (o : Option LineItem) : Bool := o.any LineItem.rle

/-- A frame holds the copies of its lines that `copy` gives, and has counted each once (R29, R173). -/
structure Collected (copy : Nat → Option LineItem) (f : Frame) : Prop where
  has : ∀ l, f.has l = (copy l).isSome
  rows : ∀ l item row, copy l = some item → decodeLine item = .row row → f.rows l = some row
  bytes : f.byteCount = BitVec.ofNat 16 ((List.range 342).map (fun l => copySize (copy l))).sum
  rles : f.rleLineCount = BitVec.ofNat 9 ((List.range 342).countP (fun l => copyRle (copy l)))

theorem Collected.empty (fid : FrameId) (now : Time) : Collected (fun _ => none) (Frame.empty fid now) := by
  have hsum : ∀ n, ((List.range n).map (fun _ => copySize none)).sum = 0 := fun n => by simp [copySize]
  have hcount : ∀ n, (List.range n).countP (fun _ => copyRle none) = 0 := fun n => by simp [copyRle]
  refine ⟨fun l => Frame.empty_has fid now l, by simp, ?_, ?_⟩
  · rw [hsum]
    rfl
  · rw [hcount]
    rfl

/-- Where `g` is `v` at one number and elsewhere `f`, which is 0 there, its sum is `v` more. -/
theorem sum_range_insert (n l v : Nat) (f g : Nat → Nat) (hl : l < n) (hf : f l = 0) (hgl : g l = v)
    (hg : ∀ k, k ≠ l → g k = f k) : ((List.range n).map g).sum = ((List.range n).map f).sum + v := by
  induction n with
  | zero => omega
  | succ n ih =>
    simp only [List.range_succ, List.map_append, List.sum_append, List.map_singleton, List.sum_singleton]
    by_cases h : l = n
    · subst h
      have hbelow : (List.range l).map g = (List.range l).map f :=
        List.map_congr_left fun k hk => hg k (List.mem_range.1 hk).ne
      rw [hbelow, hgl, hf]
      rfl
    · rw [ih (by omega), hg n (Ne.symm h)]
      omega

/-- A copy counts once among the RLE8 lines where it is one. -/
theorem countP_copyRle_update (copy : Nat → Option LineItem) (item : LineItem) (hlid : item.lid.toNat < 342)
    (hnone : copy item.lid.toNat = none) :
    (List.range 342).countP (fun l => copyRle (Function.update copy item.lid.toNat (some item) l)) =
      (List.range 342).countP (fun l => copyRle (copy l)) + item.rle.toNat := by
  have hself : copyRle (Function.update copy item.lid.toNat (some item) item.lid.toNat) = item.rle := by
    rw [Function.update_self]
    rfl
  have hother : ∀ k, k ≠ item.lid.toNat →
      copyRle (Function.update copy item.lid.toNat (some item) k) = copyRle (copy k) := fun k hk => by
    rw [Function.update_of_ne hk]
  have hbefore : copyRle (copy item.lid.toNat) = false := by
    rw [hnone]
    rfl
  cases hrle : item.rle with
  | true =>
    refine countP_range_insert 342 item.lid.toNat _ _ hlid hbefore fun k _ => ?_
    by_cases hk : k = item.lid.toNat
    · rw [hk, hself, hrle, decide_eq_true rfl, Bool.true_or]
    · rw [hother k hk, decide_eq_false hk, Bool.false_or]
  | false =>
    refine (List.countP_congr fun k _ => ?_).trans (Nat.add_zero _).symm
    by_cases hk : k = item.lid.toNat
    · rw [hk, hself, hrle, hbefore]
    · rw [hother k hk]

/-- A frame with one more line has collected one more copy (R165). -/
theorem Collected.insert {copy : Nat → Option LineItem} {f : Frame} {item : LineItem} {row : List Byte}
    (h : Collected copy f) (hdec : decodeLine item = .row row) (hlid : item.lid.toNat < 342)
    (hnone : copy item.lid.toNat = none) (now : Time) :
    Collected (Function.update copy item.lid.toNat (some item)) (f.insert item row now) := by
  refine ⟨fun l => ?_, fun l it r hit hr => ?_, ?_, ?_⟩
  · rw [Frame.insert_has f row now hlid, h.has]
    by_cases hl : l = item.lid.toNat
    · rw [hl, Function.update_self, decide_eq_true rfl, Bool.true_or, Option.isSome_some]
    · rw [Function.update_of_ne hl, decide_eq_false hl, Bool.false_or]
  · show Function.update f.rows item.lid.toNat (some row) l = some r
    by_cases hl : l = item.lid.toNat
    · rw [hl, Function.update_self] at hit ⊢
      cases hit
      rw [hdec] at hr
      cases hr
      rfl
    · rw [Function.update_of_ne hl] at hit ⊢
      exact h.rows l it r hit hr
  · show f.byteCount + BitVec.ofNat 16 item.n = _
    rw [h.bytes, ← BitVec.ofNat_add]
    refine congrArg _ (sum_range_insert 342 item.lid.toNat item.n _ _ hlid ?_ ?_ fun k hk => ?_).symm
    · rw [hnone]
      rfl
    · rw [Function.update_self]
      rfl
    · rw [Function.update_of_ne hk]
  · have hcount : rleCount item.rle = BitVec.ofNat 9 item.rle.toNat := by cases item.rle <;> rfl
    show f.rleLineCount + rleCount item.rle = _
    rw [h.rles, hcount, ← BitVec.ofNat_add, countP_copyRle_update copy item hlid hnone]

/-- The record of a frame that has collected a copy of every line (R167). -/
theorem Collected.record {copy : Nat → Option LineItem} {f : Frame} (h : Collected copy f) (c : CfgWord)
    (first : Nat → LineItem) (row : Nat → List Byte)
    (hall : ∀ l < 342, copy l = some (first l) ∧ decodeLine (first l) = .row (row l)) :
    f.record c = .frame f.fid ((List.range 342).flatMap (fun l => rowOut c (row l)))
      (BitVec.ofNat 16 ((List.range 342).map (fun l => (first l).n)).sum)
      (BitVec.ofNat 16 ((List.range 342).countP (fun l => (first l).rle))) := by
  have hcopy : ∀ l ∈ List.range 342, copy l = some (first l) := fun l hl => (hall l (List.mem_range.1 hl)).1
  have hrows : (List.range 342).flatMap (fun l => rowOut c ((f.rows l).getD [])) =
      (List.range 342).flatMap (fun l => rowOut c (row l)) := List.flatMap_congr fun l hl => by
    rw [h.rows l _ _ (hcopy l hl) (hall l (List.mem_range.1 hl)).2, Option.getD_some]
  have hbytes : (List.range 342).map (fun l => copySize (copy l)) = (List.range 342).map (fun l => (first l).n) :=
    List.map_congr_left fun l hl => by
      rw [hcopy l hl]
      rfl
  have hrles : (List.range 342).countP (fun l => copyRle (copy l)) = (List.range 342).countP (fun l => (first l).rle) :=
    List.countP_congr fun l hl => by
      rw [hcopy l hl]
      rfl
  have hle : (List.range 342).countP (fun l => (first l).rle) ≤ 342 :=
    List.countP_le_length.trans List.length_range.le
  have hwidth : (BitVec.ofNat 9 ((List.range 342).countP (fun l => (first l).rle))).setWidth 16 =
      BitVec.ofNat 16 ((List.range 342).countP (fun l => (first l).rle)) := by
    generalize (List.range 342).countP (fun l => (first l).rle) = k at hle
    apply BitVec.eq_of_toNat_eq
    simp only [BitVec.toNat_setWidth, BitVec.toNat_ofNat]
    omega
  rw [Frame.record, hrows, h.bytes, hbytes, h.rles, hrles, hwidth]

/-! ## A frame stays in flight among few others -/

/-- Frame `fid` in flight: it has collected the first copies of the lines that have come, and the frames newer than
it are among `others`. -/
def InFlight (fid : FrameId) (p : List (LineItem × Time)) (others : List FrameId) (fs : List Frame) : Prop :=
  ∃ older f newer, fs = older ++ f :: newer ∧ f.fid = fid ∧ Collected (fun l => firstCopy fid l p) f ∧
    ∀ g ∈ newer, g.fid ∈ others

/-- Before its first line a frame is absent, and then it is in flight. -/
def Collecting (fid : FrameId) (p : List (LineItem × Time)) (others : List FrameId) (fs : List Frame) : Prop :=
  (Absent fid fs ∧ ∀ l, firstCopy fid l p = none) ∨ InFlight fid p others fs

theorem eq_of_frame_fid_eq {fs : List Frame} (h : (fs.map Frame.fid).Nodup) {f g : Frame} (hf : f ∈ fs)
    (hg : g ∈ fs) (hfg : f.fid = g.fid) : f = g := List.inj_on_of_nodup_map h hf hg hfg

/-- A frame that its first line allocates has collected that line. -/
theorem inFlight_new {fid : FrameId} {p : List (LineItem × Time)} {x : LineItem × Time} {row : List Byte}
    (hcopies : ∀ l, firstCopy fid l p = none) (hfid : x.1.fid = fid) (hdec : decodeLine x.1 = .row row)
    (hlid : x.1.lid.toNat < 342) (others : List FrameId) (fs : List Frame) :
    InFlight fid (p ++ [x]) others (fs ++ [(Frame.empty x.1.fid x.2).insert x.1 row x.2]) := by
  have hcollected := (Collected.empty x.1.fid x.2).insert hdec hlid rfl x.2
  have hnone : (fun l => firstCopy fid l p) = fun _ => none := funext hcopies
  rw [← hnone, ← firstCopy_snoc_new hfid (taken_of_row hdec hlid) (hcopies _)] at hcollected
  exact ⟨fs, _, [], rfl, hfid, hcollected, by simp⟩

/-- From a frame that is absent, one line of any frame. -/
theorem FramesEffect.collecting_of_absent {c : CfgWord} {fid : FrameId} {p : List (LineItem × Time)}
    {x : LineItem × Time} {others : List FrameId} {fs fs' : List Frame} {out : List Output}
    (heff : FramesEffect c x.1 x.2 fs fs' out) (habsent : Absent fid fs) (hcopies : ∀ l, firstCopy fid l p = none) :
    Collecting fid (p ++ [x]) others fs' := by
  have hsame : (x.1.fid = fid → taken x.1 ≠ true) → ∀ l, firstCopy fid l (p ++ [x]) = none := fun hx l =>
    (firstCopy_snoc_same (fun hfid ht => absurd ht (hx hfid)) l).trans (hcopies l)
  have hne : ∀ f ∈ fs, f.fid = x.1.fid → x.1.fid ≠ fid := fun f hf hfid hx => habsent f hf (hfid.trans hx)
  cases heff with
  | untaken ev ht => exact .inl ⟨habsent, hsame fun _ => by rw [ht]; exact Bool.false_ne_true⟩
  | duplicate row f hdec hlid hf hfid hhas => exact .inl ⟨habsent, hsame fun hx => absurd hx (hne f hf hfid)⟩
  | stored row f hdec hlid hf hfid hhas hn =>
    refine .inl ⟨fun g hg => ?_, hsame fun hx => absurd hx (hne f hf hfid)⟩
    obtain ⟨f', hf', rfl⟩ := List.mem_map.1 hg
    split
    · exact habsent f' hf'
    · exact habsent f' hf'
  | completed row f hdec hlid hf hfid hhas hn =>
    exact .inl ⟨fun g hg => habsent g (List.mem_filter.1 hg).1, hsame fun hx => absurd hx (hne f hf hfid)⟩
  | allocated row hdec hlid hnone hroom =>
    by_cases hx : x.1.fid = fid
    · exact .inr (inFlight_new hcopies hx hdec hlid others fs)
    · refine .inl ⟨fun g hg => ?_, hsame fun h => absurd h hx⟩
      rcases List.mem_append.1 hg with hg | hg
      · exact habsent g hg
      · rwa [List.mem_singleton.1 hg]
  | evicted row hdec hlid hnone hfull =>
    by_cases hx : x.1.fid = fid
    · exact .inr (inFlight_new hcopies hx hdec hlid others fs.tail)
    · refine .inl ⟨fun g hg => ?_, hsame fun h => absurd h hx⟩
      rcases List.mem_append.1 hg with hg | hg
      · exact habsent g (List.mem_of_mem_tail hg)
      · rwa [List.mem_singleton.1 hg]

/-- A frame in flight that a new line of its own does not complete stays in flight, with that line. -/
theorem inFlight_stored {fid : FrameId} {p : List (LineItem × Time)} {x : LineItem × Time} {row : List Byte}
    {others : List FrameId} {older newer : List Frame} {f : Frame} (hf : f.fid = fid)
    (hcollected : Collected (fun l => firstCopy fid l p) f) (hnewer : ∀ g ∈ newer, g.fid ∈ others)
    (hx : x.1.fid = fid) (hdec : decodeLine x.1 = .row row) (hlid : x.1.lid.toNat < 342)
    (hhas : f.has x.1.lid.toNat = false) :
    InFlight fid (p ++ [x]) others
      ((older ++ f :: newer).map (fun y => if y.fid = x.1.fid then y.insert x.1 row x.2 else y)) := by
  have hnone : firstCopy fid x.1.lid.toNat p = none := by
    rw [← Option.not_isSome_iff_eq_none, ← hcollected.has, hhas]
    exact Bool.false_ne_true
  have hnew := hcollected.insert hdec hlid hnone x.2
  rw [← firstCopy_snoc_new hx (taken_of_row hdec hlid) hnone] at hnew
  refine ⟨_, f.insert x.1 row x.2, _, by rw [List.map_append, List.map_cons, if_pos (hf.trans hx.symm)], hf, hnew,
    fun g hg => ?_⟩
  obtain ⟨g', hg', rfl⟩ := List.mem_map.1 hg
  split
  · exact hnewer g' hg'
  · exact hnewer g' hg'

/-- A frame in flight stays in flight while a line of it has not come, and while fewer other frames than the window
holds are allocated beside it (R164, R173). -/
theorem FramesEffect.inFlight {c : CfgWord} {fid : FrameId} {p : List (LineItem × Time)} {x : LineItem × Time}
    {others : List FrameId} {fs fs' : List Frame} {out : List Output} (heff : FramesEffect c x.1 x.2 fs fs' out)
    (hok : FramesOk c fs) (h : InFlight fid p others fs) {l : Nat} (hl : l < 342)
    (hopen : firstCopy fid l (p ++ [x]) = none) (hothers : others.length < windowSize c)
    (halloc : taken x.1 = true → Absent x.1.fid fs → x.1.fid ∈ others) : InFlight fid (p ++ [x]) others fs' := by
  obtain ⟨older, f, newer, rfl, hf, hcollected, hnewer⟩ := h
  have hmem : f ∈ older ++ f :: newer := by simp
  have hsame : (x.1.fid = fid → (firstCopy fid x.1.lid.toNat p).isSome = true) →
      Collected (fun l => firstCopy fid l (p ++ [x])) f := fun hx => by
    rwa [funext (firstCopy_snoc_same fun hfid _ => hx hfid)]
  have hits : ∀ g ∈ older ++ f :: newer, g.fid = x.1.fid → x.1.fid = fid → g = f := fun g hg hgx hx =>
    eq_of_frame_fid_eq hok.fids hg hmem (hgx.trans (hx.trans hf.symm))
  cases heff with
  | untaken ev ht =>
    refine ⟨older, f, newer, rfl, hf, ?_, hnewer⟩
    rwa [funext (firstCopy_snoc_same fun _ ht' => absurd ht' (by rw [ht]; exact Bool.false_ne_true))]
  | duplicate row g hdec hlid hg hgx hhas =>
    refine ⟨older, f, newer, rfl, hf, hsame fun hx => ?_, hnewer⟩
    rw [hits g hg hgx hx] at hhas
    exact (hcollected.has _).symm.trans hhas
  | stored row g hdec hlid hg hgx hhas hn =>
    by_cases hx : x.1.fid = fid
    · rw [hits g hg hgx hx] at hhas
      exact inFlight_stored hf hcollected hnewer hx hdec hlid hhas
    · refine ⟨_, f, _, by rw [List.map_append, List.map_cons, if_neg fun hfx => hx (hfx.symm.trans hf)], hf,
        hsame fun h => absurd h hx, fun g' hg' => ?_⟩
      obtain ⟨y, hy, rfl⟩ := List.mem_map.1 hg'
      split
      · exact hnewer y hy
      · exact hnewer y hy
  | completed row g hdec hlid hg hgx hhas hn =>
    by_cases hx : x.1.fid = fid
    · have hfull := Frame.insert_full (row := row) (now := x.2) (hok.counted g hg) hlid hhas hn l hl
      have hsome := Within.insert (fun _ k hk => hcollected.has k ▸ hits g hg hgx hx ▸ hk) hdec hlid hgx
        (hgx.trans hx) l hfull
      rw [hopen] at hsome
      cases hsome
    · have hkept : (fun y : Frame => y.fid != x.1.fid) f = true := by simpa [hf] using Ne.symm hx
      have hsplit := List.filter_append (p := fun y : Frame => y.fid != x.1.fid) older (f :: newer)
      rw [List.filter_cons_of_pos (p := fun y : Frame => y.fid != x.1.fid) hkept] at hsplit
      exact ⟨_, f, _, hsplit, hf, hsame fun h => absurd h hx, fun g' hg' => hnewer g' (List.mem_filter.1 hg').1⟩
  | allocated row hdec hlid hnone hroom =>
    have hx : x.1.fid ≠ fid := fun hx => hnone f hmem (hf.trans hx.symm)
    refine ⟨older, f, newer ++ [_], by rw [List.append_assoc, List.cons_append], hf, hsame fun h => absurd h hx,
      fun g hg => ?_⟩
    rcases List.mem_append.1 hg with hg | hg
    · exact hnewer g hg
    · rw [List.mem_singleton.1 hg]
      exact halloc (taken_of_row hdec hlid) hnone
  | evicted row hdec hlid hnone hfull =>
    have hx : x.1.fid ≠ fid := fun hx => hnone f hmem (hf.trans hx.symm)
    have hxo := halloc (taken_of_row hdec hlid) hnone
    cases older with
    | nil =>
      have hfids : (x.1.fid :: newer.map Frame.fid).Nodup := by
        refine List.nodup_cons.2 ⟨fun hxn => ?_, (List.nodup_cons.1 hok.fids).2⟩
        obtain ⟨g, hg, hgx⟩ := List.mem_map.1 hxn
        exact hnone g (List.mem_cons_of_mem _ hg) hgx
      have hsub : x.1.fid :: newer.map Frame.fid ⊆ others := by
        refine List.cons_subset.2 ⟨hxo, fun g hg => ?_⟩
        obtain ⟨y, hy, rfl⟩ := List.mem_map.1 hg
        exact hnewer y hy
      have hlen := (hfids.subperm hsub).length_le
      simp only [List.length_cons, List.length_map, List.nil_append] at hlen hfull
      omega
    | cons a older =>
      refine ⟨older, f, newer ++ [(Frame.empty x.1.fid x.2).insert x.1 row x.2], by simp, hf,
        hsame fun h => absurd h hx, fun g hg => ?_⟩
      rcases List.mem_append.1 hg with hg | hg
      · exact hnewer g hg
      · rw [List.mem_singleton.1 hg]
        exact hxo

/-- The last line of a frame in flight: the frame leaves with the first copies (R167, R173). -/
theorem FramesEffect.last {c : CfgWord} {fid : FrameId} {p : List (LineItem × Time)} {x : LineItem × Time}
    {others : List FrameId} {fs fs' : List Frame} {out : List Output} (heff : FramesEffect c x.1 x.2 fs fs' out)
    (hok : FramesOk c fs) (h : InFlight fid p others fs) (hx : x.1.fid = fid)
    (hlast : firstCopy fid x.1.lid.toNat p = none) (first : Nat → LineItem) (row : Nat → List Byte)
    (hall : ∀ l < 342, firstCopy fid l (p ++ [x]) = some (first l) ∧ decodeLine (first l) = .row (row l))
    (hlid : x.1.lid.toNat < 342) :
    Absent fid fs' ∧ out = [.frame fid ((List.range 342).flatMap (fun l => rowOut c (row l)))
      (BitVec.ofNat 16 ((List.range 342).map (fun l => (first l).n)).sum)
      (BitVec.ofNat 16 ((List.range 342).countP (fun l => (first l).rle)))] := by
  obtain ⟨older, f, newer, rfl, hf, hcollected, _⟩ := h
  have hmem : f ∈ older ++ f :: newer := by simp
  have hits : ∀ g ∈ older ++ f :: newer, g.fid = x.1.fid → g = f := fun g hg hgx =>
    eq_of_frame_fid_eq hok.fids hg hmem (hgx.trans (hx.trans hf.symm))
  have hnew : f.has x.1.lid.toNat = false := by rw [hcollected.has, hlast, Option.isSome_none]
  have htaken : taken x.1 = true := by
    have hsome := (hall _ hlid).1
    rw [firstCopy_append, hlast, Option.none_or, firstCopy_singleton] at hsome
    split at hsome
    · rename_i hcopy
      exact ((isCopy_iff _ _ _).1 hcopy).2.2
    · cases hsome
  have hcount : f.nLines.toNat = 341 := by
    have hfull : ∀ l < 342, (presentWith f.present x.1.lid.toNat).getLsbD l = true := by
      intro l hl
      have hsome := (hall l hl).1
      rw [getLsbD_presentWith, decide_eq_true hlid, Bool.true_and, Bool.or_eq_true, decide_eq_true_eq]
      by_cases hll : x.1.lid.toNat = l
      · exact .inr hll
      · left
        rw [firstCopy_append, firstCopy_singleton, if_neg fun hc => hll ((isCopy_iff _ _ _).1 hc).2.1,
          Option.or_none] at hsome
        exact (hcollected.has l).trans (by rw [hsome, Option.isSome_some])
    have hpresent := presentCount_presentWith f.present _ hlid hnew
    have h342 : presentCount (presentWith f.present x.1.lid.toNat) = 342 := by
      rw [presentCount_eq, List.countP_eq_length.2 fun l hl => hfull l (List.mem_range.1 hl), List.length_range]
    have hcounted := hok.counted f hmem
    rw [Frame.Counted] at hcounted
    omega
  cases heff with
  | untaken ev ht =>
    rw [ht] at htaken
    cases htaken
  | duplicate row' g hdec hlid' hg hgx hhas =>
    rw [hits g hg hgx, hnew] at hhas
    cases hhas
  | stored row' g hdec hlid' hg hgx hhas hn =>
    rw [hits g hg hgx] at hn
    exact absurd hcount hn
  | completed row' g hdec hlid' hg hgx hhas hn =>
    obtain rfl := hits g hg hgx
    have hcollected' := hcollected.insert hdec hlid' hlast x.2
    rw [← firstCopy_snoc_new hx htaken hlast] at hcollected'
    refine ⟨fun y hy => ?_, ?_⟩
    · rw [← hx]
      simpa using (List.mem_filter.1 hy).2
    · rw [hcollected'.record c first row hall, Frame.insert_fid, hf]
  | allocated row' hdec hlid' hnone hroom => exact absurd (hf.trans hx.symm) (hnone f hmem)
  | evicted row' hdec hlid' hnone hfull => exact absurd (hf.trans hx.symm) (hnone f hmem)

/-! ## Runs of lines -/

theorem lineAll_append (p q : List (LineItem × Time)) (s : State) :
    lineAll (p ++ q) s = andThen (lineAll p s) (lineAll q) := by
  induction p generalizing s with
  | nil => rfl
  | cons x p ih =>
    rw [List.cons_append, lineAll, lineAll, andThen_assoc]
    exact congrArg _ (funext ih)

theorem lineAll_snoc {p : List (LineItem × Time)} {x : LineItem × Time} {s u t : State}
    (hp : lineAll p s = .next u) (hx : lineStep x.1 x.2 u = .next t) : lineAll (p ++ [x]) s = .next t := by
  rw [lineAll_append, hp, andThen_next, lineAll, hx]
  rfl

/-- What holds before a run of lines, and is kept by each of its lines with what that line puts out, holds after the
run, which completes. -/
theorem lineAll_induct {s : State} (h : AssemblerInv s) (ls : List (LineItem × Time))
    (P : List (LineItem × Time) → State → List Output → Prop) (h0 : P [] s [])
    (hstep : ∀ p x u t new out, p ++ [x] <+: ls → lineAll p s = .next u → AssemblerInv u → u.cfg = s.cfg →
      P p u new → LineEffect x.1 x.2 u t → FramesEffect s.cfg x.1 x.2 (framesOf u) (framesOf t) out →
      P (p ++ [x]) t (new ++ out)) :
    ∃ t new, lineAll ls s = .next t ∧ AssemblerInv t ∧ t.cfg = s.cfg ∧ t.out = s.out ++ new ∧ P ls t new := by
  induction ls using List.reverseRecOn with
  | nil => exact ⟨s, [], rfl, h, rfl, (List.append_nil _).symm, h0⟩
  | append_singleton p x ih =>
    obtain ⟨u, new, hu, huinv, hucfg, huout, hP⟩ := ih fun q y v t new out hq =>
      hstep q y v t new out (hq.trans (List.prefix_append p [x]))
    obtain ⟨t, ht, heff⟩ := lineStep_completes huinv x.1 x.2
    obtain ⟨hframes, hout⟩ := heff.frames huinv
    have hcfg := (lineStep_sameFrame x.1 x.2 u t ht).1.cfg
    have hfeff := lineFrames_effect u.cfg x.1 x.2 (framesOf u)
    rw [← hframes, hucfg] at hfeff
    rw [hucfg, huout, List.append_assoc] at hout
    exact ⟨t, _, lineAll_snoc hu ht, heff.keepsInv huinv, hcfg.trans hucfg, hout,
      hstep p x u t new _ List.prefix_rfl hu huinv hucfg hP heff hfeff⟩

/-- The frames allocated beside one in a run are those of its first part and those of its second. -/
theorem allocatedBeside_append (fid : FrameId) (p q : List (LineItem × Time)) (s u : State)
    (h : lineAll p s = .next u) :
    allocatedBeside fid (p ++ q) s = allocatedBeside fid p s ++ allocatedBeside fid q u := by
  induction p generalizing s with
  | nil =>
    cases h
    rfl
  | cons x p ih =>
    obtain ⟨t, ht, hp⟩ := (andThen_eq_next _ _ _).1 h
    rw [List.cons_append, allocatedBeside, allocatedBeside]
    simp only [ht, ih t hp]
    split
    · rfl
    · rfl

/-- A line that allocates a frame while `fid` is in flight names one of the frames allocated beside it. -/
theorem mem_allocatedBeside_of_prefix {fid : FrameId} {p ls : List (LineItem × Time)} {x : LineItem × Time}
    {s u : State} (hp : p ++ [x] <+: ls) (hu : lineAll p s = .next u) (ht : taken x.1 = true)
    (hin : ¬Absent fid (framesOf u)) (hnew : Absent x.1.fid (framesOf u)) :
    x.1.fid ∈ allocatedBeside fid ls s := by
  obtain ⟨r, rfl⟩ := hp
  rw [absent_iff, ← ne_eq, Option.ne_none_iff_isSome] at hin
  rw [absent_iff, ← Option.isNone_iff_eq_none] at hnew
  rw [List.append_assoc, allocatedBeside_append fid p _ s u hu, List.singleton_append, allocatedBeside]
  simp [ht, hin, hnew]

/-! ## One frame among others -/

/-- While a line of a frame has not come, a run of lines puts out no frame of its id (R167, R173). -/
theorem lineAll_without_record {s : State} (h : AssemblerInv s) (fid : FrameId) (ls : List (LineItem × Time))
    (habsent : Absent fid (framesOf s)) {l : Nat} (hl : l < 342) (hopen : firstCopy fid l ls = none) :
    ∃ t new, lineAll ls s = .next t ∧ t.out = s.out ++ new ∧
      ∀ rows bc rc, Output.frame fid rows bc rc ∉ new := by
  have hrun := lineAll_induct h ls
    (fun p u new => Within fid p (framesOf u) ∧ ∀ rows bc rc, Output.frame fid rows bc rc ∉ new)
    ⟨.of_absent habsent [], by simp⟩ ?step
  case step =>
    rintro p x u t new out hp _ huinv hucfg ⟨hwithin, hnone⟩ _ heff
    refine ⟨heff.within hwithin, fun rows bc rc hmem => ?_⟩
    rcases List.mem_append.1 hmem with hmem | hmem
    · exact hnone rows bc rc hmem
    · exact heff.no_record (hucfg ▸ framesOk_of_inv huinv) hwithin hl (firstCopy_none_of_prefix hp hopen) rows bc rc
        hmem
  obtain ⟨t, new, ht, _, _, hout, _, hnone⟩ := hrun
  exact ⟨t, new, ht, hout, hnone⟩

/-- While a line of a frame has not come, and few other frames are allocated beside it, a run of lines collects the
frame and puts out none of its id (R164, R173). -/
theorem lineAll_collecting {s : State} (h : AssemblerInv s) (fid : FrameId) (ls : List (LineItem × Time))
    (others : List FrameId) (habsent : Absent fid (framesOf s)) {l : Nat} (hl : l < 342)
    (hopen : firstCopy fid l ls = none) (hothers : others.length < windowSize s.cfg)
    (hbeside : ∀ g ∈ allocatedBeside fid ls s, g ∈ others) :
    ∃ t new, lineAll ls s = .next t ∧ AssemblerInv t ∧ t.cfg = s.cfg ∧ t.out = s.out ++ new ∧
      Collecting fid ls others (framesOf t) ∧ ∀ rows bc rc, Output.frame fid rows bc rc ∉ new := by
  obtain ⟨t', new', ht', hout', hnone⟩ := lineAll_without_record h fid ls habsent hl hopen
  have hrun := lineAll_induct h ls
    (fun p u _ => Collecting fid p others (framesOf u)) (.inl ⟨habsent, firstCopy_nil fid⟩) ?step
  case step =>
    intro p x u t new out hp hu huinv hucfg hP _ heff
    have hok : FramesOk s.cfg (framesOf u) := hucfg ▸ framesOk_of_inv huinv
    rcases hP with ⟨habsent, hcopies⟩ | hflight
    · exact heff.collecting_of_absent habsent hcopies
    · refine .inr (heff.inFlight hok hflight hl (firstCopy_none_of_prefix hp hopen) hothers fun ht hnew =>
        hbeside _ (mem_allocatedBeside_of_prefix hp hu ht (fun habs => ?_) hnew))
      obtain ⟨older, f, newer, hfs, hf, _⟩ := hflight
      exact habs f (by rw [hfs]; simp) hf
  obtain ⟨t, new, ht, hinv, hcfg, hout, hcollecting⟩ := hrun
  obtain rfl : t' = t := Host.Outcome.next.inj (ht'.symm.trans ht)
  exact ⟨t', new', ht, hinv, hcfg, hout', hcollecting, hnone⟩

/-- Settles O30: the frame is collected until its last line, leaves on it, and does not gather all its lines again. -/
theorem frameAmongOthersIsEmittedOnce : Obligations.FrameAmongOthersIsEmittedOnce := by
  intro s fid pre post last others first row h hnone hlast hlid hall hopen hothers hbeside hpost
  obtain ⟨u, before, hu, huinv, hucfg, huout, hcollecting, hbefore⟩ := lineAll_collecting h fid pre others
    ((absent_iff s fid).2 hnone) hlid hopen hothers hbeside
  obtain ⟨t, ht, heff⟩ := lineStep_completes huinv last.1 last.2
  obtain ⟨hframes, hout⟩ := heff.frames huinv
  have hfeff := lineFrames_effect u.cfg last.1 last.2 (framesOf u)
  rw [← hframes] at hfeff
  have hflight : InFlight fid pre others (framesOf u) := by
    rcases hcollecting with ⟨_, hcopies⟩ | hflight
    · obtain ⟨l, hl, hne⟩ : ∃ l < 342, l ≠ last.1.lid.toNat := by
        by_cases h0 : last.1.lid.toNat = 0
        · exact ⟨1, by decide, by omega⟩
        · exact ⟨0, by decide, Ne.symm h0⟩
      have hsome := (hall l hl).1
      rw [firstCopy_append, hcopies l, firstCopy_singleton,
        if_neg fun hc => hne ((isCopy_iff _ _ _).1 hc).2.1.symm] at hsome
      cases hsome
    · exact hflight
  obtain ⟨habsent, hrecord⟩ := hfeff.last (framesOk_of_inv huinv) hflight hlast hopen first row hall hlid
  rw [hrecord, huout, hucfg] at hout
  obtain ⟨l, hl, hlpost⟩ := hpost
  obtain ⟨v, after, hv, hvout, hafter⟩ := lineAll_without_record (heff.keepsInv huinv) fid post habsent hl hlpost
  refine ⟨t, v, before, after, lineAll_snoc hu ht, (absent_iff t fid).1 habsent, hout, hv, hvout,
    fun rows bc rc hmem => ?_⟩
  rcases List.mem_append.1 hmem with hmem | hmem
  · exact hbefore rows bc rc hmem
  · exact hafter rows bc rc hmem

/-! ## One frame alone -/

/-- A line changes no slot of another frame where it evicts none (R161 to R167). -/
theorem LineEffect.other_slots {s t : State} {item : LineItem} {now : Time} (h : AssemblerInv s)
    (heff : LineEffect item now s t) (hroom : s.findSlot item.fid = none → s.slots.length < windowSize s.cfg) :
    t.slots.filter (fun e => e.fid != item.fid) = s.slots.filter (fun e => e.fid != item.fid) := by
  have hreplace : ∀ e : Slot, e.fid = item.fid → ∀ slots : List Slot,
      (replaceSlot (e.insert item now) slots).filter (fun x => x.fid != item.fid) =
        slots.filter (fun x => x.fid != item.fid) := by
    intro e he slots
    have hmap : replaceSlot (e.insert item now) slots =
        slots.map (fun x => if x.fid = item.fid then e.insert item now else x) :=
      inserted_slots (s := { s with slots := slots }) (row := []) he
    rw [hmap]
    exact filter_ne_map_ite Slot.fid item.fid (fun _ => e.insert item now) (fun _ _ => he) slots
  cases heff with
  | invalid reason hdec => rfl
  | outOfRange row hdec hlid => rfl
  | duplicate row e hdec hlid hslot hhas => rfl
  | stored row e hdec hlid hslot hhas hn => exact hreplace e (fid_of_findSlot hslot) s.slots
  | completed row e hdec hlid hslot hhas hn =>
    have hfid := fid_of_findSlot hslot
    show ((replaceSlot (e.insert item now) s.slots).filter (fun x => x.fid != e.fid)).filter _ = _
    rw [hfid, List.filter_filter]
    simp only [Bool.and_self]
    exact hreplace e hfid s.slots
  | allocated row hdec hlid hnone =>
    have hkeep : s.evictOldest = s := by
      rcases evictOldest_of_inv h.store with ⟨_, he⟩ | ⟨_, _, hfull, _, _⟩
      · exact he
      · exact absurd hfull (hroom hnone).ne
    refine (hreplace _ rfl _).trans ?_
    rw [alloc_slots, hkeep, List.filter_append, List.filter_cons_of_neg (by simp), List.filter_nil, List.append_nil]

theorem filter_ne_of_findSlot_none {s : State} {fid : FrameId} (h : s.findSlot fid = none) :
    s.slots.filter (fun e => e.fid != fid) = s.slots :=
  List.filter_eq_self.2 fun e he => by simpa using (findSlot_eq_none_iff s fid).1 h e he

/-- A run of lines of one frame leaves the slots of the other frames, and puts out no frame but that one. -/
theorem lineAll_alone {s : State} (h : AssemblerInv s) (fid : FrameId) (ls : List (LineItem × Time))
    (hnone : s.findSlot fid = none) (hroom : s.slots.length < windowSize s.cfg) (hls : ∀ x ∈ ls, x.1.fid = fid) :
    ∃ t new, lineAll ls s = .next t ∧ t.out = s.out ++ new ∧ t.slots.filter (fun e => e.fid != fid) = s.slots ∧
      ∀ g rows bc rc, Output.frame g rows bc rc ∈ new → g = fid := by
  have hrun := lineAll_induct h ls
    (fun _ u new => u.slots.filter (fun e => e.fid != fid) = s.slots ∧
      ∀ g rows bc rc, Output.frame g rows bc rc ∈ new → g = fid)
    ⟨filter_ne_of_findSlot_none hnone, by simp⟩ ?step
  case step =>
    rintro p x u t new out hp _ huinv hucfg ⟨hslots, hrecords⟩ heff hfeff
    have hx : x.1.fid = fid := hls x (hp.subset (by simp))
    have hother := heff.other_slots huinv fun hxnone => by
      rw [hx] at hxnone
      rwa [← filter_ne_of_findSlot_none hxnone, hslots, hucfg]
    rw [hx] at hother
    refine ⟨hother.trans hslots, fun g rows bc rc hmem => ?_⟩
    rcases List.mem_append.1 hmem with hmem | hmem
    · exact hrecords g rows bc rc hmem
    · obtain ⟨_, _, _, _, _, _, _, _, hg⟩ := hfeff.record hmem
      exact hg.trans hx
  obtain ⟨t, new, ht, _, _, hout, hslots, hrecords⟩ := hrun
  exact ⟨t, new, ht, hout, hslots, hrecords⟩

theorem firstCopy_mem {fid : FrameId} {l : Nat} {ls : List (LineItem × Time)} {item : LineItem}
    (h : firstCopy fid l ls = some item) : item.lid.toNat = l ∧ ∃ x ∈ ls, x.1 = item := by
  obtain ⟨x, hx, hitem⟩ := List.mem_map.1 (List.mem_of_find?_eq_some h)
  exact ⟨((isCopy_iff fid l item).1 (List.find?_some h)).2.1, x, hx, hitem⟩

theorem firstCopy_isSome_of_mem {fid : FrameId} {l : Nat} {ls : List (LineItem × Time)} {x : LineItem × Time}
    (hx : x ∈ ls) (hcopy : isCopy fid l x.1 = true) : ∃ item, firstCopy fid l ls = some item := by
  rw [← Option.isSome_iff_exists]
  exact List.find?_isSome.2 ⟨x.1, List.mem_map_of_mem hx, hcopy⟩

/-- Settles O29: with no other frame among the lines none is allocated beside, and no slot but the frame's changes. -/
theorem permutationInvariance : Obligations.PermutationInvariance := by
  intro s fid ls last row size rle h hnone hroom hlines hcover hlast
  have hcopy : ∀ l < 342, ∃ item, firstCopy fid l (ls ++ [last]) = some item := by
    intro l hl
    obtain ⟨x, hx, rfl⟩ := hcover l hl
    obtain ⟨hfid, hlid, hdec, _, _⟩ := hlines x hx
    exact firstCopy_isSome_of_mem hx ((isCopy_iff _ _ _).2 ⟨hfid, rfl, taken_of_row hdec hlid⟩)
  let first : Nat → LineItem := fun l => (firstCopy fid l (ls ++ [last])).getD last.1
  have hfirst : ∀ l < 342, firstCopy fid l (ls ++ [last]) = some (first l) ∧ decodeLine (first l) = .row (row l) ∧
      (first l).n = size l ∧ (first l).rle = rle l := by
    intro l hl
    obtain ⟨item, hitem⟩ := hcopy l hl
    obtain ⟨rfl, x, hx, rfl⟩ := firstCopy_mem hitem
    obtain ⟨_, _, hdec, hn, hrle⟩ := hlines x hx
    simp only [first, hitem, Option.getD_some]
    exact ⟨trivial, hdec, hn, hrle⟩
  have hopen : firstCopy fid last.1.lid.toNat ls = none := by
    by_contra hsome
    obtain ⟨item, hitem⟩ := Option.ne_none_iff_exists'.1 hsome
    obtain ⟨hlid, x, hx, rfl⟩ := firstCopy_mem hitem
    exact hlast x hx (BitVec.eq_of_toNat_eq hlid)
  have hids : ∀ x ∈ ls ++ [last], x.1.fid = fid := fun x hx => (hlines x hx).1
  have hlastmem : last ∈ ls ++ [last] := by simp
  have hbeside : ∀ g ∈ allocatedBeside fid ls s, g ∈ ([] : List FrameId) := fun g hg => by
    obtain ⟨hne, x, hx, hxg, _⟩ := mem_allocatedBeside fid g ls s hg
    exact absurd (hxg.symm.trans (hids x (List.mem_append_left _ hx))) hne
  obtain ⟨t, _, before, after, ht, htnone, hout, _, _, hrecords⟩ := frameAmongOthersIsEmittedOnce s fid ls [] last []
    first row h hnone (hids last hlastmem) (hlines last hlastmem).2.1 (fun l hl => ⟨(hfirst l hl).1, (hfirst l hl).2.1⟩)
    hopen (windowSize_pos s.cfg h.cfg) hbeside ⟨0, by decide, rfl⟩
  obtain ⟨t', new, ht', hout', hslots, hown⟩ := lineAll_alone h fid (ls ++ [last]) hnone hroom hids
  obtain rfl : t = t' := Host.Outcome.next.inj (ht.symm.trans ht')
  have hbefore : ∀ o ∈ before, o ∈ new := fun o ho => by
    rw [hout, List.append_assoc] at hout'
    exact List.append_cancel_left hout' ▸ List.mem_append_left _ ho
  have hsizes : (List.range 342).map (fun l => (first l).n) = (List.range 342).map size :=
    List.map_congr_left fun l hl => (hfirst l (List.mem_range.1 hl)).2.2.1
  have hrles : (List.range 342).countP (fun l => (first l).rle) = (List.range 342).countP rle :=
    List.countP_congr fun l hl => by rw [(hfirst l (List.mem_range.1 hl)).2.2.2]
  rw [hsizes, hrles] at hout
  refine ⟨t, before, ht, ?_, fun o ho => ?_, hout⟩
  · rw [← hslots, filter_ne_of_findSlot_none htnone]
  · cases o with
    | event ev => rfl
    | frame g rows bc rc =>
      have hg := hown g rows bc rc (hbefore _ ho)
      subst hg
      exact absurd (List.mem_append_left _ ho) (hrecords rows bc rc)

end Sys2Proof.Machine
end
